-- ==== Sys2Proof/Word.lean ====
section
/-!
DEFINITION. Words, and the small finite types the spec names (rule R6 of 00_scope.md, rules R11, R13, R22 to R25, R31, R32 of
10_state.md, rule R77 of 30_encoding.md). Their numeric codes stand in Decode.lean.
-/

namespace Sys2Proof

/-- One byte of buffer memory (rule R41). -/
abbrev Byte := BitVec 8

/-- A header word, a payload word, the accumulator (rules R12, R20, R21). -/
abbrev Word32 := BitVec 32

/-- Index of a Transfer Buffer; rule R4 bounds NBUF by 64, and the six index bits of CMD8 say the same (rule R76).
Which indices name a buffer of a machine is its NBUF (Config.lean). -/
abbrev BufIdx := Fin 64

/-- Direction of a transfer: `DIR` and `OP[i]` (rules R13, R22). -/
inductive Dir where
  | write
  | read
deriving DecidableEq, Repr

/-- Direction of the shared data pin (rule R32). -/
inductive Pin where
  | input
  | output
deriving DecidableEq, Repr

/-- Lifecycle state `ST[i]` (rule R23). -/
inductive Life where
  | ready
  | busy
deriving DecidableEq, Repr

/-- Result `RES[i]`, and the second argument of the event `CPL` (rules R24, R75). -/
inductive Result where
  | success
  | parityError
deriving DecidableEq, Repr

/-- Status that `POP` returns (rule R77). -/
inductive PopStatus where
  | empty
  | nextArmed
  | nextWithheld
deriving DecidableEq, Repr

/-- The nine phases of rule R11. -/
inductive Phase where
  | request
  | ack
  | writeData1
  | writeData2
  | writeData3
  | readData1
  | readData2
  | readData3
  | reset
deriving DecidableEq, Repr

/-- The ten interrupt entries of rule R74: one for each phase, two for `ACK`. -/
inductive Entry where
  | request
  | ackR
  | ackW
  | writeData1
  | writeData2
  | writeData3
  | readData1
  | readData2
  | readData3
  | reset
deriving DecidableEq, Repr

/-- The five legal frame widths `FRAME_WIDTHS` (rules R4, R25). -/
inductive FrameWidth where
  | w5
  | w8
  | w12
  | w13
  | w16
deriving DecidableEq, Repr

/-- One bit cycle as an observer of the pins sees it: the triple `(oe, o, s)` of rules R31 and R174. -/
structure WireCycle where
  /-- the host drives the data line in this cycle -/
  oe : Bool
  /-- the bit the host presents -/
  o : Bool
  /-- the bit sampled -/
  s : Bool
deriving DecidableEq, Repr

/-- An event of rule R31 and rule R96. -/
inductive Event where
  /-- `CPL(i, r)`: buffer `i` completed with result `r` -/
  | cpl (i : BufIdx) (r : Result)
  /-- `CANCELLED(i)`: buffer `i` was removed by a successful cancel -/
  | cancelled (i : BufIdx)
deriving DecidableEq, Repr

end Sys2Proof
end

