-- ==== Sys2Proof/Config.lean ====
section
/-!
DEFINITION. Parameters and constants of the machine (rule R4 of 00_scope.md), and the free values: what the spec calls
`draw` and the target oracle (rule R172 of 44_serial_marshaller.md). The free values are opaque, so no proof can see them.
-/

namespace Sys2Proof

/-- The two parameters rule R4 leaves OPEN. They are held so that every value of the type is legal:
`NBUF` is 1 to 64 and `PAYCAP` is at least 4. A machine carries its parameters in `State.cfg`, which no step changes. -/
structure Params where
  /-- `NBUF - 1` -/
  nbufPred : Fin 64
  /-- `PAYCAP - 4` -/
  payExtra : Nat
deriving DecidableEq, Repr

/-- `NBUF`, the number of Transfer Buffers, `1 <= NBUF <= 64` (rule R4). -/
def Params.nbuf (p : Params) : Nat := p.nbufPred.val + 1

/-- `PAYCAP`, the payload capacity in bytes, `PAYCAP >= 4` (rule R4). -/
def Params.paycap (p : Params) : Nat := p.payExtra + 4

/-- `BUFSTRIDE = 4 + PAYCAP` (rule R41). -/
def Params.stride (p : Params) : Nat := 4 + p.paycap

/-- Size of the buffer memory in bytes, `NBUF * BUFSTRIDE` (rule R41). -/
def Params.memSize (p : Params) : Nat := p.nbuf * p.stride

/-- The parameters of `State.reset`. DESIGN CHOICE (log entry 2): the spec leaves both OPEN; 64 buffers make every
index of a command word name a buffer, and 4 bytes of payload is what the spec's programs use. -/
def Params.default : Params := { nbufPred := 63, payExtra := 0 }

namespace Config

/-- `RESET_WORDS = 3` (rule R4, conflict C3). -/
def resetWords : BitVec 2 := 3#2

/-- `ACK_OK = 0b001` (rules R4, R66). -/
def ackOk : BitVec 3 := 0b001#3

/-- `ACK_TX = 0b00000`, the value written for the ACK exchange (rules R4, R71). -/
def ackTx : Word32 := 0#32

/-- The transmit value of the line reset, all ones (rule R70). -/
def resetWord : Word32 := 0xFFFF#32

/-- The bit sampled in the `n`-th cycle in which the host drives the pin: `draw(1)` of rule R172. The argument is the
counter `State.draws`, so every such cycle has a value of its own. Nothing constrains it (log entry 4). -/
opaque drawBit : Nat → Bool

/-- `TargetBit()` of rule R172 when no answer of the target stands in `State.target`: a function of the `WIRE` so far.
Nothing constrains it (log entry 5). -/
opaque targetBit : List WireCycle → Bool

end Config

end Sys2Proof
end

