-- ==== Sys2Proof/Machine/Flags.lean ====
section
/-!
DEFINITION. The parities of rules R63 and R68 of 30_encoding.md: the only flag computations of the block (rule R81: there are
no flags of the arithmetic kind).
-/

namespace Sys2Proof

/-- `xorfold_N(v)`: 1 when `v` has an odd number of ones (rules R7, R68). -/
def xorfold {n : Nat} (v : BitVec n) : Bool :=
  (List.range n).foldl (fun p k => p ^^ v.getLsbD k) false

/-- The variable nibble `H[3:0] = {A3, A2, RnW, APnDP}` of a request (rules R61, R73). -/
def reqNibble (n r : Bool) (a : BitVec 2) : BitVec 4 :=
  a ++ BitVec.ofBool r ++ BitVec.ofBool n

/-- Request parity: even parity over the four variable bits (rule R63). -/
def reqParity (n r : Bool) (a : BitVec 2) : Bool := xorfold (reqNibble n r a)

/-- Parity of a write's payload word, appended as bit 32 of the outgoing stream (rule R68). -/
def payloadParity (p : Word32) : Bool := xorfold p

end Sys2Proof
end

