-- ==== Sys2Proof/Syntax.lean ====
section
/-!
DEFINITION. The operations of spec/opcode_table.json, one constructor a row, in the table's order. What each kind of row does
when it is run is said in Machine/<Family>.lean (log entry 6 says how the rows that are frames and codes are read).
-/

namespace Sys2Proof

/-- The operation `f` of `VISITFIRST(f)` (rule R114): a micro-operation of one buffer index that returns nothing. -/
inductive VisitOp where
  | arm
  | complete
deriving DecidableEq, Repr

/-- One row of spec/opcode_table.json a constructor. -/
inductive Instr where
  -- host commands, format CMD8 (rule R76)
  /-- `START.W(i)`, rule R92 -/
  | startW (i : BufIdx)
  /-- `START.R(i)`, rule R91 -/
  | startR (i : BufIdx)
  /-- `CANCEL(i)`, rule R93 -/
  | cancel (i : BufIdx)
  /-- `RESET`, rule R151 -/
  | reset
  -- interrupt entries, format IRQKEY5 (rule R74); `d` is bit 4 of the key, `DIR`, which only the ACK entries look at
  /-- `IRQ.REQUEST`, rule R127 -/
  | irqRequest (d : Bool)
  /-- `IRQ.ACK.R`, rule R128 -/
  | irqAckR
  /-- `IRQ.ACK.W`, rule R129 -/
  | irqAckW
  /-- `IRQ.WRITE_DATA1`, rule R133 -/
  | irqWriteData1 (d : Bool)
  /-- `IRQ.WRITE_DATA2`, rule R134 -/
  | irqWriteData2 (d : Bool)
  /-- `IRQ.WRITE_DATA3`, rule R135 -/
  | irqWriteData3 (d : Bool)
  /-- `IRQ.READ_DATA1`, rule R130 -/
  | irqReadData1 (d : Bool)
  /-- `IRQ.READ_DATA2`, rule R131 -/
  | irqReadData2 (d : Bool)
  /-- `IRQ.READ_DATA3`, rule R132 -/
  | irqReadData3 (d : Bool)
  /-- `IRQ.RESET`, rule R153 -/
  | irqReset (d : Bool)
  -- agent steps with a guard
  /-- `IrqEntry`, rule R125 (guard over `{IRQP, IMASK}`) -/
  | irqEntry
  /-- `BIT`, rule R171 (guard over `{XBUSY}`) -/
  | bit
  -- frames (rule R60)
  /-- `REQ8`, rule R61: `n` = APnDP, `r` = RnW, `a` = {A3, A2}, `p` = parity -/
  | req8 (n r : Bool) (a : BitVec 2) (p : Bool)
  /-- `REQ.DP.W`, rule R62 -/
  | reqDpW (a : BitVec 2) (p : Bool)
  /-- `REQ.AP.W`, rule R62 -/
  | reqApW (a : BitVec 2) (p : Bool)
  /-- `REQ.DP.R`, rule R62 -/
  | reqDpR (a : BitVec 2) (p : Bool)
  /-- `REQ.AP.R`, rule R62 -/
  | reqApR (a : BitVec 2) (p : Bool)
  /-- `ACKTX5`, rule R71 -/
  | ackTx5
  /-- `ACK5`, rule R65: `t` = turnaround sample, `a` = ACK code, `d` = bit 4 -/
  | ack5 (t : Bool) (a : BitVec 3) (d : Bool)
  /-- `ACK.OK`, rule R66 -/
  | ackOk (t d : Bool)
  /-- `ACK.WAIT`, rule R66 -/
  | ackWait (t d : Bool)
  /-- `ACK.FAULT`, rule R66 -/
  | ackFault (t d : Bool)
  /-- `RD1`, rule R67: read data bits 12:1 -/
  | rd1 (d : BitVec 12)
  /-- `RD2`, rule R67: read data bits 25:13 -/
  | rd2 (d : BitVec 13)
  /-- `RD3`, rule R67: read data bits 31:26, parity, turnaround sample -/
  | rd3 (d : BitVec 6) (p t : Bool)
  /-- `CLK0.12`, rule R71 -/
  | clk0w12
  /-- `CLK0.13`, rule R71 -/
  | clk0w13
  /-- `CLK0.8`, rule R71 -/
  | clk0w8
  /-- `WD1`, rule R69: write data bits 12:0 -/
  | wd1 (d : BitVec 13)
  /-- `WD2`, rule R69: write data bits 25:13 -/
  | wd2 (d : BitVec 13)
  /-- `WD3`, rule R69: write data bits 31:26 and parity; bit 7 is a driven 0 -/
  | wd3 (d : BitVec 6) (p : Bool)
  /-- `RST16`, rule R70 -/
  | rst16
  -- stored words and codes
  /-- `H32`, rule R73: the header word `h` of buffer `i` (the table gives the index no bits; it is an operand byte) -/
  | h32 (i : BufIdx) (h : Word32)
  /-- `PHASE.REQUEST`, rule R11 -/
  | phaseRequest
  /-- `PHASE.ACK`, rule R11 -/
  | phaseAck
  /-- `PHASE.WRITE_DATA1`, rule R11 -/
  | phaseWriteData1
  /-- `PHASE.WRITE_DATA2`, rule R11 -/
  | phaseWriteData2
  /-- `PHASE.WRITE_DATA3`, rule R11 -/
  | phaseWriteData3
  /-- `PHASE.READ_DATA1`, rule R11 -/
  | phaseReadData1
  /-- `PHASE.READ_DATA2`, rule R11 -/
  | phaseReadData2
  /-- `PHASE.READ_DATA3`, rule R11 -/
  | phaseReadData3
  /-- `PHASE.RESET`, rule R11 -/
  | phaseReset
  /-- `RES.SUCCESS`, rule R75, for buffer `i` (operand byte) -/
  | resSuccess (i : BufIdx)
  /-- `RES.PARITY_ERROR`, rule R75, for buffer `i` (operand byte) -/
  | resParityError (i : BufIdx)
  /-- `POPST.EMPTY`, rule R77 -/
  | popstEmpty
  /-- `POPST.NEXT_ARMED`, rule R77 -/
  | popstNextArmed
  /-- `POPST.NEXT_WITHHELD`, rule R77 -/
  | popstNextWithheld
  /-- `ST.READY`, rule R23, for buffer `i` (operand byte) -/
  | stReady (i : BufIdx)
  /-- `ST.BUSY`, rule R23, for buffer `i` (operand byte) -/
  | stBusy (i : BufIdx)
  /-- `PIN.IN`, rule R32 -/
  | pinIn
  /-- `PIN.OUT`, rule R32 -/
  | pinOut
  -- micro-operations and marshaller primitives, format CALL (rule R80)
  /-- `ARM(i)`, rule R94 -/
  | arm (i : BufIdx)
  /-- `COMPLETE(i)`, rule R95 -/
  | complete (i : BufIdx)
  /-- `PUSH(i)`, rule R111 -/
  | push (i : BufIdx)
  /-- `REMOVE(i, allow)`, rule R112 -/
  | remove (i : BufIdx) (allow : Bool)
  /-- `POP()`, rule R113 -/
  | pop
  /-- `VISITFIRST(f)`, rule R114 -/
  | visitFirst (f : VisitOp)
  /-- `FINISH`, rule R136 -/
  | finish
  /-- `STARTRESET`, rule R152 -/
  | startReset
  /-- `SetFW(w)`, rule R166. The spec gives the operand no width: that it is a word of 32 bits, all of a slot's word, is DESIGN
  CHOICE (log entry 27). -/
  | setFW (w : Word32)
  /-- `WriteTX(v)`, rule R167 -/
  | writeTX (v : Word32)
  /-- `ReadRX()`, rule R168 -/
  | readRX
  /-- `SetPin(d)`, rule R169 -/
  | setPin (d : Pin)
deriving DecidableEq, Repr

end Sys2Proof
end

