-- ==== Sys2Proof/WellFormed.lean ====
section
/-!
DEFINITION. Which operations are well formed as syntax. Operand ranges are in the types; what is left to check is that a
request frame carries the parity of its own variable bits (rules R61, R63). An index at or above NBUF, an illegal frame width
and the flag `allow` of `REMOVE` are no matter of syntax: the step refuses or faults (rules R78, R112, R166).
-/

namespace Sys2Proof

/-- Well-formedness of an operation. -/
def Instr.wellFormed : Instr → Bool
  | .startW _ | .startR _ | .cancel _ | .reset => true
  | .irqRequest _ | .irqAckR | .irqAckW | .irqWriteData1 _ | .irqWriteData2 _ | .irqWriteData3 _
  | .irqReadData1 _ | .irqReadData2 _ | .irqReadData3 _ | .irqReset _ => true
  | .irqEntry | .bit => true
  | .req8 n r a p => p == reqParity n r a
  | .reqDpW a p => p == reqParity false false a
  | .reqApW a p => p == reqParity true false a
  | .reqDpR a p => p == reqParity false true a
  | .reqApR a p => p == reqParity true true a
  | .ackTx5 | .ack5 _ _ _ | .ackOk _ _ | .ackWait _ _ | .ackFault _ _ => true
  | .rd1 _ | .rd2 _ | .rd3 _ _ _ | .clk0w12 | .clk0w13 | .clk0w8 => true
  | .wd1 _ | .wd2 _ | .wd3 _ _ | .rst16 => true
  | .h32 _ _ => true
  | .phaseRequest | .phaseAck | .phaseWriteData1 | .phaseWriteData2 | .phaseWriteData3
  | .phaseReadData1 | .phaseReadData2 | .phaseReadData3 | .phaseReset => true
  | .resSuccess _ | .resParityError _ | .popstEmpty | .popstNextArmed | .popstNextWithheld => true
  | .stReady _ | .stBusy _ | .pinIn | .pinOut => true
  | .arm _ | .complete _ | .push _ | .remove _ _ | .pop | .visitFirst _ | .finish | .startReset => true
  | .setFW _ | .writeTX _ | .readRX | .setPin _ => true

end Sys2Proof
end

