-- ==== Sys2Proof/Decode.lean ====
section
/-!
DEFINITION. Codes, frame words, the decoder and the encoder (30_encoding.md and the code tables of 10_state.md).

The spec's formats are separate code spaces: the same bits are a command word in one place and a phase code in another
(rule R80: a frame "means what follows from where it stands"). A placed operation therefore carries its format beside its bits,
and the operands to which the table gives no bits (log entries 7 and 8): a `Slot`.
-/

namespace Sys2Proof

/-! ### Codes -/

/-- Codes of `DIR` and `OP[i]`: 1 = read, 0 = write (rules R13, R22). -/
def Dir.bit : Dir → Bool
  | .read => true
  | .write => false

/-- The direction an `RnW` bit stands for (rule R73). -/
def Dir.ofBit : Bool → Dir
  | true => .read
  | false => .write

/-- Codes of `PIN`: 0 = IN, 1 = OUT (rule R32); the code is also the `oe` of a bit cycle (rule R171). -/
def Pin.code : Pin → Bool
  | .output => true
  | .input => false

/-- The pin direction of a code. -/
def Pin.ofCode : Bool → Pin
  | true => .output
  | false => .input

/-- Codes of `ST[i]` (rule R23). -/
def Life.code : Life → Bool
  | .busy => true
  | .ready => false

/-- Codes of `RES[i]` (rule R75). -/
def Result.code : Result → Bool
  | .parityError => true
  | .success => false

/-- Codes of the pop status (rule R77). -/
def PopStatus.code : PopStatus → BitVec 2
  | .empty => 0#2
  | .nextArmed => 1#2
  | .nextWithheld => 2#2

/-- Codes of `PHASE` (rule R11). -/
def Phase.code : Phase → BitVec 4
  | .request => 0#4
  | .ack => 1#4
  | .writeData1 => 2#4
  | .writeData2 => 3#4
  | .writeData3 => 4#4
  | .readData1 => 5#4
  | .readData2 => 6#4
  | .readData3 => 7#4
  | .reset => 8#4

/-- The phase of a code; codes 9 to 15 name none (rules R11, R78). -/
def Phase.ofCode (c : BitVec 4) : Option Phase :=
  match c.toNat with
  | 0 => some .request
  | 1 => some .ack
  | 2 => some .writeData1
  | 3 => some .writeData2
  | 4 => some .writeData3
  | 5 => some .readData1
  | 6 => some .readData2
  | 7 => some .readData3
  | 8 => some .reset
  | _ => none

/-- Number of bits of a frame width. -/
def FrameWidth.bits : FrameWidth → Nat
  | .w5 => 5
  | .w8 => 8
  | .w12 => 12
  | .w13 => 13
  | .w16 => 16

/-- The legal width of a number of bits; every other number is illegal (rules R78, R166). -/
def FrameWidth.ofBits (n : Nat) : Option FrameWidth :=
  match n with
  | 5 => some .w5
  | 8 => some .w8
  | 12 => some .w12
  | 13 => some .w13
  | 16 => some .w16
  | _ => none

/-- The entry that the dispatch key `{DIR, PHASE}` selects (rule R74): only `ACK` looks at `DIR`, and codes 9 to 15 select none. -/
def Entry.ofKey (d : Bool) (c : BitVec 4) : Option Entry :=
  match Phase.ofCode c with
  | some .request => some .request
  | some .ack => some (if d then .ackR else .ackW)
  | some .writeData1 => some .writeData1
  | some .writeData2 => some .writeData2
  | some .writeData3 => some .writeData3
  | some .readData1 => some .readData1
  | some .readData2 => some .readData2
  | some .readData3 => some .readData3
  | some .reset => some .reset
  | none => none

/-- The row of an entry; `d` is the key's bit 4. -/
def Entry.instr (d : Bool) : Entry → Instr
  | .request => .irqRequest d
  | .ackR => .irqAckR
  | .ackW => .irqAckW
  | .writeData1 => .irqWriteData1 d
  | .writeData2 => .irqWriteData2 d
  | .writeData3 => .irqWriteData3 d
  | .readData1 => .irqReadData1 d
  | .readData2 => .irqReadData2 d
  | .readData3 => .irqReadData3 d
  | .reset => .irqReset d

/-! ### Frame words, bit 0 first on the wire -/

/-- `REQ8`, pattern `10paarn1` (rule R61). -/
def reqWord (n r : Bool) (a : BitVec 2) (p : Bool) : BitVec 8 :=
  0b10#2 ++ BitVec.ofBool p ++ a ++ BitVec.ofBool r ++ BitVec.ofBool n ++ 1#1

/-- Assembly of the request byte from the nibble `H[3:0]` (rule R62). -/
def reqByte (n : BitVec 4) : BitVec 8 :=
  0x81#8 ||| (n.setWidth 8 <<< 1) ||| ((BitVec.ofBool (xorfold n)).setWidth 8 <<< 5)

/-- `ACK5`, pattern `daaat` (rule R65). -/
def ackWord (t : Bool) (a : BitVec 3) (d : Bool) : BitVec 5 :=
  BitVec.ofBool d ++ a ++ BitVec.ofBool t

/-- `RD3`, pattern `tpdddddd` (rule R67). -/
def rd3Word (d : BitVec 6) (p t : Bool) : BitVec 8 :=
  BitVec.ofBool t ++ BitVec.ofBool p ++ d

/-- `WD3`, pattern `0pdddddd` (rule R69). -/
def wd3Word (d : BitVec 6) (p : Bool) : BitVec 8 :=
  0#1 ++ BitVec.ofBool p ++ d

/-- The SWD names of acknowledge codes (rule R66). -/
def ackCodeWait : BitVec 3 := 0b010#3

/-- The SWD FAULT response (rule R66). -/
def ackCodeFault : BitVec 3 := 0b100#3

/-- `CMD8`, `iiiiiioo` (rule R76). -/
def cmdWord (i : BufIdx) (oo : Nat) : Word32 := BitVec.ofNat 32 (i.val * 4 + oo)

/-- `IRQKEY5`, `{DIR, PHASE}` (rule R74). -/
def keyWord (d : Bool) (p : Phase) : BitVec 5 := BitVec.ofBool d ++ p.code

/-! ### Slots -/

/-- The formats of spec/opcode_table.json. `REQ8` and `ACK5` stand twice, because the table has rows for the frame as such and
rows for the frames a reader tells apart by their bits (`req`: rule R80; `ack`: rule R66); a CALL is selected by name
(rule R80), so each is a format of its own. -/
inductive Format where
  | cmd8 | irqKey5 | guard2 | guard1
  | req8 | req | ackTx5 | ack5 | ack | rd1 | rd2 | rd3 | clk0 | wd1 | wd2 | wd3 | rst16
  | h32 | phase4 | res1 | popst | st1 | pin1
  | arm | complete | push | remove | pop | visitFirst | finish | startReset
  | setFW | writeTX | readRX | setPin
deriving DecidableEq, Repr

/-- An operation as it is placed: its format, the table's bits, and an operand byte for a buffer index to which the table
gives no bits (`CLK0`: the width of the frame). -/
structure Slot where
  word : Word32
  oper : Byte
  fmt : Format
deriving DecidableEq, Repr

/-- Why bits are no operation. -/
inductive DecodeError where
  /-- fewer than the six bytes of a slot -/
  | truncated
  /-- the format byte names no format -/
  | unknownFormat
  /-- a bit that the format does not have is 1 -/
  | strayBits
  /-- `CMD8` with `oo = 11` and index bits not 0 (rule R78) -/
  | reservedCommand
  /-- `PHASE` code 9 to 15, as a key or as a stored code (rule R78) -/
  | reservedPhase
  /-- pop status code 3 (rule R78) -/
  | reservedPopStatus
  /-- a guard word whose agent has no step (rules R125, R171) -/
  | guardFalse
  /-- a fixed bit of a frame has the wrong value (rules R61, R69, R70, R71) -/
  | fixedBits
  /-- a request byte whose parity bit is wrong (rules R61, R63) -/
  | badParity
  /-- an acknowledge code that has no name (rule R66) -/
  | unnamedAck
  /-- an operand byte that is no buffer index, no width of a clock-only frame -/
  | badOperand
deriving DecidableEq, Repr

/-- `w` has no 1 at or above bit `n`. -/
def fits (n : Nat) (w : Word32) : Bool := w.toNat < 2 ^ n

/-- The buffer index of an operand byte. -/
def operIdx (b : Byte) : Option BufIdx :=
  if h : b.toNat < 64 then some ⟨b.toNat, h⟩ else none

/-- The index bits 7:2 of a command word (rule R76). -/
def cmdIdx (w : Word32) : BufIdx := Fin.ofNat 64 (w.toNat / 4)

/-- A row whose word is one constant. -/
def decodeConst (w k : Word32) (e : DecodeError) (i : Instr) : Except DecodeError Instr :=
  if w = k then .ok i else .error e

/-- A row whose operand is a buffer index in the operand byte, and whose bits are all 0. -/
def decodeIdx (w : Slot) (f : BufIdx → Instr) : Except DecodeError Instr :=
  if w.word = 0#32 then
    match operIdx w.oper with
    | some i => .ok (f i)
    | none => .error .badOperand
  else .error .strayBits

/-- A row with a code of one bit for a buffer. -/
def decodeBit (w : Slot) (f0 f1 : BufIdx → Instr) : Except DecodeError Instr :=
  match operIdx w.oper with
  | none => .error .badOperand
  | some i => if w.word = 0#32 then .ok (f0 i) else if w.word = 1#32 then .ok (f1 i) else .error .strayBits

/-- A row without an operand byte. -/
def decodeNoOper (w : Slot) (d : Except DecodeError Instr) : Except DecodeError Instr :=
  if w.oper = 0#8 then d else .error .badOperand

/-- `CMD8` (rules R76, R78). -/
def decodeCmd8 (w : Word32) : Except DecodeError Instr :=
  if fits 8 w then
    match w.toNat % 4 with
    | 0 => .ok (.startW (cmdIdx w))
    | 1 => .ok (.startR (cmdIdx w))
    | 2 => .ok (.cancel (cmdIdx w))
    | _ => if w.toNat / 4 = 0 then .ok .reset else .error .reservedCommand
  else .error .strayBits

/-- `IRQKEY5` (rules R74, R78). -/
def decodeKey5 (w : Word32) : Except DecodeError Instr :=
  if fits 5 w then
    match Entry.ofKey (w.getLsbD 4) (w.extractLsb' 0 4) with
    | some e => .ok (e.instr (w.getLsbD 4))
    | none => .error .reservedPhase
  else .error .strayBits

/-- The fixed bits of a request byte are right (rule R61): start 1, stop 0, park 1. -/
def reqFixed (w : Word32) : Bool := w.getLsbD 0 && !w.getLsbD 6 && w.getLsbD 7

/-- A request byte, read as rule R80 says: bits 0, 6, 7 and the parity bit are checked, then the fields are taken. -/
def decodeReq (w : Word32) (f : Bool → Bool → BitVec 2 → Bool → Instr) : Except DecodeError Instr :=
  if fits 8 w then
    if reqFixed w then
      if w.getLsbD 5 == reqParity (w.getLsbD 1) (w.getLsbD 2) (w.extractLsb' 3 2) then
        .ok (f (w.getLsbD 1) (w.getLsbD 2) (w.extractLsb' 3 2) (w.getLsbD 5))
      else .error .badParity
    else .error .fixedBits
  else .error .strayBits

/-- The row that bits 1 and 2 of a request byte select (rule R80). -/
def namedReq (n r : Bool) (a : BitVec 2) (p : Bool) : Instr :=
  match n, r with
  | false, false => .reqDpW a p
  | true, false => .reqApW a p
  | false, true => .reqDpR a p
  | true, true => .reqApR a p

/-- The named acknowledge words (rule R66). -/
def decodeAck (w : Word32) : Except DecodeError Instr :=
  if fits 5 w then
    if w.extractLsb' 1 3 = Config.ackOk then .ok (.ackOk (w.getLsbD 0) (w.getLsbD 4))
    else if w.extractLsb' 1 3 = ackCodeWait then .ok (.ackWait (w.getLsbD 0) (w.getLsbD 4))
    else if w.extractLsb' 1 3 = ackCodeFault then .ok (.ackFault (w.getLsbD 0) (w.getLsbD 4))
    else .error .unnamedAck
  else .error .strayBits

/-- The clock-only frames (rule R71); the operand byte is the width. -/
def decodeClk0 (w : Slot) : Except DecodeError Instr :=
  if w.word = 0#32 then
    match w.oper.toNat with
    | 12 => .ok .clk0w12
    | 13 => .ok .clk0w13
    | 8 => .ok .clk0w8
    | _ => .error .badOperand
  else .error .fixedBits

/-- `PHASE4` (rules R11, R78). -/
def decodePhase (w : Word32) : Except DecodeError Instr :=
  if fits 4 w then
    match Phase.ofCode (w.extractLsb' 0 4) with
    | some .request => .ok .phaseRequest
    | some .ack => .ok .phaseAck
    | some .writeData1 => .ok .phaseWriteData1
    | some .writeData2 => .ok .phaseWriteData2
    | some .writeData3 => .ok .phaseWriteData3
    | some .readData1 => .ok .phaseReadData1
    | some .readData2 => .ok .phaseReadData2
    | some .readData3 => .ok .phaseReadData3
    | some .reset => .ok .phaseReset
    | none => .error .reservedPhase
  else .error .strayBits

/-- `POPST` (rules R77, R78). -/
def decodePopst (w : Word32) : Except DecodeError Instr :=
  match w.toNat with
  | 0 => .ok .popstEmpty
  | 1 => .ok .popstNextArmed
  | 2 => .ok .popstNextWithheld
  | 3 => .error .reservedPopStatus
  | _ => .error .strayBits

/-- The decoder, total on every slot. -/
def decode (w : Slot) : Except DecodeError Instr :=
  match w.fmt with
  | .cmd8 => decodeNoOper w (decodeCmd8 w.word)
  | .irqKey5 => decodeNoOper w (decodeKey5 w.word)
  | .guard2 => decodeNoOper w (decodeConst w.word 2#32 .guardFalse .irqEntry)
  | .guard1 => decodeNoOper w (decodeConst w.word 1#32 .guardFalse .bit)
  | .req8 => decodeNoOper w (decodeReq w.word .req8)
  | .req => decodeNoOper w (decodeReq w.word namedReq)
  | .ackTx5 => decodeNoOper w (decodeConst w.word 0#32 .fixedBits .ackTx5)
  | .ack5 => decodeNoOper w (if fits 5 w.word then
      .ok (.ack5 (w.word.getLsbD 0) (w.word.extractLsb' 1 3) (w.word.getLsbD 4)) else .error .strayBits)
  | .ack => decodeNoOper w (decodeAck w.word)
  | .rd1 => decodeNoOper w (if fits 12 w.word then .ok (.rd1 (w.word.setWidth 12)) else .error .strayBits)
  | .rd2 => decodeNoOper w (if fits 13 w.word then .ok (.rd2 (w.word.setWidth 13)) else .error .strayBits)
  | .rd3 => decodeNoOper w (if fits 8 w.word then
      .ok (.rd3 (w.word.extractLsb' 0 6) (w.word.getLsbD 6) (w.word.getLsbD 7)) else .error .strayBits)
  | .clk0 => decodeClk0 w
  | .wd1 => decodeNoOper w (if fits 13 w.word then .ok (.wd1 (w.word.setWidth 13)) else .error .strayBits)
  | .wd2 => decodeNoOper w (if fits 13 w.word then .ok (.wd2 (w.word.setWidth 13)) else .error .strayBits)
  | .wd3 => decodeNoOper w (if fits 8 w.word then
      if w.word.getLsbD 7 then .error .fixedBits
      else .ok (.wd3 (w.word.extractLsb' 0 6) (w.word.getLsbD 6)) else .error .strayBits)
  | .rst16 => decodeNoOper w (decodeConst w.word 0xFFFF#32 .fixedBits .rst16)
  | .h32 =>
    match operIdx w.oper with
    | some i => .ok (.h32 i w.word)
    | none => .error .badOperand
  | .phase4 => decodeNoOper w (decodePhase w.word)
  | .res1 => decodeBit w .resSuccess .resParityError
  | .popst => decodeNoOper w (decodePopst w.word)
  | .st1 => decodeBit w .stReady .stBusy
  | .pin1 => decodeNoOper w
      (if w.word = 0#32 then .ok .pinIn else if w.word = 1#32 then .ok .pinOut else .error .strayBits)
  | .arm => decodeIdx w .arm
  | .complete => decodeIdx w .complete
  | .push => decodeIdx w .push
  | .remove => decodeBit w (.remove · false) (.remove · true)
  | .pop => decodeNoOper w (decodeConst w.word 0#32 .strayBits .pop)
  | .visitFirst => decodeNoOper w (if w.word = 0#32 then .ok (.visitFirst .arm)
      else if w.word = 1#32 then .ok (.visitFirst .complete) else .error .strayBits)
  | .finish => decodeNoOper w (decodeConst w.word 0#32 .strayBits .finish)
  | .startReset => decodeNoOper w (decodeConst w.word 0#32 .strayBits .startReset)
  | .setFW => decodeNoOper w (.ok (.setFW w.word))
  | .writeTX => decodeNoOper w (.ok (.writeTX w.word))
  | .readRX => decodeNoOper w (decodeConst w.word 0#32 .strayBits .readRX)
  | .setPin => decodeNoOper w (if w.word = 0#32 then .ok (.setPin .input)
      else if w.word = 1#32 then .ok (.setPin .output) else .error .strayBits)

/-! ### The encoder -/

/-- A slot whose bits are a word of any width and that has no operand byte. -/
def slotOf {n : Nat} (f : Format) (w : BitVec n) : Slot := { word := w.setWidth 32, oper := 0#8, fmt := f }

/-- A slot with a buffer index in the operand byte. -/
def slotAt (f : Format) (i : BufIdx) (w : Word32) : Slot := { word := w, oper := BitVec.ofNat 8 i.val, fmt := f }

/-- The slot of an operation, from the spec's encoding tables. -/
def encode : Instr → Slot
  | .startW i => slotOf .cmd8 (cmdWord i 0)
  | .startR i => slotOf .cmd8 (cmdWord i 1)
  | .cancel i => slotOf .cmd8 (cmdWord i 2)
  | .reset => slotOf .cmd8 0x03#8
  | .irqRequest d => slotOf .irqKey5 (keyWord d .request)
  | .irqAckR => slotOf .irqKey5 (keyWord true .ack)
  | .irqAckW => slotOf .irqKey5 (keyWord false .ack)
  | .irqWriteData1 d => slotOf .irqKey5 (keyWord d .writeData1)
  | .irqWriteData2 d => slotOf .irqKey5 (keyWord d .writeData2)
  | .irqWriteData3 d => slotOf .irqKey5 (keyWord d .writeData3)
  | .irqReadData1 d => slotOf .irqKey5 (keyWord d .readData1)
  | .irqReadData2 d => slotOf .irqKey5 (keyWord d .readData2)
  | .irqReadData3 d => slotOf .irqKey5 (keyWord d .readData3)
  | .irqReset d => slotOf .irqKey5 (keyWord d .reset)
  | .irqEntry => slotOf .guard2 0b10#2
  | .bit => slotOf .guard1 1#1
  | .req8 n r a p => slotOf .req8 (reqWord n r a p)
  | .reqDpW a p => slotOf .req (reqWord false false a p)
  | .reqApW a p => slotOf .req (reqWord true false a p)
  | .reqDpR a p => slotOf .req (reqWord false true a p)
  | .reqApR a p => slotOf .req (reqWord true true a p)
  | .ackTx5 => slotOf .ackTx5 0b00000#5
  | .ack5 t a d => slotOf .ack5 (ackWord t a d)
  | .ackOk t d => slotOf .ack (ackWord t Config.ackOk d)
  | .ackWait t d => slotOf .ack (ackWord t ackCodeWait d)
  | .ackFault t d => slotOf .ack (ackWord t ackCodeFault d)
  | .rd1 d => slotOf .rd1 d
  | .rd2 d => slotOf .rd2 d
  | .rd3 d p t => slotOf .rd3 (rd3Word d p t)
  | .clk0w12 => { word := 0#32, oper := 12#8, fmt := .clk0 }
  | .clk0w13 => { word := 0#32, oper := 13#8, fmt := .clk0 }
  | .clk0w8 => { word := 0#32, oper := 8#8, fmt := .clk0 }
  | .wd1 d => slotOf .wd1 d
  | .wd2 d => slotOf .wd2 d
  | .wd3 d p => slotOf .wd3 (wd3Word d p)
  | .rst16 => slotOf .rst16 0xFFFF#16
  | .h32 i h => slotAt .h32 i h
  | .phaseRequest => slotOf .phase4 Phase.request.code
  | .phaseAck => slotOf .phase4 Phase.ack.code
  | .phaseWriteData1 => slotOf .phase4 Phase.writeData1.code
  | .phaseWriteData2 => slotOf .phase4 Phase.writeData2.code
  | .phaseWriteData3 => slotOf .phase4 Phase.writeData3.code
  | .phaseReadData1 => slotOf .phase4 Phase.readData1.code
  | .phaseReadData2 => slotOf .phase4 Phase.readData2.code
  | .phaseReadData3 => slotOf .phase4 Phase.readData3.code
  | .phaseReset => slotOf .phase4 Phase.reset.code
  | .resSuccess i => slotAt .res1 i 0#32
  | .resParityError i => slotAt .res1 i 1#32
  | .popstEmpty => slotOf .popst PopStatus.empty.code
  | .popstNextArmed => slotOf .popst PopStatus.nextArmed.code
  | .popstNextWithheld => slotOf .popst PopStatus.nextWithheld.code
  | .stReady i => slotAt .st1 i 0#32
  | .stBusy i => slotAt .st1 i 1#32
  | .pinIn => slotOf .pin1 0#1
  | .pinOut => slotOf .pin1 1#1
  | .arm i => slotAt .arm i 0#32
  | .complete i => slotAt .complete i 0#32
  | .push i => slotAt .push i 0#32
  | .remove i allow => slotAt .remove i (if allow then 1#32 else 0#32)
  | .pop => slotOf .pop 0#32
  | .visitFirst .arm => slotOf .visitFirst 0#32
  | .visitFirst .complete => slotOf .visitFirst 1#32
  | .finish => slotOf .finish 0#32
  | .startReset => slotOf .startReset 0#32
  | .setFW w => slotOf .setFW w
  | .writeTX v => slotOf .writeTX v
  | .readRX => slotOf .readRX 0#32
  | .setPin d => slotOf .setPin (BitVec.ofBool d.code)

/-! ### Bytes -/

/-- The format byte of a slot; code 0 is the command word (log entry 7). -/
def Format.code : Format → Nat
  | .cmd8 => 0 | .irqKey5 => 1 | .guard2 => 2 | .guard1 => 3
  | .req8 => 4 | .req => 5 | .ackTx5 => 6 | .ack5 => 7 | .ack => 8 | .rd1 => 9 | .rd2 => 10 | .rd3 => 11
  | .clk0 => 12 | .wd1 => 13 | .wd2 => 14 | .wd3 => 15 | .rst16 => 16
  | .h32 => 17 | .phase4 => 18 | .res1 => 19 | .popst => 20 | .st1 => 21 | .pin1 => 22
  | .arm => 32 | .complete => 33 | .push => 34 | .remove => 35 | .pop => 36 | .visitFirst => 37
  | .finish => 38 | .startReset => 39 | .setFW => 40 | .writeTX => 41 | .readRX => 42 | .setPin => 43

/-- Every format. -/
def Format.all : List Format :=
  [.cmd8, .irqKey5, .guard2, .guard1, .req8, .req, .ackTx5, .ack5, .ack, .rd1, .rd2, .rd3, .clk0, .wd1, .wd2, .wd3, .rst16,
   .h32, .phase4, .res1, .popst, .st1, .pin1] ++
  [.arm, .complete, .push, .remove, .pop, .visitFirst, .finish, .startReset, .setFW, .writeTX, .readRX, .setPin]

/-- The format of a format byte. -/
def Format.ofCode (n : Nat) : Option Format := Format.all.find? (fun f => f.code == n)

/-- A slot as six bytes: the word little-endian, the operand byte, the format byte (log entry 7). -/
def Slot.toBytes (w : Slot) : List Byte :=
  [w.word.extractLsb' 0 8, w.word.extractLsb' 8 8, w.word.extractLsb' 16 8, w.word.extractLsb' 24 8, w.oper,
   BitVec.ofNat 8 w.fmt.code]

/-- Read one slot from bytes, and give back the rest. -/
def Slot.ofBytes : List Byte → Except DecodeError (Slot × List Byte)
  | b0 :: b1 :: b2 :: b3 :: o :: f :: rest =>
    match Format.ofCode f.toNat with
    | some fmt => .ok ({ word := b3 ++ b2 ++ b1 ++ b0, oper := o, fmt := fmt }, rest)
    | none => .error .unknownFormat
  | _ => .error .truncated

/-- The decoder over bytes, total on every list of bytes. -/
def decodeBytes (bs : List Byte) : Except DecodeError (Instr × List Byte) :=
  match Slot.ofBytes bs with
  | .error e => .error e
  | .ok (w, rest) =>
    match decode w with
    | .error e => .error e
    | .ok i => .ok (i, rest)

/-- The format of a bare word `w` of `n` bits: the first format of spec/opcode_table.json that is `n` bits wide, or that fills
`n` bits in whole bytes; of the formats in two bytes, the first whose width holds the word (log entry 8). -/
def bareFormat (n w : Nat) : Option Format :=
  match n with
  | 1 => some .guard1
  | 2 => some .guard2
  | 4 => some .phase4
  | 5 => some .irqKey5
  | 8 => some .cmd8
  | 12 => some .rd1
  | 13 => some .rd2
  | 16 => if w < 2 ^ 12 then some .rd1 else if w < 2 ^ 13 then some .rd2 else some .rst16
  | 32 => some .h32
  | _ => none

/-- The slot of a bare table word: the table's bits under the format of their number, operand byte 0; a word of 48 bits is a
whole slot, its bytes numbered as `Slot.toBytes` lays them out. -/
def bareSlot (nbits w : Nat) : Option Slot :=
  if nbits = 48 then
    (Format.ofCode (w / 2 ^ 40 % 256)).map fun f =>
      { word := BitVec.ofNat 32 w, oper := BitVec.ofNat 8 (w / 2 ^ 32), fmt := f }
  else
    (bareFormat nbits (w % 2 ^ nbits)).map fun f => { word := BitVec.ofNat 32 (w % 2 ^ nbits), oper := 0#8, fmt := f }

/-- The operation the decoder reads from a bare word of `nbits` bits of spec/opcode_table.json (log entry 8). -/
def decodeTableWord (nbits w : Nat) : Option Instr :=
  match bareSlot nbits w with
  | none => none
  | some s =>
    match decode s with
    | .ok i => some i
    | .error _ => none

end Sys2Proof
end

