-- ==== Sys2Proof/Machine/State.lean ====
section
/-!
DEFINITION. The state of the block (rule R10 of 10_state.md), the model's own fields beside it, the reasons a step stops, and
the state after block reset (rules R37, R210).
-/

namespace Sys2Proof.Machine

/-- Buffer memory: pairs of address and byte, addresses strictly rising, no pair holding what an unlisted address reads as. -/
abbrev Memory := List Host.Cell

/-- What an address that nothing has written reads as. DESIGN CHOICE (log entry 3): the spec gives header and payload no
value at block reset. -/
def Memory.unlisted : Byte := 0#8

/-- The canonical form of a memory. -/
abbrev Memory.wf (m : Memory) : Prop :=
  m.Pairwise (fun c d => c.1 < d.1) ∧ ∀ c ∈ m, c.2 ≠ Memory.unlisted

/-- The one-bit registers of one Transfer Buffer: `OP[i]`, `ST[i]`, `RES[i]` (rules R22, R23, R24). Its header and payload are
buffer memory (rules R20, R21). -/
structure BufRegs where
  op : Dir
  st : Life
  res : Result
deriving DecidableEq, Repr

/-- What the last operation that returns something returned: a host command, a query, a read by `Caller`, a micro-operation. -/
inductive Ret where
  /-- it returned nothing, or no operation has run yet -/
  | nothing
  /-- the Boolean of a host command, of `ready(i)`, of `PUSH` and `REMOVE` -/
  | bool (b : Bool)
  /-- `result(i)` -/
  | result (r : Result)
  /-- `RPAR`, read by `Caller` (rule R38) -/
  | parity (b : Bool)
  /-- a byte of buffer memory, read by `Caller` -/
  | byte (b : Byte)
  /-- the status of `POP` -/
  | popStatus (p : PopStatus)
  /-- the word of `ReadRX` -/
  | rx (v : BitVec 16)
deriving DecidableEq, Repr

/-- One entry of the script: what is to happen next (log entry 1). -/
inductive Input where
  /-- an operation of spec/opcode_table.json, as a slot of bits -/
  | op (w : Slot)
  /-- `Caller` writes one byte of buffer memory (rules R44, R52); a group of bytes is as many entries, DESIGN CHOICE (log entry 28) -/
  | callerWrite (a : Nat) (b : Byte)
  /-- `Caller` reads one byte of buffer memory (rules R44, R52); a group of bytes is as many entries (log entry 28) -/
  | callerRead (a : Nat)
  /-- `ready(i)` (rule R97) -/
  | queryReady (i : BufIdx)
  /-- `result(i)` (rule R97) -/
  | queryResult (i : BufIdx)
  /-- `Caller` reads `RPAR` (rules R18, R38) -/
  | queryParity
deriving DecidableEq, Repr

/-- The state of the block. -/
structure State where
  /-- `PHASE`, the program counter; a code of 4 bits (rule R11) -/
  phase : BitVec 4
  /-- `ACC`, the accumulator (rule R12) -/
  acc : Word32
  /-- `DIR`, direction of the active transfer (rule R13) -/
  dir : Dir
  /-- `PRST`, a line reset is pending or running (rule R14) -/
  prst : Bool
  /-- `RCNT`, line-reset words still to be completed (rule R15) -/
  rcnt : BitVec 2
  /-- `ARMED`, the head has hardware traffic in flight (rule R16) -/
  armed : Bool
  /-- `ACKR`, latched acknowledge code (rule R17) -/
  ackr : BitVec 3
  /-- `RPAR`, parity bit received with the last read (rule R18) -/
  rpar : Bool
  /-- `Q`, the transfer queue, head first (rule R19) -/
  q : List BufIdx
  /-- header and payload bytes of every buffer (rules R20, R21, R41) -/
  mem : Memory
  /-- `OP[i]`, `ST[i]`, `RES[i]` (rules R22 to R24); entries at and above NBUF belong to no buffer -/
  bufs : Vector BufRegs 64
  /-- `FW`, the current frame width (rule R25) -/
  fw : FrameWidth
  /-- `TXR`, the transmit register (rule R26) -/
  txr : BitVec 16
  /-- `RXR`, the receive register (rule R27) -/
  rxr : BitVec 16
  /-- `RXSH`, the receive shift register (rule R27) -/
  rxsh : BitVec 16
  /-- `XBUSY`, an exchange is in flight (rule R28) -/
  xbusy : Bool
  /-- `XCNT`, bit cycles of the exchange already done (rule R28) -/
  xcnt : BitVec 5
  /-- `IRQP`, receive-complete flag, the pending interrupt (rule R29) -/
  irqp : Bool
  /-- `IMASK`, the interrupt is masked (rule R30) -/
  imask : Bool
  /-- `PIN`, direction of the data pin (rule R32) -/
  pin : Pin
  /-- `EVT`, events emitted so far, oldest first (rule R31) -/
  evt : List Event
  /-- `WIRE`, bit cycles done so far, oldest first (rule R31) -/
  wire : List WireCycle
  /-- the model's own: the parameters NBUF and PAYCAP of rule R4, which no step changes -/
  cfg : Params
  /-- the model's own: what the environment has placed to happen next (log entry 1) -/
  script : List Input
  /-- the model's own: the bits the target will answer next; when it is empty the oracle answers (log entry 5) -/
  target : List Bool
  /-- the model's own: how many bits have been drawn, the argument of the next free value (log entry 4) -/
  draws : Nat
  /-- the model's own: what the last operation returned (log entry 9) -/
  ret : Ret
deriving DecidableEq, Repr

/-- Why a step ends in a fault: the assertions of rule R188, and an access outside buffer memory. A fault is the error outcome
of the step (rule R188, decision D34); stopping there is safe. -/
inductive Fault where
  /-- raised by the interrupt entry when PHASE is 9 to 15 (rules R78, R125); safe -/
  | badPhase
  /-- raised by `SetFW` for a width that is not 5, 8, 12, 13 or 16 (rule R166); safe -/
  | badWidth
  /-- raised by `SetFW`, `WriteTX`, `ReadRX` out of turn (rules R166 to R168); safe -/
  | busyAccess
  /-- raised by `ARM` when its precondition is false (rule R94); safe -/
  | badArm
  /-- raised by `STARTRESET` when its precondition is false (rule R152); safe -/
  | badResetStart
  /-- raised by `PUSH` of a buffer already queued (rule R111); safe -/
  | doublePush
  /-- raised by `POP`, and by an entry that pops, when Q is empty or the head is not armed (rule R113); safe -/
  | popEmpty
  /-- raised by an access to an address outside buffer memory (rules R41, R43); safe -/
  | badAddress
deriving DecidableEq, Repr

/-- Why there is no such step: what the spec calls `refuse` (rule R9), and an operation whose guard or place is not there. -/
inductive Refusal where
  /-- an operation without a meaning yet; raised by `exec` only; safe -/
  | notModelled (mnemonic : String)
  /-- the placed bits are no operation; raised by the step (rules R78, R80); safe -/
  | undecodable (e : DecodeError)
  /-- an index at or above NBUF names no buffer; raised by whatever takes an index (rules R54, R78); safe -/
  | noSuchBuffer
  /-- `Caller` reads or writes a BUSY buffer's header or payload (rule R52, decision D31); safe -/
  | busyBuffer
  /-- `REMOVE` of the armed head with `allow` (rule R112, decision D29); safe -/
  | removeArmed
  /-- the agent's guard is false, so it has no step: an interrupt entry that is not the one pending, `BIT` without an
  exchange (rules R171, R190); safe -/
  | notEnabled
  /-- the exchange in flight is not that frame, so the frame has no place (rules R72, R80); safe -/
  | frameNotInFlight
  /-- `head` where Q is empty, in an entry that reads the head's payload (rule R7); safe -/
  | noHead
  /-- nothing is placed and no agent of the block has a step: the block is idle (rules R34, R232); raised by the step; safe -/
  | idle
deriving DecidableEq, Repr

/-- Registers of a buffer after block reset: ST is READY (rules R23, R37); OP and RES are DESIGN CHOICE (log entry 3). -/
def BufRegs.reset : BufRegs := { op := .write, st := .ready, res := .success }

/-- The state after block reset (rules R37, R210) of a machine with the given parameters. The registers that rule R37 calls
unspecified (ACC, DIR, ACKR, RPAR, TXR, RXR, RXSH, OP, RES, buffer memory) hold 0 here: DESIGN CHOICE (log entry 3). -/
def State.resetWith (cfg : Params) : State :=
  { phase := Phase.request.code
    acc := 0#32
    dir := .write
    prst := false
    rcnt := 0#2
    armed := false
    ackr := 0#3
    rpar := false
    q := []
    mem := []
    bufs := Vector.replicate 64 BufRegs.reset
    fw := .w8
    txr := 0#16
    rxr := 0#16
    rxsh := 0#16
    xbusy := false
    xcnt := 0#5
    irqp := false
    imask := false
    pin := .input
    evt := []
    wire := []
    cfg := cfg
    script := []
    target := []
    draws := 0
    ret := .nothing }

/-- The state after block reset, with the parameters of log entry 2. -/
def State.reset : State := State.resetWith Params.default

end Sys2Proof.Machine
end

