-- ==== Sys2Proof/Machine/Operands.lean ====
section
/-!
DEFINITION. Operand forms: header fields, bit fields of received words and of the accumulator, bits of a frame in wire order,
addresses of headers and payloads, buffer indices.
-/

namespace Sys2Proof.Machine

/-! ### Buffers -/

/-- `HdrAddr(i) = i * BUFSTRIDE` (rule R43). -/
def hdrAddr (c : Params) (i : BufIdx) : Nat := i.val * c.stride

/-- `PayAddr(i) = i * BUFSTRIDE + 4` (rule R43). -/
def payAddr (c : Params) (i : BufIdx) : Nat := i.val * c.stride + 4

/-- The index names a buffer of this machine (rules R54, R78). -/
def isBuffer (c : Params) (i : BufIdx) : Bool := i.val < c.nbuf

/-- The number of the buffer in which an address lies (rule R43). -/
def ownerOf (c : Params) (a : Nat) : Nat := a / c.stride

/-- `OP[i]` -/
def State.op (s : State) (i : BufIdx) : Dir := (s.bufs[i.val]).op

/-- `ST[i]` -/
def State.st (s : State) (i : BufIdx) : Life := (s.bufs[i.val]).st

/-- `RES[i]` -/
def State.res (s : State) (i : BufIdx) : Result := (s.bufs[i.val]).res

/-- `OP[i] <- d` -/
def State.setOp (s : State) (i : BufIdx) (d : Dir) : State :=
  { s with bufs := s.bufs.set i.val { s.bufs[i.val] with op := d } }

/-- `ST[i] <- l` -/
def State.setSt (s : State) (i : BufIdx) (l : Life) : State :=
  { s with bufs := s.bufs.set i.val { s.bufs[i.val] with st := l } }

/-- `RES[i] <- r` -/
def State.setRes (s : State) (i : BufIdx) (r : Result) : State :=
  { s with bufs := s.bufs.set i.val { s.bufs[i.val] with res := r } }

/-! ### Header fields (rule R73) -/

/-- The variable nibble of the request, `H[3:0]`. -/
def hdrNibble (h : Word32) : BitVec 4 := h.extractLsb' 0 4

/-- `H[1]`, RnW. -/
def hdrDir (h : Word32) : Dir := Dir.ofBit (h.getLsbD 1)

/-- Header bit 1 as `START.R` and `START.W` write it (rules R91, R92). -/
def hdrWithDir (h : Word32) : Dir → Word32
  | .read => h ||| 0x00000002#32
  | .write => h &&& 0xFFFFFFFD#32

/-! ### Received words and the accumulator -/

/-- `rx[3:1]`, the acknowledge code (rule R65). -/
def rxAck (rx : BitVec 16) : BitVec 3 := rx.extractLsb' 1 3

/-- `zext_32(rx[4])`, the first data bit of a read (rule R128). -/
def rxFirstBit (rx : BitVec 16) : Word32 := (rx.extractLsb' 4 1).setWidth 32

/-- `v[lo+n-1:lo] <- f`: bit-field insert into the accumulator (rule R67, decision D15). -/
def insertField (v : Word32) (lo n : Nat) (f : Word32) : Word32 :=
  (v &&& ~~~((BitVec.allOnes n).setWidth 32 <<< lo)) ||| ((f &&& (BitVec.allOnes n).setWidth 32) <<< lo)

/-- `ACC[12:1] <- rx[11:0]` (rule R130). -/
def mergeRd1 (acc : Word32) (rx : BitVec 16) : Word32 := insertField acc 1 12 (rx.setWidth 32)

/-- `ACC[25:13] <- rx[12:0]` (rule R131). -/
def mergeRd2 (acc : Word32) (rx : BitVec 16) : Word32 := insertField acc 13 13 (rx.setWidth 32)

/-- `ACC[31:26] <- rx[5:0]`, offset `RD3_OFF` = 26 (rule R132, conflict C1). -/
def mergeRd3 (acc : Word32) (rx : BitVec 16) : Word32 := insertField acc 26 6 (rx.setWidth 32)

/-- `rx[6]`, the received parity bit (rule R132). -/
def rxParity (rx : BitVec 16) : Bool := rx.getLsbD 6

/-- The stash of a write, `zext_32(P[31:13]) | (zext_32(pp) << 19)` (rules R69, R129). -/
def writeStash (p : Word32) : Word32 :=
  (p.extractLsb' 13 19).setWidth 32 ||| ((BitVec.ofBool (payloadParity p)).setWidth 32 <<< 19)

/-- The result that an acknowledge code gives at `FINISH` (rule R136). -/
def ackResult (a : BitVec 3) : Result := if a = Config.ackOk then .success else .parityError

/-! ### Frames in wire order -/

/-- `v` with bit `k` set to `b` (rule R171: `RXSH[k] <- s`). -/
def setBit (v : BitVec 16) (k : Nat) (b : Bool) : BitVec 16 :=
  if b then v ||| (1#16 <<< k) else v &&& ~~~(1#16 <<< k)

/-- The low `n` bits of a value, the others 0 (rule R167). -/
def lowBits (n : Nat) (v : Word32) : BitVec 16 := (v &&& (BitVec.allOnes n).setWidth 32).setWidth 16

/-- The bits of a frame in time order: bit `k` of the frame is its `k`-th bit cycle (rules R6, R40). -/
def wireBits {n : Nat} (v : BitVec n) : List Bool := (List.range n).map v.getLsbD

end Sys2Proof.Machine
end

