-- ==== Sys2Proof/Machine/Ops.lean ====
section
/-!
DEFINITION. The shared operations: buffer memory, the marshaller primitives, the queue and buffer micro-operations, the line
reset, the interrupt and its entries, the bit cycle, the frame of a host command. The meanings in Machine/<Family>.lean call
these; within one operation the actions stand in the order of the rule's pseudocode.
-/

namespace Sys2Proof.Machine

/-- Outcome of an operation that may stop. -/
abbrev Res (α : Type) := Host.Outcome α Fault Refusal

/-- Go on with the result unless the operation stopped. -/
def andThen {α β : Type} (x : Res α) (f : α → Res β) : Res β :=
  match x with
  | .next a => f a
  | .fault e => .fault e
  | .refused e => .refused e

/-! ### Buffer memory -/

/-- Read one byte. -/
def Memory.read (m : Memory) (a : Nat) : Byte :=
  match m with
  | [] => Memory.unlisted
  | (x, b) :: rest => if x = a then b else Memory.read rest a

/-- A cell in front of a memory, unless it would hold what an unlisted address reads as. -/
def Memory.cons (a : Nat) (b : Byte) (m : Memory) : Memory :=
  if b = Memory.unlisted then m else (a, b) :: m

/-- Write one byte, keeping the canonical form. -/
def Memory.write (m : Memory) (a : Nat) (b : Byte) : Memory :=
  match m with
  | [] => Memory.cons a b []
  | (x, c) :: rest =>
    if a < x then Memory.cons a b ((x, c) :: rest)
    else if a = x then Memory.cons a b rest
    else (x, c) :: Memory.write rest a b

/-- `MemRead(a, 4)`, little-endian (rule R42). -/
def Memory.readWord (m : Memory) (a : Nat) : Word32 :=
  m.read (a + 3) ++ m.read (a + 2) ++ m.read (a + 1) ++ m.read a

/-- `MemWrite(a, 4, v)`, little-endian (rule R42). -/
def Memory.writeWord (m : Memory) (a : Nat) (v : Word32) : Memory :=
  (((m.write a (v.extractLsb' 0 8)).write (a + 1) (v.extractLsb' 8 8)).write (a + 2) (v.extractLsb' 16 8)).write (a + 3)
    (v.extractLsb' 24 8)

/-- The four bytes at `a` lie in buffer memory (rule R41). -/
def wordInside (c : Params) (a : Nat) : Bool := a + 4 ≤ c.memSize

/-- A word access of the block; an address outside buffer memory does not exist. -/
def memRead (a : Nat) (s : State) : Res Word32 :=
  if wordInside s.cfg a then .next (s.mem.readWord a) else .fault .badAddress

/-- A word store of the block. -/
def memWrite (a : Nat) (v : Word32) (s : State) : Res State :=
  if wordInside s.cfg a then .next { s with mem := s.mem.writeWord a v } else .fault .badAddress

/-- An operand that must name a buffer (rules R54, R78). -/
def withBuffer {α : Type} (i : BufIdx) (s : State) (k : Res α) : Res α :=
  if isBuffer s.cfg i then k else .refused .noSuchBuffer

/-! ### Marshaller primitives (44_serial_marshaller.md) -/

/-- `SetPin(d)` (rule R169): no precondition. -/
def setPinTo (d : Pin) (s : State) : State := { s with pin := d }

/-- `SetFW(w)` for a legal width (rule R166). -/
def setWidthTo (w : FrameWidth) (s : State) : Res State :=
  if s.xbusy then .fault .busyAccess else .next { s with fw := w }

/-- `SetFW(w)` for any number of bits (rule R166). -/
def setWidthBits (n : Nat) (s : State) : Res State :=
  match FrameWidth.ofBits n with
  | none => .fault .badWidth
  | some w => setWidthTo w s

/-- `WriteTX(v)` (rule R167): start an exchange of `FW` bit cycles. It clears `RXSH`, also when it is called from a step of `Caller`
or `Irq`, as rule R167 says; the ownership table of rule R36 gives `RXSH` to the bit cycles only (DEDUCED, log entry 26). -/
def transmit (v : Word32) (s : State) : Res State :=
  if s.xbusy || s.irqp then .fault .busyAccess
  else .next { s with txr := lowBits s.fw.bits v, rxsh := 0#16, xcnt := 0#5, xbusy := true }

/-- `ReadRX()` (rule R168): the received word; it clears the receive flag. -/
def receive (s : State) : Res (BitVec 16 × State) :=
  if s.irqp && !s.xbusy then .next (s.rxr, { s with irqp := false }) else .fault .busyAccess

/-! ### Buffer and queue micro-operations (40_transfer_buffer.md, 41_transfer_queue.md) -/

/-- The precondition of `ARM(i)` (rules R94, R188). -/
def armReady (i : BufIdx) (s : State) : Bool :=
  s.q.head? == some i && !s.armed && !s.prst && s.phase == Phase.request.code && s.fw == .w8 && !s.xbusy && !s.irqp

/-- `ARM(i)` (rule R94). -/
def armBuffer (i : BufIdx) (s : State) : Res State :=
  if armReady i s then
    andThen (memRead (hdrAddr s.cfg i) s) fun h =>
      transmit ((reqByte (hdrNibble h)).setWidth 32) (setPinTo .output { s with dir := hdrDir h, armed := true })
  else .fault .badArm

/-- `COMPLETE(i)` (rule R95). -/
def completeBuffer (i : BufIdx) (s : State) : State :=
  { s.setSt i .ready with evt := s.evt ++ [.cpl i (s.res i)] }

/-- `PUSH(i)` (rule R111): insert at the tail; answers whether the queue was empty before. -/
def pushBuffer (i : BufIdx) (s : State) : Res (Bool × State) :=
  if i ∈ s.q then .fault .doublePush else .next (s.q.isEmpty, { s with q := s.q ++ [i] })

/-- `i` is the armed head (rule R112). -/
def isArmedHead (i : BufIdx) (s : State) : Bool := s.q.head? == some i && s.armed

/-- `REMOVE(i, allow)` (rule R112). -/
def removeBuffer (i : BufIdx) (allow : Bool) (s : State) : Res (Bool × State) :=
  if i ∉ s.q then .next (false, s)
  else if isArmedHead i s then (if allow then .refused .removeArmed else .next (false, s))
  else .next (true, { s with q := s.q.erase i })

/-- `POP()` (rule R113). -/
def popHead (s : State) : Res (PopStatus × State) :=
  match s.q with
  | [] => .fault .popEmpty
  | h :: rest =>
    if s.armed then
      let t := completeBuffer h { s with q := rest, armed := false }
      match rest with
      | [] => .next (.empty, t)
      | n :: _ =>
        if t.prst then .next (.nextWithheld, t)
        else andThen (armBuffer n t) fun u => .next (.nextArmed, u)
    else .fault .popEmpty

/-- The operation that `VISITFIRST` is given. -/
def runVisit (f : VisitOp) (i : BufIdx) (s : State) : Res State :=
  match f with
  | .arm => armBuffer i s
  | .complete => .next (completeBuffer i s)

/-- `VISITFIRST(f)` (rule R114). -/
def visitHead (f : VisitOp) (s : State) : Res State :=
  match s.q with
  | [] => .next s
  | h :: _ => runVisit f h s

/-! ### The line reset (43_reset_sequencer.md) -/

/-- The precondition of `STARTRESET` (rules R152, R188). -/
def lineResetReady (s : State) : Bool :=
  s.prst && !s.armed && s.phase == Phase.request.code && !s.xbusy && !s.irqp

/-- `STARTRESET` (rule R152). -/
def startLineReset (s : State) : Res State :=
  if lineResetReady s then
    andThen (setWidthTo .w16 (setPinTo .output s)) fun t =>
      andThen (transmit Config.resetWord { t with rcnt := Config.resetWords }) fun u =>
        .next { u with phase := Phase.reset.code }
  else .fault .badResetStart

/-! ### The common tail of the terminal entries (42_protocol_fsm.md) -/

/-- What `FINISH` does with the status of `POP` (rules R77, R136). -/
def afterPop (p : PopStatus) (s : State) : Res State :=
  if p ≠ .nextArmed ∧ s.prst then startLineReset s else .next s

/-- `FINISH` (rule R136). Without a head there is nothing to finish: the assertion of `POP` (rule R188). -/
def finishTransfer (s : State) : Res State :=
  match s.q with
  | [] => .fault .popEmpty
  | h :: _ =>
    let t := setPinTo .input { s with phase := Phase.request.code }
    andThen (popHead (t.setRes h (ackResult t.ackr))) fun (p, u) => afterPop p u

/-! ### The interrupt (60_exceptions.md, 42_protocol_fsm.md) -/

/-- The condition for taking the interrupt (rule R190). -/
def irqEnabled (s : State) : Bool := s.irqp && !s.imask

/-- Taking the interrupt (rules R125, R190, R193): the entry saves nothing and switches no mode; it reads the receive register,
which clears the flag. Returning is the end of the entry (rule R194). -/
def takeInterrupt (s : State) : Res (BitVec 16 × State) :=
  if irqEnabled s then receive s else .refused .notEnabled

/-- `PHASE <- X` (rule R7). -/
def setPhase (p : Phase) (s : State) : State := { s with phase := p.code }

/-- Body of `IRQ.REQUEST` (rule R127). -/
def entryRequest (s : State) : Res State :=
  andThen (setWidthTo .w5 (setPinTo .input s)) fun t =>
    andThen (transmit Config.ackTx t) fun u => .next (setPhase .ack u)

/-- Body of `IRQ.ACK.R` (rule R128). -/
def entryAckR (rx : BitVec 16) (s : State) : Res State :=
  andThen (setWidthTo .w12 { s with ackr := rxAck rx, acc := rxFirstBit rx }) fun t =>
    andThen (transmit 0#32 t) fun u => .next (setPhase .readData1 u)

/-- Body of `IRQ.ACK.W` (rule R129). -/
def entryAckW (rx : BitVec 16) (s : State) : Res State :=
  match s.q with
  | [] => .refused .noHead
  | h :: _ =>
    andThen (memRead (payAddr s.cfg h) s) fun p =>
      andThen (setWidthTo .w13 (setPinTo .output { s with ackr := rxAck rx })) fun t =>
        andThen (transmit ((p.extractLsb' 0 13).setWidth 32) t) fun u =>
          .next (setPhase .writeData1 { u with acc := writeStash p })

/-- Body of `IRQ.READ_DATA1` (rule R130). -/
def entryReadData1 (rx : BitVec 16) (s : State) : Res State :=
  andThen (setWidthTo .w13 { s with acc := mergeRd1 s.acc rx }) fun t =>
    andThen (transmit 0#32 t) fun u => .next (setPhase .readData2 u)

/-- Body of `IRQ.READ_DATA2` (rule R131). -/
def entryReadData2 (rx : BitVec 16) (s : State) : Res State :=
  andThen (setWidthTo .w8 { s with acc := mergeRd2 s.acc rx }) fun t =>
    andThen (transmit 0#32 t) fun u => .next (setPhase .readData3 u)

/-- Body of `IRQ.READ_DATA3` (rule R132). -/
def entryReadData3 (rx : BitVec 16) (s : State) : Res State :=
  match s.q with
  | [] => .fault .popEmpty
  | h :: _ =>
    let t := { s with acc := mergeRd3 s.acc rx, rpar := rxParity rx }
    andThen (memWrite (payAddr t.cfg h) t.acc t) finishTransfer

/-- Body of `IRQ.WRITE_DATA1` (rule R133). -/
def entryWriteData1 (s : State) : Res State :=
  andThen (transmit ((s.acc.extractLsb' 0 13).setWidth 32) s) fun t =>
    .next (setPhase .writeData2 { t with acc := s.acc >>> 13 })

/-- Body of `IRQ.WRITE_DATA2` (rule R134). -/
def entryWriteData2 (s : State) : Res State :=
  andThen (setWidthTo .w8 s) fun t =>
    andThen (transmit ((s.acc.extractLsb' 0 8).setWidth 32) t) fun u => .next (setPhase .writeData3 u)

/-- Body of `IRQ.WRITE_DATA3` (rule R135). -/
def entryWriteData3 (s : State) : Res State := finishTransfer s

/-- Body of `IRQ.RESET` (rule R153). -/
def entryReset (s : State) : Res State :=
  let t := { s with rcnt := s.rcnt - 1#2 }
  if t.rcnt ≠ 0#2 then transmit Config.resetWord t
  else
    andThen (setWidthTo .w8 { t with prst := false }) fun u =>
      visitHead .arm (setPhase .request (setPinTo .input u))

/-- The body of an entry; `rx` is the word the entry has read. There is one entry for each exchange: five in a read or a write, as
rules R72, R141, R142 and R173 have it, where rules R225 and R230 count six (DEDUCED, log entry 25). -/
def entryBody (e : Entry) (rx : BitVec 16) (s : State) : Res State :=
  match e with
  | .request => entryRequest s
  | .ackR => entryAckR rx s
  | .ackW => entryAckW rx s
  | .writeData1 => entryWriteData1 s
  | .writeData2 => entryWriteData2 s
  | .writeData3 => entryWriteData3 s
  | .readData1 => entryReadData1 rx s
  | .readData2 => entryReadData2 rx s
  | .readData3 => entryReadData3 rx s
  | .reset => entryReset s

/-- The entry that the state's dispatch key selects (rule R74). -/
def pendingEntry (s : State) : Option Entry := Entry.ofKey s.dir.bit s.phase

/-- The interrupt entry of rule R125: read, then dispatch. -/
def irqEntryStep (s : State) : Res State :=
  andThen (takeInterrupt s) fun (rx, t) =>
    match pendingEntry s with
    | some e => entryBody e rx t
    | none => .fault .badPhase

/-- The step of agent `Irq` when the pending entry is `e`; there is no such step when another entry, or none, is pending. -/
def runEntry (e : Entry) (s : State) : Res State :=
  if pendingEntry s = some e then andThen (takeInterrupt s) fun (rx, t) => entryBody e rx t
  else .refused .notEnabled

/-! ### The shifter (rule R171) -/

/-- The bit sampled in this cycle, and the state after it has been taken from its source (rule R172). -/
def sample (s : State) : Bool × State :=
  match s.pin with
  | .output => (Config.drawBit s.draws, { s with draws := s.draws + 1 })
  | .input =>
    match s.target with
    | b :: rest => (b, { s with target := rest })
    | [] => (Config.targetBit s.wire, s)

/-- The cycle with the bit `b` sampled (rule R171). -/
def shiftBit (b : Bool) (s : State) : State :=
  let t := { s with
    rxsh := setBit s.rxsh s.xcnt.toNat b
    wire := s.wire ++ [{ oe := s.pin.code, o := s.txr.getLsbD s.xcnt.toNat, s := b }]
    xcnt := s.xcnt + 1#5 }
  if t.xcnt.toNat = s.fw.bits then { t with rxr := t.rxsh, xbusy := false, irqp := true } else t

/-- One bit cycle (rule R171); its guard is `XBUSY`. -/
def bitCycle (s : State) : State := shiftBit (sample s).1 (sample s).2

/-- `n` bit cycles, one after the other. -/
def bitCycles : Nat → State → State
  | 0, s => s
  | n + 1, s => bitCycles n (bitCycle s)

/-- The exchange in flight is a frame of the given phase, width and pin direction, and none of its cycles has happened yet. -/
def frameStarts (p : Phase) (w : FrameWidth) (d : Pin) (s : State) : Bool :=
  s.xbusy && s.xcnt == 0#5 && s.phase == p.code && s.fw == w && s.pin == d

/-- The exchange of a frame that the host sends: it must be the one in the transmit register. -/
def sendFrame (p : Phase) (w : FrameWidth) (d : Pin) (v : BitVec 16) (s : State) : Res State :=
  if frameStarts p w d s && s.txr == v then .next (bitCycles w.bits s) else .refused .frameNotInFlight

/-- The exchange of a frame that the target sends: its bits are what the target answers, in time order. -/
def receiveFrame {n : Nat} (p : Phase) (w : FrameWidth) (v : BitVec n) (s : State) : Res State :=
  if frameStarts p w .input s then .next (bitCycles w.bits { s with target := wireBits v ++ s.target })
  else .refused .frameNotInFlight

/-! ### Host commands (rule R189) -/

/-- The frame of a host command: mask the interrupt, run the body, restore the mask, return. -/
def command (body : State → Res (Ret × State)) (s : State) : Res State :=
  andThen (body { s with imask := true }) fun (r, t) => .next { t with imask := s.imask, ret := r }

/-- An operation that returns nothing. -/
def returning (r : Ret) (x : Res State) : Res State := andThen x fun t => .next { t with ret := r }

/-- Body of `START.R(i)` and `START.W(i)` (rules R91, R92). -/
def startBody (d : Dir) (i : BufIdx) (s : State) : Res (Ret × State) :=
  withBuffer i s <|
    if s.st i ≠ .ready then .next (.bool false, s)
    else
      let t := s.setOp i d
      andThen (memRead (hdrAddr t.cfg i) t) fun h =>
        andThen (memWrite (hdrAddr t.cfg i) (hdrWithDir h d) t) fun u =>
          andThen (pushBuffer i u) fun (wasEmpty, v) =>
            let w := v.setSt i .busy
            if wasEmpty && !w.prst then andThen (armBuffer i w) fun x => .next (.bool true, x)
            else .next (.bool true, w)

/-- Body of `CANCEL(i)` (rule R93). -/
def cancelBody (i : BufIdx) (s : State) : Res (Ret × State) :=
  withBuffer i s <|
    if s.st i ≠ .busy then .next (.bool false, s)
    else
      andThen (removeBuffer i false s) fun (ok, t) =>
        if ok then .next (.bool true, { t.setSt i .ready with evt := t.evt ++ [.cancelled i] })
        else .next (.bool false, t)

/-- Body of `RESET` (rule R151). -/
def resetBody (s : State) : Res (Ret × State) :=
  if s.prst then .next (.nothing, s)
  else
    let t := { s with prst := true }
    if t.q.isEmpty then andThen (startLineReset t) fun u => .next (.nothing, u) else .next (.nothing, t)

end Sys2Proof.Machine
end

