-- ==== Sys2Proof/Machine/Caller.lean ====
section
/-!
DEFINITION. The steps of agent `Caller` that are no row of the opcode table (rule R5): byte accesses to a READY buffer
(rules R44, R52) and the queries (rules R38, R97). An access to a group of bytes, which rule R44 allows without a step size, is one
step for each byte: DESIGN CHOICE (log entry 28).
-/

namespace Sys2Proof.Machine

/-- The buffer in which an address lies (rule R43). -/
def ownerIdx (c : Params) (a : Nat) : BufIdx := Fin.ofNat 64 (ownerOf c a)

/-- An access of `Caller` to one byte: the address exists (rule R41) and its buffer is READY (rule R52). -/
def callerAccess (a : Nat) (s : State) (k : Res State) : Res State :=
  if a < s.cfg.memSize then
    if s.st (ownerIdx s.cfg a) = .ready then k else .refused .busyBuffer
  else .fault .badAddress

/-- `Caller` writes a byte. -/
def callerWriteByte (a : Nat) (b : Byte) (s : State) : Res State :=
  callerAccess a s (.next { s with mem := s.mem.write a b, ret := .nothing })

/-- `Caller` reads a byte. -/
def callerReadByte (a : Nat) (s : State) : Res State := callerAccess a s (.next { s with ret := .byte (s.mem.read a) })

/-- `ready(i)` returns `ST[i] == READY` (rule R97). -/
def callerReady (i : BufIdx) (s : State) : Res State :=
  withBuffer i s (.next { s with ret := .bool (decide (s.st i = .ready)) })

/-- `result(i)` returns `RES[i]` (rule R97). -/
def callerResult (i : BufIdx) (s : State) : Res State := withBuffer i s (.next { s with ret := .result (s.res i) })

/-- `Caller` reads `RPAR` (rule R38). -/
def callerParity (s : State) : Res State := .next { s with ret := .parity s.rpar }

end Sys2Proof.Machine
end

