-- ==== Sys2Proof/Machine/Calls.lean ====
section
/-!
DEFINITION. Micro-operations and marshaller primitives, format CALL (rule R80): called by name from the steps of agents. Run on
their own they do what their rule says on the state they find, and fault where its precondition is false (rule R188).
-/

namespace Sys2Proof.Machine

/-- `ARM(i)` (rule R94). -/
def execArm (i : BufIdx) (s : State) : Res State := withBuffer i s (returning .nothing (armBuffer i s))

/-- `COMPLETE(i)` (rule R95). -/
def execComplete (i : BufIdx) (s : State) : Res State :=
  withBuffer i s (returning .nothing (.next (completeBuffer i s)))

/-- `PUSH(i)` (rule R111). -/
def execPush (i : BufIdx) (s : State) : Res State :=
  withBuffer i s (andThen (pushBuffer i s) fun (b, t) => .next { t with ret := .bool b })

/-- `REMOVE(i, allow)` (rule R112). -/
def execRemove (i : BufIdx) (allow : Bool) (s : State) : Res State :=
  withBuffer i s (andThen (removeBuffer i allow s) fun (b, t) => .next { t with ret := .bool b })

/-- `POP()` (rule R113). -/
def execPop (s : State) : Res State := andThen (popHead s) fun (p, t) => .next { t with ret := .popStatus p }

/-- `VISITFIRST(f)` (rule R114). -/
def execVisitFirst (f : VisitOp) (s : State) : Res State := returning .nothing (visitHead f s)

/-- `FINISH` (rule R136). -/
def execFinish (s : State) : Res State := returning .nothing (finishTransfer s)

/-- `STARTRESET` (rule R152). -/
def execStartReset (s : State) : Res State := returning .nothing (startLineReset s)

/-- `SetFW(w)` (rule R166); every `w` that is not a legal width is fault BadWidth, whatever its size (log entry 27). -/
def execSetFW (w : Word32) (s : State) : Res State := returning .nothing (setWidthBits w.toNat s)

/-- `WriteTX(v)` (rule R167). -/
def execWriteTX (v : Word32) (s : State) : Res State := returning .nothing (transmit v s)

/-- `ReadRX()` (rule R168). -/
def execReadRX (s : State) : Res State := andThen (receive s) fun (v, t) => .next { t with ret := .rx v }

/-- `SetPin(d)` (rule R169). -/
def execSetPin (d : Pin) (s : State) : Res State := returning .nothing (.next (setPinTo d s))

end Sys2Proof.Machine
end

