-- ==== Sys2Proof/Machine/Codes.lean ====
section
/-!
DEFINITION. Stored words and codes. A code is run as the assignment of that code to the register it is a code of, the primitive
`x <- v` and `x[i] <- v` of rule R7 (log entry 6). These assignments are parts of the steps of agents, not steps of an agent,
but for `H32`, the header write of `Caller` (rules R20, R73).
-/

namespace Sys2Proof.Machine

/-- `H32` (rules R20, R52, R73): `Caller` writes the header word of a READY buffer. -/
def execH32 (i : BufIdx) (h : Word32) (s : State) : Res State :=
  withBuffer i s <|
    if s.st i ≠ .ready then .refused .busyBuffer else returning .nothing (memWrite (hdrAddr s.cfg i) h s)

/-- `PHASE.REQUEST` (rule R11). -/
def execPhaseRequest (s : State) : Res State := .next (setPhase .request s)

/-- `PHASE.ACK` (rule R11). -/
def execPhaseAck (s : State) : Res State := .next (setPhase .ack s)

/-- `PHASE.WRITE_DATA1` (rule R11). -/
def execPhaseWriteData1 (s : State) : Res State := .next (setPhase .writeData1 s)

/-- `PHASE.WRITE_DATA2` (rule R11). -/
def execPhaseWriteData2 (s : State) : Res State := .next (setPhase .writeData2 s)

/-- `PHASE.WRITE_DATA3` (rule R11). -/
def execPhaseWriteData3 (s : State) : Res State := .next (setPhase .writeData3 s)

/-- `PHASE.READ_DATA1` (rule R11). -/
def execPhaseReadData1 (s : State) : Res State := .next (setPhase .readData1 s)

/-- `PHASE.READ_DATA2` (rule R11). -/
def execPhaseReadData2 (s : State) : Res State := .next (setPhase .readData2 s)

/-- `PHASE.READ_DATA3` (rule R11). -/
def execPhaseReadData3 (s : State) : Res State := .next (setPhase .readData3 s)

/-- `PHASE.RESET` (rule R11). -/
def execPhaseReset (s : State) : Res State := .next (setPhase .reset s)

/-- `RES.SUCCESS` (rules R24, R75). -/
def execResSuccess (i : BufIdx) (s : State) : Res State := withBuffer i s (.next (s.setRes i .success))

/-- `RES.PARITY_ERROR` (rules R24, R75). -/
def execResParityError (i : BufIdx) (s : State) : Res State := withBuffer i s (.next (s.setRes i .parityError))

/-- `POPST.EMPTY` (rules R77, R136): the status is what `FINISH` decides the line reset by. -/
def execPopstEmpty (s : State) : Res State := returning (.popStatus .empty) (afterPop .empty s)

/-- `POPST.NEXT_ARMED` (rules R77, R136). -/
def execPopstNextArmed (s : State) : Res State := returning (.popStatus .nextArmed) (afterPop .nextArmed s)

/-- `POPST.NEXT_WITHHELD` (rules R77, R136). -/
def execPopstNextWithheld (s : State) : Res State := returning (.popStatus .nextWithheld) (afterPop .nextWithheld s)

/-- `ST.READY` (rule R23). -/
def execStReady (i : BufIdx) (s : State) : Res State := withBuffer i s (.next (s.setSt i .ready))

/-- `ST.BUSY` (rule R23). -/
def execStBusy (i : BufIdx) (s : State) : Res State := withBuffer i s (.next (s.setSt i .busy))

/-- `PIN.IN` (rule R32). -/
def execPinIn (s : State) : Res State := .next (setPinTo .input s)

/-- `PIN.OUT` (rule R32). -/
def execPinOut (s : State) : Res State := .next (setPinTo .output s)

end Sys2Proof.Machine
end

