-- ==== Sys2Proof/Machine/Commands.lean ====
section
/-!
DEFINITION. Host commands, format CMD8 (40_transfer_buffer.md, 43_reset_sequencer.md): steps of agent `Caller`, each one atomic
step inside one critical section (rules R47, R189).
-/

namespace Sys2Proof.Machine

/-- `START.W(i)` (rule R92). -/
def execStartW (i : BufIdx) (s : State) : Res State := command (startBody .write i) s

/-- `START.R(i)` (rule R91). -/
def execStartR (i : BufIdx) (s : State) : Res State := command (startBody .read i) s

/-- `CANCEL(i)` (rule R93). -/
def execCancel (i : BufIdx) (s : State) : Res State := command (cancelBody i) s

/-- `RESET` (rule R151). -/
def execReset (s : State) : Res State := command resetBody s

end Sys2Proof.Machine
end

