-- ==== Sys2Proof/Machine/Irq.lean ====
section
/-!
DEFINITION. The interrupt entry and its rows of format IRQKEY5 (42_protocol_fsm.md, 43_reset_sequencer.md): steps of agent `Irq`.
A row of IRQKEY5 is the step of the agent when the key `{DIR, PHASE}` selects that row (rule R74). The key's `DIR` bit `d` is
looked at by the ACK rows alone, which have none left open.
-/

namespace Sys2Proof.Machine

/-- `IRQ.REQUEST` (rule R127). -/
def execIrqRequest (s : State) : Res State := runEntry .request s

/-- `IRQ.ACK.R` (rule R128). -/
def execIrqAckR (s : State) : Res State := runEntry .ackR s

/-- `IRQ.ACK.W` (rule R129). -/
def execIrqAckW (s : State) : Res State := runEntry .ackW s

/-- `IRQ.WRITE_DATA1` (rule R133). -/
def execIrqWriteData1 (s : State) : Res State := runEntry .writeData1 s

/-- `IRQ.WRITE_DATA2` (rule R134). -/
def execIrqWriteData2 (s : State) : Res State := runEntry .writeData2 s

/-- `IRQ.WRITE_DATA3` (rule R135). -/
def execIrqWriteData3 (s : State) : Res State := runEntry .writeData3 s

/-- `IRQ.READ_DATA1` (rule R130). -/
def execIrqReadData1 (s : State) : Res State := runEntry .readData1 s

/-- `IRQ.READ_DATA2` (rule R131). -/
def execIrqReadData2 (s : State) : Res State := runEntry .readData2 s

/-- `IRQ.READ_DATA3` (rule R132). -/
def execIrqReadData3 (s : State) : Res State := runEntry .readData3 s

/-- `IRQ.RESET` (rule R153). -/
def execIrqReset (s : State) : Res State := runEntry .reset s

/-- `IrqEntry` (rules R125, R190). -/
def execIrqEntry (s : State) : Res State := irqEntryStep s

end Sys2Proof.Machine
end

