-- ==== Sys2Proof/Machine/Shifter.lean ====
section
/-!
DEFINITION. The bit cycle (rule R171 of 44_serial_marshaller.md), and the frames of 30_encoding.md. A frame is run as its
exchange: all the bit cycles of the exchange in flight, which must be that frame's (log entry 6). A frame the host sends is the
one in the transmit register; the bits of a frame the target sends are what the target answers.
-/

namespace Sys2Proof.Machine

/-- `BIT` (rule R171): enabled exactly when `XBUSY = 1`. -/
def execBit (s : State) : Res State := if s.xbusy then .next (bitCycle s) else .refused .notEnabled

/-- `REQ8` (rules R61, R64). -/
def execReq8 (n r : Bool) (a : BitVec 2) (p : Bool) (s : State) : Res State :=
  sendFrame .request .w8 .output ((reqWord n r a p).setWidth 16) s

/-- `REQ.DP.W` (rule R62). -/
def execReqDpW (a : BitVec 2) (p : Bool) (s : State) : Res State :=
  sendFrame .request .w8 .output ((reqWord false false a p).setWidth 16) s

/-- `REQ.AP.W` (rule R62). -/
def execReqApW (a : BitVec 2) (p : Bool) (s : State) : Res State :=
  sendFrame .request .w8 .output ((reqWord true false a p).setWidth 16) s

/-- `REQ.DP.R` (rule R62). -/
def execReqDpR (a : BitVec 2) (p : Bool) (s : State) : Res State :=
  sendFrame .request .w8 .output ((reqWord false true a p).setWidth 16) s

/-- `REQ.AP.R` (rule R62). -/
def execReqApR (a : BitVec 2) (p : Bool) (s : State) : Res State :=
  sendFrame .request .w8 .output ((reqWord true true a p).setWidth 16) s

/-- `ACKTX5` (rule R71): the ACK exchange, whatever the target answers. -/
def execAckTx5 (s : State) : Res State := sendFrame .ack .w5 .input (Config.ackTx.setWidth 16) s

/-- `ACK5` (rule R65): the ACK exchange with the given answer. -/
def execAck5 (t : Bool) (a : BitVec 3) (d : Bool) (s : State) : Res State :=
  receiveFrame .ack .w5 (ackWord t a d) s

/-- `ACK.OK` (rule R66). -/
def execAckOk (t d : Bool) (s : State) : Res State := receiveFrame .ack .w5 (ackWord t Config.ackOk d) s

/-- `ACK.WAIT` (rule R66). -/
def execAckWait (t d : Bool) (s : State) : Res State := receiveFrame .ack .w5 (ackWord t ackCodeWait d) s

/-- `ACK.FAULT` (rule R66). -/
def execAckFault (t d : Bool) (s : State) : Res State := receiveFrame .ack .w5 (ackWord t ackCodeFault d) s

/-- `RD1` (rule R67). -/
def execRd1 (d : BitVec 12) (s : State) : Res State := receiveFrame .readData1 .w12 d s

/-- `RD2` (rule R67). -/
def execRd2 (d : BitVec 13) (s : State) : Res State := receiveFrame .readData2 .w13 d s

/-- `RD3` (rule R67). -/
def execRd3 (d : BitVec 6) (p t : Bool) (s : State) : Res State := receiveFrame .readData3 .w8 (rd3Word d p t) s

/-- `CLK0.12` (rule R71): the exchange of `READ_DATA1`, whatever the target answers. -/
def execClk0w12 (s : State) : Res State := sendFrame .readData1 .w12 .input 0#16 s

/-- `CLK0.13` (rule R71): the exchange of `READ_DATA2`. -/
def execClk0w13 (s : State) : Res State := sendFrame .readData2 .w13 .input 0#16 s

/-- `CLK0.8` (rule R71): the exchange of `READ_DATA3`. -/
def execClk0w8 (s : State) : Res State := sendFrame .readData3 .w8 .input 0#16 s

/-- `WD1` (rule R69). -/
def execWd1 (d : BitVec 13) (s : State) : Res State := sendFrame .writeData1 .w13 .output (d.setWidth 16) s

/-- `WD2` (rule R69). -/
def execWd2 (d : BitVec 13) (s : State) : Res State := sendFrame .writeData2 .w13 .output (d.setWidth 16) s

/-- `WD3` (rule R69). -/
def execWd3 (d : BitVec 6) (p : Bool) (s : State) : Res State :=
  sendFrame .writeData3 .w8 .output ((wd3Word d p).setWidth 16) s

/-- `RST16` (rule R70). -/
def execRst16 (s : State) : Res State := sendFrame .reset .w16 .output 0xFFFF#16 s

end Sys2Proof.Machine
end

