-- ==== Sys2Proof/Machine/Dispatch.lean ====
section
/-!
DEFINITION. One arm for each row of spec/opcode_table.json.
-/

namespace Sys2Proof.Machine

/-- What running an operation does. -/
def exec (i : Instr) (s : State) : Host.Outcome State Fault Refusal :=
  match i with
  -- host commands (Machine/Commands.lean)
  | .startW b => Sys2Proof.Machine.execStartW b s
  | .startR b => Sys2Proof.Machine.execStartR b s
  | .cancel b => Sys2Proof.Machine.execCancel b s
  | .reset => Sys2Proof.Machine.execReset s
  -- interrupt entries (Machine/Irq.lean)
  | .irqRequest _ => Sys2Proof.Machine.execIrqRequest s
  | .irqAckR => Sys2Proof.Machine.execIrqAckR s
  | .irqAckW => Sys2Proof.Machine.execIrqAckW s
  | .irqWriteData1 _ => Sys2Proof.Machine.execIrqWriteData1 s
  | .irqWriteData2 _ => Sys2Proof.Machine.execIrqWriteData2 s
  | .irqWriteData3 _ => Sys2Proof.Machine.execIrqWriteData3 s
  | .irqReadData1 _ => Sys2Proof.Machine.execIrqReadData1 s
  | .irqReadData2 _ => Sys2Proof.Machine.execIrqReadData2 s
  | .irqReadData3 _ => Sys2Proof.Machine.execIrqReadData3 s
  | .irqReset _ => Sys2Proof.Machine.execIrqReset s
  | .irqEntry => Sys2Proof.Machine.execIrqEntry s
  -- the bit cycle and the frames (Machine/Shifter.lean)
  | .bit => Sys2Proof.Machine.execBit s
  | .req8 n r a p => Sys2Proof.Machine.execReq8 n r a p s
  | .reqDpW a p => Sys2Proof.Machine.execReqDpW a p s
  | .reqApW a p => Sys2Proof.Machine.execReqApW a p s
  | .reqDpR a p => Sys2Proof.Machine.execReqDpR a p s
  | .reqApR a p => Sys2Proof.Machine.execReqApR a p s
  | .ackTx5 => Sys2Proof.Machine.execAckTx5 s
  | .ack5 t a d => Sys2Proof.Machine.execAck5 t a d s
  | .ackOk t d => Sys2Proof.Machine.execAckOk t d s
  | .ackWait t d => Sys2Proof.Machine.execAckWait t d s
  | .ackFault t d => Sys2Proof.Machine.execAckFault t d s
  | .rd1 d => Sys2Proof.Machine.execRd1 d s
  | .rd2 d => Sys2Proof.Machine.execRd2 d s
  | .rd3 d p t => Sys2Proof.Machine.execRd3 d p t s
  | .clk0w12 => Sys2Proof.Machine.execClk0w12 s
  | .clk0w13 => Sys2Proof.Machine.execClk0w13 s
  | .clk0w8 => Sys2Proof.Machine.execClk0w8 s
  | .wd1 d => Sys2Proof.Machine.execWd1 d s
  | .wd2 d => Sys2Proof.Machine.execWd2 d s
  | .wd3 d p => Sys2Proof.Machine.execWd3 d p s
  | .rst16 => Sys2Proof.Machine.execRst16 s
  -- stored words and codes (Machine/Codes.lean)
  | .h32 b h => Sys2Proof.Machine.execH32 b h s
  | .phaseRequest => Sys2Proof.Machine.execPhaseRequest s
  | .phaseAck => Sys2Proof.Machine.execPhaseAck s
  | .phaseWriteData1 => Sys2Proof.Machine.execPhaseWriteData1 s
  | .phaseWriteData2 => Sys2Proof.Machine.execPhaseWriteData2 s
  | .phaseWriteData3 => Sys2Proof.Machine.execPhaseWriteData3 s
  | .phaseReadData1 => Sys2Proof.Machine.execPhaseReadData1 s
  | .phaseReadData2 => Sys2Proof.Machine.execPhaseReadData2 s
  | .phaseReadData3 => Sys2Proof.Machine.execPhaseReadData3 s
  | .phaseReset => Sys2Proof.Machine.execPhaseReset s
  | .resSuccess b => Sys2Proof.Machine.execResSuccess b s
  | .resParityError b => Sys2Proof.Machine.execResParityError b s
  | .popstEmpty => Sys2Proof.Machine.execPopstEmpty s
  | .popstNextArmed => Sys2Proof.Machine.execPopstNextArmed s
  | .popstNextWithheld => Sys2Proof.Machine.execPopstNextWithheld s
  | .stReady b => Sys2Proof.Machine.execStReady b s
  | .stBusy b => Sys2Proof.Machine.execStBusy b s
  | .pinIn => Sys2Proof.Machine.execPinIn s
  | .pinOut => Sys2Proof.Machine.execPinOut s
  -- micro-operations and marshaller primitives (Machine/Calls.lean)
  | .arm b => Sys2Proof.Machine.execArm b s
  | .complete b => Sys2Proof.Machine.execComplete b s
  | .push b => Sys2Proof.Machine.execPush b s
  | .remove b allow => Sys2Proof.Machine.execRemove b allow s
  | .pop => Sys2Proof.Machine.execPop s
  | .visitFirst f => Sys2Proof.Machine.execVisitFirst f s
  | .finish => Sys2Proof.Machine.execFinish s
  | .startReset => Sys2Proof.Machine.execStartReset s
  | .setFW w => Sys2Proof.Machine.execSetFW w s
  | .writeTX v => Sys2Proof.Machine.execWriteTX v s
  | .readRX => Sys2Proof.Machine.execReadRX s
  | .setPin d => Sys2Proof.Machine.execSetPin d s

end Sys2Proof.Machine
end

