-- ==== Sys2Proof/Machine/Fetch.lean ====
section
/-!
DEFINITION. What happens next (rule R192 of 60_exceptions.md): the entry of the script that is run, and the agent of the block
that moves when nothing is placed (log entry 1).
-/

namespace Sys2Proof.Machine

/-- The decoded operation of a slot is run; bits that are no operation are refused. -/
def runSlot (w : Slot) (s : State) : Res State :=
  match decode w with
  | .ok i => exec i s
  | .error e => .refused (.undecodable e)

/-- One entry of the script. -/
def runInput (x : Input) (s : State) : Res State :=
  match x with
  | .op w => runSlot w s
  | .callerWrite a b => callerWriteByte a b s
  | .callerRead a => callerReadByte a s
  | .queryReady i => callerReady i s
  | .queryResult i => callerResult i s
  | .queryParity => callerParity s

/-- The block on its own: a pending interrupt is served, else the exchange in flight goes on (never both by rule R35 item 7),
else the block is idle and takes no step (rules R34, R192). -/
def hardwareStep (s : State) : Res State :=
  if irqEnabled s then exec .irqEntry s
  else if s.xbusy then exec .bit s
  else .refused .idle

/-- The operation stored for the next fetch: a bare word of the opcode table in front of the script. Bits that have no format
are placed as a slot the decoder refuses. -/
def placeWord (nbits w : Nat) (s : State) : State :=
  match bareSlot nbits w with
  | some x => { s with script := .op x :: s.script }
  | none => { s with script := .op { word := 0#32, oper := 1#8, fmt := .guard1 } :: s.script }

end Sys2Proof.Machine
end

