-- ==== Sys2Proof/Machine/Step.lean ====
section
/-!
DEFINITION. One step: the next entry of the script, or the block on its own when nothing is placed.
-/

namespace Sys2Proof.Machine

/-- One step of the machine. -/
def step (s : State) : Host.Outcome State Fault Refusal :=
  match s.script with
  | [] => hardwareStep s
  | x :: rest => runInput x { s with script := rest }

/-- `s` with the operation that `decodeTableWord nbits w` reads placed where the next step fetches (log entry 1). -/
def State.withFetchWord (s : State) (nbits w : Nat) : State := placeWord nbits w s

end Sys2Proof.Machine
end

