-- ==== Sys2Proof/Safety.lean ====
section
/-!
DEFINITION. The terms in which claims about runs are stated: the steps of agents (rule R5), idle (rule R34), the invariants of
rule R35, and the states that the spec's rules give as results (rules R94, R113, R136, R152, R171).
-/

namespace Sys2Proof.Machine

/-! ### Agents -/

/-- The rows that are whole steps of an agent (rule R5), and the frames, which are runs of `BIT` steps (rule R170). The other
rows are parts of such steps: micro-operations, marshaller primitives, assignments of a code. -/
def isAgentStep : Instr → Bool
  | .startW _ | .startR _ | .cancel _ | .reset => true
  | .irqRequest _ | .irqAckR | .irqAckW | .irqWriteData1 _ | .irqWriteData2 _ | .irqWriteData3 _
  | .irqReadData1 _ | .irqReadData2 _ | .irqReadData3 _ | .irqReset _ => true
  | .irqEntry | .bit => true
  | .req8 _ _ _ _ | .reqDpW _ _ | .reqApW _ _ | .reqDpR _ _ | .reqApR _ _ => true
  | .ackTx5 | .ack5 _ _ _ | .ackOk _ _ | .ackWait _ _ | .ackFault _ _ => true
  | .rd1 _ | .rd2 _ | .rd3 _ _ _ | .clk0w12 | .clk0w13 | .clk0w8 => true
  | .wd1 _ | .wd2 _ | .wd3 _ _ | .rst16 => true
  | .h32 _ _ => true
  | .phaseRequest | .phaseAck | .phaseWriteData1 | .phaseWriteData2 | .phaseWriteData3
  | .phaseReadData1 | .phaseReadData2 | .phaseReadData3 | .phaseReset => false
  | .resSuccess _ | .resParityError _ | .popstEmpty | .popstNextArmed | .popstNextWithheld => false
  | .stReady _ | .stBusy _ | .pinIn | .pinOut => false
  | .arm _ | .complete _ | .push _ | .remove _ _ | .pop | .visitFirst _ | .finish | .startReset => false
  | .setFW _ | .writeTX _ | .readRX | .setPin _ => false

/-- The rows that are steps of `Caller` (rule R36): the host commands and the header write. -/
def isCallerStep : Instr → Bool
  | .startW _ | .startR _ | .cancel _ | .reset | .h32 _ _ => true
  | _ => false

/-- An entry of the script that is a step of an agent, or is refused. -/
def isAgentInput : Input → Bool
  | .op w =>
    match decode w with
    | .ok i => isAgentStep i
    | .error _ => true
  | .callerWrite _ _ | .callerRead _ | .queryReady _ | .queryResult _ | .queryParity => true

/-- The next step is one of an agent: the script is empty, or its first entry is an agent's. -/
def agentNext (s : State) : Prop := ∀ x, s.script.head? = some x → isAgentInput x = true

/-! ### Conditions -/

/-- No exchange in flight and none pending (rule R34). -/
def idle (s : State) : Prop := s.xbusy = false ∧ s.irqp = false

/-- The interrupt entry of phase `p` is due: the flag is set, the mask is clear, no exchange is in flight (rules R125, R190). -/
def entryDue (p : Phase) (s : State) : Prop :=
  s.irqp = true ∧ s.imask = false ∧ s.xbusy = false ∧ s.phase = p.code

/-- The first bit cycle of the frame of phase `p` is next: its exchange is in flight as `WriteTX` left it, with the given width
and pin direction (rules R72, R80, R167). -/
def frameDue (p : Phase) (w : FrameWidth) (d : Pin) (s : State) : Prop :=
  s.xbusy = true ∧ s.xcnt = 0#5 ∧ s.rxsh = 0#16 ∧ s.phase = p.code ∧ s.fw = w ∧ s.pin = d

/-- The header word of a buffer (rule R20). -/
def header (s : State) (i : BufIdx) : Word32 := s.mem.readWord (hdrAddr s.cfg i)

/-- The payload word of a buffer (rule R21). -/
def payload (s : State) (i : BufIdx) : Word32 := s.mem.readWord (payAddr s.cfg i)

/-! ### Invariants -/

/-- The frame width that goes with a phase (rule R35 item 8). -/
def widthOf : Phase → FrameWidth
  | .request => .w8
  | .ack => .w5
  | .readData1 => .w12
  | .readData2 => .w13
  | .writeData1 => .w13
  | .writeData2 => .w13
  | .readData3 => .w8
  | .writeData3 => .w8
  | .reset => .w16

/-- A write-data phase. -/
def isWritePhase : Phase → Bool
  | .writeData1 | .writeData2 | .writeData3 => true
  | _ => false

/-- A read-data phase. -/
def isReadPhase : Phase → Bool
  | .readData1 | .readData2 | .readData3 => true
  | _ => false

/-- The invariants of rule R35, with rules R22 (`OP[i]` and the header agree while the buffer is queued), R26, R27 (unused bits of
the marshaller's registers are 0), R30 (the mask is clear between steps), R54 (queued indices name buffers), the phase is one
of the nine, and the memory is canonical. Item 2 (at most one buffer is armed) is in the type: `ARMED` is one bit. -/
structure Inv (s : State) : Prop where
  /-- item 1 -/
  armedHasHead : s.armed = true → s.q ≠ []
  /-- item 3 -/
  resetPhaseUnarmed : s.phase = Phase.reset.code → s.prst = true ∧ s.armed = false
  /-- item 4 -/
  headIsArmed : s.q ≠ [] → s.prst = false → s.armed = true
  /-- item 5 -/
  activeIff : (s.xbusy = true ∨ s.irqp = true) ↔ (s.armed = true ∨ s.phase = Phase.reset.code)
  /-- item 6 -/
  busyIffQueued : ∀ i, s.st i = .busy ↔ i ∈ s.q
  /-- item 6 -/
  queueNodup : s.q.Nodup
  /-- item 7 -/
  notBoth : s.xbusy = true → s.irqp = false
  /-- item 7 -/
  countBelowWidth : s.xbusy = true → s.xcnt.toNat < s.fw.bits
  /-- item 8 -/
  widthMatches : ∀ p : Phase, s.phase = p.code → s.fw = widthOf p
  /-- item 8 -/
  resetCount : s.phase = Phase.reset.code → 1 ≤ s.rcnt.toNat ∧ s.rcnt.toNat ≤ 3
  /-- item 9 -/
  pinOutIff : s.pin = .output ↔ (s.phase = Phase.request.code ∧ s.armed = true) ∨
    (∃ p : Phase, s.phase = p.code ∧ (isWritePhase p = true ∨ p = .reset))
  /-- item 10 -/
  pendingReset : s.prst = true → s.phase = Phase.reset.code ∨ s.armed = true
  /-- item 11 -/
  dirOfHead : s.armed = true → ∀ h, s.q.head? = some h → s.dir = hdrDir (header s h) ∧ s.dir = s.op h
  /-- item 11 -/
  readPhaseDir : ∀ p : Phase, s.phase = p.code → isReadPhase p = true → s.dir = .read
  /-- item 11 -/
  writePhaseDir : ∀ p : Phase, s.phase = p.code → isWritePhase p = true → s.dir = .write
  /-- item 12 -/
  phaseArmed : ∀ p : Phase, s.phase = p.code → p ≠ .request → p ≠ .reset → s.armed = true
  /-- rule R11: codes 9 to 15 are unreachable -/
  phaseNamed : ∃ p : Phase, s.phase = p.code
  /-- rule R54 -/
  queueNamesBuffers : ∀ i, i ∈ s.q → i.val < s.cfg.nbuf
  /-- rule R22 -/
  opIsHeader : ∀ i, i ∈ s.q → s.op i = hdrDir (header s i)
  /-- rule R30 -/
  unmasked : s.imask = false
  /-- rule R26 -/
  txrFits : s.xbusy = true → s.txr.toNat < 2 ^ s.fw.bits
  /-- rule R27 -/
  rxshFits : s.xbusy = true → s.rxsh.toNat < 2 ^ s.xcnt.toNat
  /-- rule R27 -/
  rxrFits : s.irqp = true → s.rxr.toNat < 2 ^ s.fw.bits
  /-- the memory is canonical -/
  memCanonical : s.mem.wf

/-! ### Results that several rules share -/

/-- The exchange that `WriteTX(v)` starts, for a `v` that fits the width (rule R167). -/
def exchangeStarted (v : BitVec 16) (s : State) : State :=
  { s with txr := v, rxsh := 0#16, xcnt := 0#5, xbusy := true }

/-- The request byte `10paarn1` of a header word (rules R61, R63, R73). -/
def requestOf (h : Word32) : BitVec 8 :=
  reqWord (h.getLsbD 0) (h.getLsbD 1) (h.extractLsb' 2 2) (h.getLsbD 0 ^^ h.getLsbD 1 ^^ h.getLsbD 2 ^^ h.getLsbD 3)

/-- The result of `ARM(i)` (rule R94). -/
def armedWith (i : BufIdx) (s : State) : State :=
  exchangeStarted (0#8 ++ requestOf (header s i))
    { s with dir := Dir.ofBit ((header s i).getLsbD 1), armed := true, pin := .output }

/-- The result of `STARTRESET` (rule R152). -/
def lineResetStarted (s : State) : State :=
  exchangeStarted 0xFFFF#16 { s with pin := .output, fw := .w16, rcnt := 3#2, phase := Phase.reset.code }

/-- The command that starts buffer `i` in a direction (rules R91, R92). -/
def startOf (d : Dir) (i : BufIdx) : Instr :=
  match d with
  | .read => .startR i
  | .write => .startW i

/-- A start of buffer `i` has been recorded and queued, and nothing has been armed: the operation, header bit 1, the queue and
the lifecycle state are written (rules R91, R92, R111). -/
def queuedWith (d : Dir) (i : BufIdx) (s : State) : State :=
  { (s.setOp i d).setSt i .busy with
    mem := s.mem.writeWord (hdrAddr s.cfg i)
      (match d with
       | .read => header s i ||| 2#32
       | .write => header s i &&& 0xFFFFFFFD#32)
    q := s.q ++ [i] }

/-- The head `h` has been finished with `rest` behind it, and nothing has been started yet (rules R95, R113, R136). -/
def headFinished (h : BufIdx) (rest : List BufIdx) (s : State) : State :=
  { (s.setRes h (if s.ackr = 1#3 then .success else .parityError)).setSt h .ready with
    phase := Phase.request.code
    pin := .input
    q := rest
    armed := false
    evt := s.evt ++ [.cpl h (if s.ackr = 1#3 then .success else .parityError)] }

/-- What a terminal entry starts after the head has been finished: the four outcomes of rule R136. -/
def nextStarted (rest : List BufIdx) (s : State) : State :=
  if s.prst then lineResetStarted s
  else
    match rest with
    | [] => s
    | n :: _ => armedWith n s

/-- The end of a line reset, before the head is looked at (rule R153). -/
def lineResetEnded (s : State) : State :=
  { s with rcnt := 0#2, prst := false, fw := .w8, pin := .input, phase := Phase.request.code }

/-- `n` steps of `BIT`, one after the other (rule R170). -/
def bitRun : Nat → State → Res State
  | 0, s => .next s
  | n + 1, s => andThen (exec .bit s) (bitRun n)

/-- The cycles of a whole exchange: the bits `o` presented and the bits `b` sampled, in time order (rules R171, R174). -/
def cyclesOf (d : Pin) (o b : List Bool) : List WireCycle :=
  List.zipWith (fun x y => { oe := d.code, o := x, s := y }) o b

/-- The word whose bits in wire order are `b` (rules R6, R171). -/
def wordOfBits (b : List Bool) : BitVec 16 := (BitVec.ofBoolListLE b).setWidth 16

/-- The bits `b` are what the target answers in the next `b.length` cycles in which the pin is an input and 0 is presented (rule
R172; that they are given ahead, and then are free values of the wire so far, is log entry 5): as many given bits are taken in
order, and bit `k` is the given bit `k`, or, when they have run out, the oracle of the wire after `k` of these cycles. -/
def answeredBy (s : State) (b : List Bool) : Prop :=
  (∀ v rest, s.target = v ++ rest → v.length = b.length → b = v) ∧
  ∀ k, k < b.length → b[k]? = some (s.target[k]?.getD
    (Config.targetBit (s.wire ++ cyclesOf .input (List.replicate k false) (b.take k))))

/-- What was sampled in the cycles in which the host drove the pin, in time order (rules R172, R174). -/
def drivenSamples (c : List WireCycle) : List Bool := (c.filter (·.oe)).map (·.s)

/-- Who the bits of a frame come from: the host, whose transmit register holds the frame, or the target, which answers the frame's
bits in wire order. -/
inductive FrameBits where
  | host (v : BitVec 16)
  | target (b : List Bool)
deriving DecidableEq, Repr

/-- Where a row of a frame has its place, and its bits. -/
structure FrameRow where
  phase : Phase
  width : FrameWidth
  pin : Pin
  bits : FrameBits
deriving DecidableEq, Repr

/-- The request byte `10paarn1` as a transmit value (rule R61). -/
def requestBits (n r : Bool) (a : BitVec 2) (p : Bool) : FrameBits :=
  .host (0#8 ++ (0b10#2 ++ BitVec.ofBool p ++ a ++ BitVec.ofBool r ++ BitVec.ofBool n ++ 1#1))

/-- The acknowledge frame `daaat` (rule R65). -/
def ackBits (t : Bool) (a : BitVec 3) (d : Bool) : FrameBits := .target [t, a.getLsbD 0, a.getLsbD 1, a.getLsbD 2, d]

/-- The rows that are frames, each with its phase and width (rule R72), its pin direction (rules R61 to R71) and its bits. -/
def frameRow : Instr → Option FrameRow
  | .req8 n r a p => some ⟨.request, .w8, .output, requestBits n r a p⟩
  | .reqDpW a p => some ⟨.request, .w8, .output, requestBits false false a p⟩
  | .reqApW a p => some ⟨.request, .w8, .output, requestBits true false a p⟩
  | .reqDpR a p => some ⟨.request, .w8, .output, requestBits false true a p⟩
  | .reqApR a p => some ⟨.request, .w8, .output, requestBits true true a p⟩
  | .ackTx5 => some ⟨.ack, .w5, .input, .host 0#16⟩
  | .ack5 t a d => some ⟨.ack, .w5, .input, ackBits t a d⟩
  | .ackOk t d => some ⟨.ack, .w5, .input, ackBits t 0b001#3 d⟩
  | .ackWait t d => some ⟨.ack, .w5, .input, ackBits t 0b010#3 d⟩
  | .ackFault t d => some ⟨.ack, .w5, .input, ackBits t 0b100#3 d⟩
  | .rd1 d => some ⟨.readData1, .w12, .input, .target (wireBits d)⟩
  | .rd2 d => some ⟨.readData2, .w13, .input, .target (wireBits d)⟩
  | .rd3 d p t => some ⟨.readData3, .w8, .input, .target (wireBits d ++ [p, t])⟩
  | .clk0w12 => some ⟨.readData1, .w12, .input, .host 0#16⟩
  | .clk0w13 => some ⟨.readData2, .w13, .input, .host 0#16⟩
  | .clk0w8 => some ⟨.readData3, .w8, .input, .host 0#16⟩
  | .wd1 d => some ⟨.writeData1, .w13, .output, .host (0#3 ++ d)⟩
  | .wd2 d => some ⟨.writeData2, .w13, .output, .host (0#3 ++ d)⟩
  | .wd3 d p => some ⟨.writeData3, .w8, .output, .host (0#9 ++ BitVec.ofBool p ++ d)⟩
  | .rst16 => some ⟨.reset, .w16, .output, .host 0xFFFF#16⟩
  | _ => none

/-- The exchange in flight is complete: the word `rx` was received, the cycles `cs` happened (rules R171, R173). -/
def exchangeDone (rx : BitVec 16) (cs : List WireCycle) (s : State) : State :=
  { s with
    rxr := rx
    rxsh := rx
    xcnt := BitVec.ofNat 5 s.fw.bits
    xbusy := false
    irqp := true
    wire := s.wire ++ cs }

/-- The successors of `PHASE` (rule R137), and no change. -/
def phaseSuccessor (p p' : Phase) : Bool :=
  p == p' ||
  match p, p' with
  | .request, .ack | .ack, .readData1 | .ack, .writeData1 | .readData1, .readData2 | .readData2, .readData3
  | .readData3, .request | .readData3, .reset | .writeData1, .writeData2 | .writeData2, .writeData3
  | .writeData3, .request | .writeData3, .reset | .request, .reset | .reset, .request => true
  | _, _ => false

end Sys2Proof.Machine
end

