-- ==== Sys2Proof/Certificates/Slice0/Obligations.lean ====
section
/-!
DEFINITION. The statements for the provers. OBLIGATIONS.json says of each which rule of the spec it formalises.
The results that several rules share (`armedWith`, `headFinished`, `lineResetStarted`, `exchangeStarted`, …) are defined in
Safety.lean. Equations `exec i s = .next t` with `t` a record update of `s` say the whole frame: every field that the update
does not name is as before.
-/

open Sys2Proof Sys2Proof.Machine

/-! ### Encodings (30_encoding.md) -/

/-- Every well-formed operation is read back from its own encoding, with every operand at every value. -/
def Obligations.DecodeOfEncode : Prop :=
  ∀ i : Instr, i.wellFormed = true → decode (encode i) = .ok i

/-- What the decoder reads is well formed, and its encoding is the slot it was read from: no two slots mean one operation. -/
def Obligations.EncodeOfDecode : Prop :=
  ∀ (w : Slot) (i : Instr), decode w = .ok i → i.wellFormed = true ∧ encode i = w

/-- The bytes of an encoding are read back, and the bytes after them are left. -/
def Obligations.DecodeOfBytes : Prop :=
  ∀ (i : Instr) (rest : List Byte), i.wellFormed = true →
    decodeBytes ((encode i).toBytes ++ rest) = .ok (i, rest)

/-- Words written out from the spec's tables decode to the operations they stand for (rules R61, R65, R74, R76). Which format a
bare word of 8, 5, 4 or 16 bits is read in is the model's choice (log entry 8; so the 5 bits 01001 are a key, and none, though
they would be a legal ACK5 word), and so are the slots of the last three clauses (log entry 7). -/
def Obligations.TableWordsDecode : Prop :=
  decodeTableWord 8 0xFD = some (.startR 63) ∧
  decodeTableWord 8 0x0A = some (.cancel 2) ∧
  decodeTableWord 8 0x08 = some (.startW 2) ∧
  decodeTableWord 8 0x03 = some .reset ∧
  decodeTableWord 8 0x07 = none ∧
  decodeTableWord 5 0b10001 = some .irqAckR ∧
  decodeTableWord 5 0b00001 = some .irqAckW ∧
  decodeTableWord 5 0b01001 = none ∧
  decodeTableWord 4 8 = some .phaseReset ∧
  decodeTableWord 16 0xFFFF = some .rst16 ∧
  decode { word := 0xBD#32, oper := 0#8, fmt := .req } = .ok (.reqDpR 3#2 true) ∧
  decode { word := 0x12#32, oper := 0#8, fmt := .ack } = .ok (.ackOk false true) ∧
  decode { word := 0x8A#32, oper := 0#8, fmt := .rd3 } = .ok (.rd3 0b001010#6 false true)

/-- Unused encodings are refused by the step (rule R78): a RESET word with index bits, a phase code from 9 to 15 as key or as
stored code, pop status 3; and nothing of the state matters. -/
def Obligations.UnusedEncodingsRefused : Prop :=
  (∀ (s : State) (rest : List Input) (w : BitVec 8), w.extractLsb' 0 2 = 3#2 → w ≠ 3#8 →
    s.script = .op { word := w.setWidth 32, oper := 0#8, fmt := .cmd8 } :: rest →
    step s = .refused (.undecodable .reservedCommand)) ∧
  (∀ (s : State) (rest : List Input) (d : Bool) (c : BitVec 4), 9 ≤ c.toNat →
    s.script = .op { word := (BitVec.ofBool d ++ c).setWidth 32, oper := 0#8, fmt := .irqKey5 } :: rest →
    step s = .refused (.undecodable .reservedPhase)) ∧
  (∀ (s : State) (rest : List Input) (c : BitVec 4), 9 ≤ c.toNat →
    s.script = .op { word := c.setWidth 32, oper := 0#8, fmt := .phase4 } :: rest →
    step s = .refused (.undecodable .reservedPhase)) ∧
  (∀ (s : State) (rest : List Input),
    s.script = .op { word := 3#32, oper := 0#8, fmt := .popst } :: rest →
    step s = .refused (.undecodable .reservedPopStatus))

/-- The sixteen request bytes of rule R64, in the order of its table. -/
def Obligations.SixteenRequestBytes : Prop :=
  (List.range 16).map (fun v => reqByte (BitVec.ofNat 4 v)) =
    [0x81#8, 0xA3#8, 0xA5#8, 0x87#8, 0xA9#8, 0x8B#8, 0x8D#8, 0xAF#8, 0xB1#8, 0x93#8, 0x95#8, 0xB7#8, 0x99#8, 0xBB#8,
     0xBD#8, 0x9F#8]

/-! ### The step -/

/-- A step with a placed operation is `exec` of the operation decoded, at the state without that entry of the script. That the
script is where operations are placed is the model's choice (log entry 1). -/
def Obligations.StepRunsDecodedOperation : Prop :=
  ∀ (s : State) (w : Slot) (rest : List Input) (i : Instr),
    s.script = .op w :: rest → decode w = .ok i → step s = exec i { s with script := rest }

/-- A word of the opcode table placed for the next step is what the next step runs. -/
def Obligations.PlacedWordRunsNext : Prop :=
  ∀ (s : State) (nbits w : Nat) (i : Instr),
    decodeTableWord nbits w = some i → step (s.withFetchWord nbits w) = exec i s

/-- With nothing placed the block moves by itself: a pending interrupt is served, else the exchange in flight goes on, else
there is no step (rules R34, R171, R190; that the block moves exactly when nothing is placed is the model's choice, log
entry 1). -/
def Obligations.BlockMovesByItself : Prop :=
  ∀ s : State, s.script = [] →
    (s.irqp = true → s.imask = false → step s = exec .irqEntry s) ∧
    (s.irqp = false → s.xbusy = true → step s = exec .bit s) ∧
    (s.irqp = false → s.xbusy = false → step s = .refused .idle)

/-! ### Host commands (40_transfer_buffer.md, 43_reset_sequencer.md) -/

/-- A start on an idle block with an empty queue and no line reset pending records the operation, writes header bit 1, queues
the buffer, sets it BUSY and arms it, and returns true (rules R91, R92, R94, R111). -/
def Obligations.StartArmsOnIdleBlock : Prop :=
  ∀ (s : State) (i : BufIdx) (d : Dir), i.val < s.cfg.nbuf → s.st i = .ready →
    s.q = [] → s.prst = false → s.armed = false → s.phase = 0#4 → s.fw = .w8 → idle s →
    exec (startOf d i) s = .next { armedWith i (queuedWith d i s) with ret := .bool true }

/-- A start behind other buffers, or while a line reset is pending, is recorded and queued and arms nothing (rules R91, R92). -/
def Obligations.StartQueuesWithoutArming : Prop :=
  ∀ (s : State) (i : BufIdx) (d : Dir), i.val < s.cfg.nbuf → s.st i = .ready → i ∉ s.q →
    (s.q ≠ [] ∨ s.prst = true) →
    exec (startOf d i) s = .next { queuedWith d i s with ret := .bool true }

/-- A rejected command returns false and changes nothing: a start of a BUSY buffer (rule R185), a cancel of a READY buffer or of
the armed head (rule R186). -/
def Obligations.RejectedCommands : Prop :=
  ∀ (s : State) (i : BufIdx), i.val < s.cfg.nbuf →
    (s.st i = .busy → ∀ d, exec (startOf d i) s = .next { s with ret := .bool false }) ∧
    (s.st i = .ready ∨ (s.q.head? = some i ∧ s.armed = true) →
      exec (.cancel i) s = .next { s with ret := .bool false })

/-- An accepted start writes header bit 1 and nothing else of buffer memory: the other 31 header bits and every byte outside
the four header bytes read as before (rules R73, R91, R92). -/
def Obligations.StartWritesOnlyHeaderBit : Prop :=
  ∀ (s t : State) (i : BufIdx) (d : Dir), s.mem.wf → exec (startOf d i) s = .next t → t.ret = .bool true →
    (header t i).getLsbD 1 = d.bit ∧
    (∀ k, k ≠ 1 → (header t i).getLsbD k = (header s i).getLsbD k) ∧
    (∀ a, a < hdrAddr s.cfg i ∨ hdrAddr s.cfg i + 4 ≤ a → t.mem.read a = s.mem.read a)

/-- A cancel of a queued buffer that is not the armed head takes it out of the queue, makes it READY and emits CANCELLED; its
result, operation and header stay (rule R93). -/
def Obligations.CancelOfUnarmedBuffer : Prop :=
  ∀ (s : State) (i : BufIdx), i.val < s.cfg.nbuf → s.st i = .busy → i ∈ s.q →
    ¬(s.q.head? = some i ∧ s.armed = true) →
    exec (.cancel i) s =
      .next { s.setSt i .ready with q := s.q.erase i, evt := s.evt ++ [.cancelled i], ret := .bool true }

/-- The command RESET (rules R151, R152): a no-op while a line reset is pending or running; on an empty queue the sequence
starts in the same step; behind a queued transfer only the flag is set. -/
def Obligations.ResetCommand : Prop :=
  ∀ s : State,
    (s.prst = true → exec .reset s = .next { s with ret := .nothing }) ∧
    (s.prst = false → s.q ≠ [] → exec .reset s = .next { s with prst := true, ret := .nothing }) ∧
    (s.prst = false → s.q = [] → s.armed = false → s.phase = 0#4 → idle s →
      exec .reset s = .next { lineResetStarted { s with prst := true } with ret := .nothing })

/-- A command with an index at or above NBUF is refused (rules R54, R78). -/
def Obligations.IndexWithoutBufferRefused : Prop :=
  ∀ (s : State) (i : BufIdx), s.cfg.nbuf ≤ i.val →
    (∀ d, exec (startOf d i) s = .refused .noSuchBuffer) ∧ exec (.cancel i) s = .refused .noSuchBuffer

/-- What the steps of Caller never write (rule R36): ACC, ACKR, RPAR, RES, RXR, IRQP, the wire; the mask is clear again
(rule R189); no event but CANCELLED is emitted. RXSH, which the table of rule R36 gives to the bit cycles, is left out: a command
that starts an exchange clears it (rule R167; log entry 26). -/
def Obligations.CallerStepsOwnership : Prop :=
  ∀ (i : Instr) (s t : State), isCallerStep i = true → exec i s = .next t →
    t.acc = s.acc ∧ t.ackr = s.ackr ∧ t.rpar = s.rpar ∧ t.rxr = s.rxr ∧ t.irqp = s.irqp ∧ t.wire = s.wire ∧
    t.imask = s.imask ∧ (∀ j, t.res j = s.res j) ∧ (t.evt = s.evt ∨ ∃ j, t.evt = s.evt ++ [.cancelled j])

/-! ### Interrupt entries (42_protocol_fsm.md, 43_reset_sequencer.md) -/

/-- `IRQ.REQUEST` (rule R127). -/
def Obligations.EntryRequest : Prop :=
  ∀ (s : State) (d : Bool), entryDue .request s →
    exec (.irqRequest d) s = .next (exchangeStarted 0#16
      { s with irqp := false, pin := .input, fw := .w5, phase := 1#4 })

/-- `IRQ.ACK.R` (rule R128): ACKR is `rx[3:1]`, ACC is the zero-extended `rx[4]`. -/
def Obligations.EntryAckOfRead : Prop :=
  ∀ s : State, entryDue .ack s → s.dir = .read →
    exec .irqAckR s = .next (exchangeStarted 0#16
      { s with irqp := false, ackr := s.rxr.extractLsb' 1 3, acc := 0#31 ++ s.rxr.extractLsb' 4 1, fw := .w12, phase := 5#4 })

/-- `IRQ.ACK.W` (rule R129): ACKR is `rx[3:1]`, the low 13 bits of the head's payload word go out, the other 19 and the parity
are stashed in ACC. -/
def Obligations.EntryAckOfWrite : Prop :=
  ∀ (s : State) (h : BufIdx) (rest : List BufIdx), entryDue .ack s → s.dir = .write → s.q = h :: rest →
    h.val < s.cfg.nbuf →
    exec .irqAckW s = .next (exchangeStarted (0#3 ++ (payload s h).extractLsb' 0 13)
      { s with
        irqp := false
        ackr := s.rxr.extractLsb' 1 3
        pin := .output
        fw := .w13
        acc := 0#12 ++ BitVec.ofBool (xorfold (payload s h)) ++ (payload s h).extractLsb' 13 19
        phase := 2#4 })

/-- `IRQ.READ_DATA1` (rule R130): `ACC[12:1] <- rx[11:0]`; `IRQ.READ_DATA2` (rule R131): `ACC[25:13] <- rx[12:0]`. -/
def Obligations.EntryReadDataOneTwo : Prop :=
  (∀ (s : State) (d : Bool), entryDue .readData1 s →
    exec (.irqReadData1 d) s = .next (exchangeStarted 0#16
      { s with
        irqp := false
        acc := s.acc.extractLsb' 13 19 ++ s.rxr.extractLsb' 0 12 ++ s.acc.extractLsb' 0 1
        fw := .w13
        phase := 6#4 })) ∧
  (∀ (s : State) (d : Bool), entryDue .readData2 s →
    exec (.irqReadData2 d) s = .next (exchangeStarted 0#16
      { s with
        irqp := false
        acc := s.acc.extractLsb' 26 6 ++ s.rxr.extractLsb' 0 13 ++ s.acc.extractLsb' 0 13
        fw := .w8
        phase := 7#4 }))

/-- `IRQ.READ_DATA3` (rules R132, R136): `ACC[31:26] <- rx[5:0]`, RPAR is `rx[6]`, the word is stored in the head's payload, the
head is finished, and what is due is started. -/
def Obligations.EntryReadDataThree : Prop :=
  ∀ (s : State) (d : Bool) (h : BufIdx) (rest : List BufIdx), entryDue .readData3 s → s.q = h :: rest → s.armed = true →
    s.fw = .w8 → h.val < s.cfg.nbuf → (∀ n, rest.head? = some n → n.val < s.cfg.nbuf) →
    exec (.irqReadData3 d) s = .next (nextStarted rest (headFinished h rest
      { s with
        irqp := false
        acc := s.rxr.extractLsb' 0 6 ++ s.acc.extractLsb' 0 26
        rpar := s.rxr.getLsbD 6
        mem := s.mem.writeWord (payAddr s.cfg h) (s.rxr.extractLsb' 0 6 ++ s.acc.extractLsb' 0 26) }))

/-- The store of `IRQ.READ_DATA3` (rule R132): the head's payload word reads as the assembled word, every byte outside its four
bytes reads as before, and ACC holds the same word. -/
def Obligations.ReadDataThreeStores : Prop :=
  ∀ (s t : State) (d : Bool) (h : BufIdx), s.mem.wf → s.q.head? = some h → exec (.irqReadData3 d) s = .next t →
    payload t h = s.rxr.extractLsb' 0 6 ++ s.acc.extractLsb' 0 26 ∧ t.acc = payload t h ∧
    (∀ a, a < payAddr s.cfg h ∨ payAddr s.cfg h + 4 ≤ a → t.mem.read a = s.mem.read a)

/-- `IRQ.WRITE_DATA1` (rule R133): the next 13 stashed bits go out, ACC is shifted right by 13. `IRQ.WRITE_DATA2` (rule R134): the
remaining 8 bits go out, ACC is left unchanged. -/
def Obligations.EntryWriteDataOneTwo : Prop :=
  (∀ (s : State) (d : Bool), entryDue .writeData1 s → s.fw = .w13 →
    exec (.irqWriteData1 d) s = .next (exchangeStarted (0#3 ++ s.acc.extractLsb' 0 13)
      { s with irqp := false, acc := 0#13 ++ s.acc.extractLsb' 13 19, phase := 3#4 })) ∧
  (∀ (s : State) (d : Bool), entryDue .writeData2 s →
    exec (.irqWriteData2 d) s = .next (exchangeStarted (0#8 ++ s.acc.extractLsb' 0 8)
      { s with irqp := false, fw := .w8, phase := 4#4 }))

/-- `IRQ.WRITE_DATA3` (rules R135, R136): the head is finished, and what is due is started. -/
def Obligations.EntryWriteDataThree : Prop :=
  ∀ (s : State) (d : Bool) (h : BufIdx) (rest : List BufIdx), entryDue .writeData3 s → s.q = h :: rest → s.armed = true →
    s.fw = .w8 → (∀ n, rest.head? = some n → n.val < s.cfg.nbuf) →
    exec (.irqWriteData3 d) s = .next (nextStarted rest (headFinished h rest { s with irqp := false }))

/-- `IRQ.RESET` (rule R153): another all-ones word while the counter does not reach 0; at 0 the line reset ends, and the head,
if there is one, is armed. -/
def Obligations.EntryLineReset : Prop :=
  ∀ (s : State) (d : Bool), entryDue .reset s → s.armed = false →
    (s.rcnt ≠ 1#2 → s.fw = .w16 →
      exec (.irqReset d) s = .next (exchangeStarted 0xFFFF#16 { s with irqp := false, rcnt := s.rcnt - 1#2 })) ∧
    (s.rcnt = 1#2 → s.q = [] → exec (.irqReset d) s = .next (lineResetEnded { s with irqp := false })) ∧
    (∀ h rest, s.rcnt = 1#2 → s.q = h :: rest → h.val < s.cfg.nbuf →
      exec (.irqReset d) s = .next (armedWith h (lineResetEnded { s with irqp := false })))

/-- The interrupt entry dispatches on `{DIR, PHASE}` (rules R74, R125): it is the row that the key selects, and a phase code
from 9 to 15 is fault BadPhase (rule R188). -/
def Obligations.InterruptDispatches : Prop :=
  ∀ s : State, s.irqp = true → s.imask = false → s.xbusy = false →
    (s.phase = 0#4 → exec .irqEntry s = exec (.irqRequest s.dir.bit) s) ∧
    (s.phase = 1#4 → s.dir = .read → exec .irqEntry s = exec .irqAckR s) ∧
    (s.phase = 1#4 → s.dir = .write → exec .irqEntry s = exec .irqAckW s) ∧
    (s.phase = 2#4 → exec .irqEntry s = exec (.irqWriteData1 s.dir.bit) s) ∧
    (s.phase = 3#4 → exec .irqEntry s = exec (.irqWriteData2 s.dir.bit) s) ∧
    (s.phase = 4#4 → exec .irqEntry s = exec (.irqWriteData3 s.dir.bit) s) ∧
    (s.phase = 5#4 → exec .irqEntry s = exec (.irqReadData1 s.dir.bit) s) ∧
    (s.phase = 6#4 → exec .irqEntry s = exec (.irqReadData2 s.dir.bit) s) ∧
    (s.phase = 7#4 → exec .irqEntry s = exec (.irqReadData3 s.dir.bit) s) ∧
    (s.phase = 8#4 → exec .irqEntry s = exec (.irqReset s.dir.bit) s) ∧
    (9 ≤ s.phase.toNat → exec .irqEntry s = .fault .badPhase)

/-- In a state that meets the invariants, a due interrupt entry completes: one step, which clears the flag it was taken for
(rules R125, R193, R194), and serves it whatever the mask said before the command that is over. -/
def Obligations.DueInterruptCompletes : Prop :=
  ∀ s : State, Inv s → s.irqp = true → ∃ t, exec .irqEntry s = .next t ∧ t.irqp = false ∧ t.wire = s.wire

/-- No step of an agent whose guard is false (rules R171, R190): an interrupt entry without the flag or under the mask, and a
bit cycle without an exchange, are refused. The last two clauses are the model's choice where two of the assertions of rule
R188 meet, or where the rule names no fault (log entries 13 and 14): `ReadRX` while an exchange is in flight, and `SetFW` of an
illegal width while one is. -/
def Obligations.FalseGuardRefused : Prop :=
  ∀ s : State,
    (s.irqp = false ∨ s.imask = true → ∀ (e : Entry) (d : Bool), exec (e.instr d) s = .refused .notEnabled ∧
      exec .irqEntry s = .refused .notEnabled) ∧
    (s.xbusy = false → exec .bit s = .refused .notEnabled) ∧
    (s.xbusy = true → exec .readRX s = .fault .busyAccess) ∧
    (s.xbusy = true → ∀ w : Word32, w ≠ 5#32 → w ≠ 8#32 → w ≠ 12#32 → w ≠ 13#32 → w ≠ 16#32 →
      exec (.setFW w) s = .fault .badWidth)

/-- The four pieces of a read reassemble (rules R67, R141): for every data word, ACK code, parity and turnaround samples, the
words that the four exchanges receive leave the data word in ACC and in the head's payload. -/
def Obligations.ReadReassemblesWord : Prop :=
  ∀ (s s1 s2 s3 s4 : State) (h : BufIdx) (D : Word32) (a : BitVec 3) (q t0 t1 : Bool),
    s.mem.wf → s.q.head? = some h →
    exec .irqAckR { s with rxr := 0#11 ++ D.extractLsb' 0 1 ++ a ++ BitVec.ofBool t0 } = .next s1 →
    exec (.irqReadData1 true) { s1 with rxr := 0#4 ++ D.extractLsb' 1 12, irqp := true, xbusy := false } = .next s2 →
    exec (.irqReadData2 true) { s2 with rxr := 0#3 ++ D.extractLsb' 13 13, irqp := true, xbusy := false } = .next s3 →
    exec (.irqReadData3 true)
      { s3 with rxr := 0#8 ++ BitVec.ofBool t1 ++ BitVec.ofBool q ++ D.extractLsb' 26 6, irqp := true, xbusy := false }
      = .next s4 →
    s4.acc = D ∧ payload s4 h = D ∧ s4.rpar = q ∧ s4.ackr = a ∧
      s4.res h = (if a = 0b001#3 then .success else .parityError)

/-- The three frames of a write are the payload word, its even parity and a 0, in wire order (rules R69, R142): 13, 13 and 8
bits. -/
def Obligations.WriteSplitsWord : Prop :=
  ∀ (s s1 s2 s3 : State) (h : BufIdx), s.q.head? = some h →
    exec .irqAckW s = .next s1 →
    exec (.irqWriteData1 false) { s1 with irqp := true, xbusy := false } = .next s2 →
    exec (.irqWriteData2 false) { s2 with irqp := true, xbusy := false } = .next s3 →
    s3.txr.extractLsb' 0 8 ++ s2.txr.extractLsb' 0 13 ++ s1.txr.extractLsb' 0 13
      = 0#1 ++ BitVec.ofBool (xorfold (payload s h)) ++ payload s h ∧
    s1.fw = .w13 ∧ s2.fw = .w13 ∧ s3.fw = .w8 ∧ s1.pin = .output ∧ s2.pin = .output ∧ s3.pin = .output

/-! ### The marshaller (44_serial_marshaller.md) -/

/-- One bit cycle (rules R171, R172, R173): there is one exactly with an exchange in flight; it presents `TXR[k]`, puts the
sampled bit in `RXSH[k]` and leaves its other bits, appends the triple to the wire, counts; the last one of the exchange loads
RXR, frees the marshaller and sets the flag. The sampled bit is the target's while the pin is an input, and a free value while
it is an output. Where the bit comes from is the model's form of rule R172, its own choice: the counter of free values (log entry
4), and the bits given ahead and after them the oracle of the wire (log entry 5). -/
def Obligations.BitCycle : Prop :=
  ∀ s : State, (s.xbusy = false → exec .bit s = .refused .notEnabled) ∧
    (s.xbusy = true → s.xcnt.toNat < s.fw.bits → ∃ (b : Bool) (t : State),
    exec .bit s = .next t ∧
    t.wire = s.wire ++ [{ oe := s.pin.code, o := s.txr.getLsbD s.xcnt.toNat, s := b }] ∧
    (∀ j, t.rxsh.getLsbD j = if j = s.xcnt.toNat then b else s.rxsh.getLsbD j) ∧
    t.xcnt.toNat = s.xcnt.toNat + 1 ∧
    (s.xcnt.toNat + 1 = s.fw.bits → t.rxr = t.rxsh ∧ t.xbusy = false ∧ t.irqp = true) ∧
    (s.xcnt.toNat + 1 < s.fw.bits → t.rxr = s.rxr ∧ t.xbusy = true ∧ t.irqp = s.irqp) ∧
    (s.pin = .output → b = Config.drawBit s.draws ∧ t.draws = s.draws + 1 ∧ t.target = s.target) ∧
    (s.pin = .input → t.draws = s.draws ∧ t.target = s.target.tail ∧
      b = s.target.head?.getD (Config.targetBit s.wire)) ∧
    t = { s with
      wire := t.wire, rxsh := t.rxsh, xcnt := t.xcnt, rxr := t.rxr, xbusy := t.xbusy, irqp := t.irqp, draws := t.draws,
      target := t.target })

/-- A frame of the target is received as it is (rules R65, R66, R67, R171): after its exchange RXR is the frame, the cycles are
undriven with the frame's bits sampled in wire order, and the flag is set. -/
def Obligations.TargetFramesReceived : Prop :=
  (∀ (s : State) (t d : Bool) (a : BitVec 3), frameDue .ack .w5 .input s →
    exec (.ack5 t a d) s = .next (exchangeDone (0#11 ++ BitVec.ofBool d ++ a ++ BitVec.ofBool t)
      (cyclesOf .input (wireBits (s.txr.setWidth 5)) [t, a.getLsbD 0, a.getLsbD 1, a.getLsbD 2, d]) s)) ∧
  (∀ (s : State) (t d : Bool), frameDue .ack .w5 .input s →
    exec (.ackOk t d) s = .next (exchangeDone (0#11 ++ BitVec.ofBool d ++ 0b001#3 ++ BitVec.ofBool t)
      (cyclesOf .input (wireBits (s.txr.setWidth 5)) [t, true, false, false, d]) s) ∧
    exec (.ackWait t d) s = .next (exchangeDone (0#11 ++ BitVec.ofBool d ++ 0b010#3 ++ BitVec.ofBool t)
      (cyclesOf .input (wireBits (s.txr.setWidth 5)) [t, false, true, false, d]) s) ∧
    exec (.ackFault t d) s = .next (exchangeDone (0#11 ++ BitVec.ofBool d ++ 0b100#3 ++ BitVec.ofBool t)
      (cyclesOf .input (wireBits (s.txr.setWidth 5)) [t, false, false, true, d]) s)) ∧
  (∀ (s : State) (d : BitVec 12), frameDue .readData1 .w12 .input s →
    exec (.rd1 d) s = .next (exchangeDone (0#4 ++ d)
      (cyclesOf .input (wireBits (s.txr.setWidth 12)) (wireBits d)) s)) ∧
  (∀ (s : State) (d : BitVec 13), frameDue .readData2 .w13 .input s →
    exec (.rd2 d) s = .next (exchangeDone (0#3 ++ d)
      (cyclesOf .input (wireBits (s.txr.setWidth 13)) (wireBits d)) s)) ∧
  (∀ (s : State) (d : BitVec 6) (p t : Bool), frameDue .readData3 .w8 .input s →
    exec (.rd3 d p t) s = .next (exchangeDone (0#8 ++ BitVec.ofBool t ++ BitVec.ofBool p ++ d)
      (cyclesOf .input (wireBits (s.txr.setWidth 8)) (wireBits d ++ [p, t])) s))

/-- A frame of the host goes out as it is (rules R61, R62, R69, R70, R171, R172): the exchange whose transmit register holds the
frame drives its bits in wire order, least significant first; what is sampled are free values; the flag is set. -/
def Obligations.HostFramesSent : Prop :=
  (∀ (s : State) (n r : Bool) (a : BitVec 2) (p : Bool), frameDue .request .w8 .output s →
    s.txr = 0#8 ++ (0b10#2 ++ BitVec.ofBool p ++ a ++ BitVec.ofBool r ++ BitVec.ofBool n ++ 1#1) →
    ∃ b : List Bool, b.length = 8 ∧ exec (.req8 n r a p) s = .next (exchangeDone (wordOfBits b)
      (cyclesOf .output [true, n, r, a.getLsbD 0, a.getLsbD 1, p, false, true] b) { s with draws := s.draws + 8 }) ∧
      exec (namedReq n r a p) s = exec (.req8 n r a p) s) ∧
  (∀ (s : State) (d : BitVec 13), frameDue .writeData1 .w13 .output s → s.txr = 0#3 ++ d →
    ∃ b : List Bool, b.length = 13 ∧ exec (.wd1 d) s = .next (exchangeDone (wordOfBits b)
      (cyclesOf .output (wireBits d) b) { s with draws := s.draws + 13 })) ∧
  (∀ (s : State) (d : BitVec 13), frameDue .writeData2 .w13 .output s → s.txr = 0#3 ++ d →
    ∃ b : List Bool, b.length = 13 ∧ exec (.wd2 d) s = .next (exchangeDone (wordOfBits b)
      (cyclesOf .output (wireBits d) b) { s with draws := s.draws + 13 })) ∧
  (∀ (s : State) (d : BitVec 6) (p : Bool), frameDue .writeData3 .w8 .output s → s.txr = 0#9 ++ BitVec.ofBool p ++ d →
    ∃ b : List Bool, b.length = 8 ∧ exec (.wd3 d p) s = .next (exchangeDone (wordOfBits b)
      (cyclesOf .output (wireBits d ++ [p, false]) b) { s with draws := s.draws + 8 })) ∧
  (∀ s : State, frameDue .reset .w16 .output s → s.txr = 0xFFFF#16 →
    ∃ b : List Bool, b.length = 16 ∧ exec .rst16 s = .next (exchangeDone (wordOfBits b)
      (cyclesOf .output (List.replicate 16 true) b) { s with draws := s.draws + 16 }))

/-- A clock-only frame (rule R71): in the place where it is due it completes; the value 0 is presented while the pin is an input,
so no cycle is driven; what is received is what the target answers (rule R172; `answeredBy`, log entry 5). -/
def Obligations.ClockOnlyFrames : Prop :=
  ∀ s : State, s.txr = 0#16 →
    (frameDue .ack .w5 .input s → ∃ b : List Bool, b.length = 5 ∧ answeredBy s b ∧
      exec .ackTx5 s = .next (exchangeDone (wordOfBits b) (cyclesOf .input (List.replicate 5 false) b)
        { s with target := s.target.drop 5 })) ∧
    (frameDue .readData1 .w12 .input s → ∃ b : List Bool, b.length = 12 ∧ answeredBy s b ∧
      exec .clk0w12 s = .next (exchangeDone (wordOfBits b) (cyclesOf .input (List.replicate 12 false) b)
        { s with target := s.target.drop 12 })) ∧
    (frameDue .readData2 .w13 .input s → ∃ b : List Bool, b.length = 13 ∧ answeredBy s b ∧
      exec .clk0w13 s = .next (exchangeDone (wordOfBits b) (cyclesOf .input (List.replicate 13 false) b)
        { s with target := s.target.drop 13 })) ∧
    (frameDue .readData3 .w8 .input s → ∃ b : List Bool, b.length = 8 ∧ answeredBy s b ∧
      exec .clk0w8 s = .next (exchangeDone (wordOfBits b) (cyclesOf .input (List.replicate 8 false) b)
        { s with target := s.target.drop 8 }))

/-- An exchange is its bit cycles (rule R170): running a frame, any row of `frameRow`, in its place is running the steps of BIT,
with the bits of a frame of the target put before what it answers (the model's reading of these rows, log entry 6). -/
def Obligations.FrameIsItsBitCycles : Prop :=
  ∀ (s : State) (i : Instr) (f : FrameRow), frameRow i = some f → frameDue f.phase f.width f.pin s →
    (∀ v, f.bits = .host v → s.txr = v → exec i s = bitRun f.width.bits s) ∧
    (∀ b, f.bits = .target b → exec i s = bitRun f.width.bits { s with target := b ++ s.target })

/-- A frame that is not the one in flight has no step: without an exchange, after its first bit cycle, or where the exchange is of
another phase, width or pin direction or its transmit register holds another value, the row is refused (rules R72, R80; what
running a frame means is the model's reading, log entry 6). -/
def Obligations.FrameOutOfPlaceRefused : Prop :=
  ∀ (s : State) (i : Instr) (f : FrameRow), frameRow i = some f →
    (s.xbusy = false ∨ s.xcnt ≠ 0#5 ∨ s.phase ≠ f.phase.code ∨ s.fw ≠ f.width ∨ s.pin ≠ f.pin ∨
      ∃ v, f.bits = .host v ∧ s.txr ≠ v) →
    exec i s = .refused .frameNotInFlight

/-! ### Stored words and codes (rule R7; that a code row is the assignment of the code is the model's reading, log entry 6) -/

/-- The phase codes of rule R11: the row of a phase writes its code into PHASE, and nothing else. -/
def Obligations.PhaseCodes : Prop :=
  ∀ s : State,
    exec .phaseRequest s = .next { s with phase := 0#4 } ∧
    exec .phaseAck s = .next { s with phase := 1#4 } ∧
    exec .phaseWriteData1 s = .next { s with phase := 2#4 } ∧
    exec .phaseWriteData2 s = .next { s with phase := 3#4 } ∧
    exec .phaseWriteData3 s = .next { s with phase := 4#4 } ∧
    exec .phaseReadData1 s = .next { s with phase := 5#4 } ∧
    exec .phaseReadData2 s = .next { s with phase := 6#4 } ∧
    exec .phaseReadData3 s = .next { s with phase := 7#4 } ∧
    exec .phaseReset s = .next { s with phase := 8#4 }

/-- The codes of RES and ST (rules R23, R24, R75) are written for one buffer, whose other registers stay, and the codes of PIN
(rule R32); nothing else is written. That an index at or above NBUF, which names no buffer (rule R54), is refused in these rows as well is the
model's reading (log entry 19). -/
def Obligations.RegisterCodes : Prop :=
  (∀ (s : State) (i : BufIdx), i.val < s.cfg.nbuf →
    exec (.resSuccess i) s = .next { s with
      bufs := s.bufs.set i.val { op := s.op i, st := s.st i, res := .success } } ∧
    exec (.resParityError i) s = .next { s with
      bufs := s.bufs.set i.val { op := s.op i, st := s.st i, res := .parityError } } ∧
    exec (.stReady i) s = .next { s with
      bufs := s.bufs.set i.val { op := s.op i, st := .ready, res := s.res i } } ∧
    exec (.stBusy i) s = .next { s with
      bufs := s.bufs.set i.val { op := s.op i, st := .busy, res := s.res i } }) ∧
  (∀ (s : State) (i : BufIdx), s.cfg.nbuf ≤ i.val →
    exec (.resSuccess i) s = .refused .noSuchBuffer ∧ exec (.resParityError i) s = .refused .noSuchBuffer ∧
    exec (.stReady i) s = .refused .noSuchBuffer ∧ exec (.stBusy i) s = .refused .noSuchBuffer) ∧
  (∀ s : State, exec .pinIn s = .next { s with pin := .input } ∧ exec .pinOut s = .next { s with pin := .output })

/-- What a pop status decides (rules R77, R136): NEXT_ARMED starts nothing; EMPTY and NEXT_WITHHELD start the line reset exactly
when one is pending. -/
def Obligations.PopStatusDecides : Prop :=
  ∀ s : State,
    exec .popstNextArmed s = .next { s with ret := .popStatus .nextArmed } ∧
    (s.prst = false →
      exec .popstEmpty s = .next { s with ret := .popStatus .empty } ∧
      exec .popstNextWithheld s = .next { s with ret := .popStatus .nextWithheld }) ∧
    (s.prst = true → s.armed = false → s.phase = 0#4 → idle s →
      exec .popstEmpty s = .next { lineResetStarted s with ret := .popStatus .empty } ∧
      exec .popstNextWithheld s = .next { lineResetStarted s with ret := .popStatus .nextWithheld })

/-- The header word (rules R20, R42, R52, R73): Caller writes all 32 bits of a READY buffer's header, in the four bytes at
`i * (4 + PAYCAP)`, and no other byte; a BUSY buffer's header is refused. -/
def Obligations.HeaderWrite : Prop :=
  ∀ (s : State) (i : BufIdx) (h : Word32), i.val < s.cfg.nbuf →
    (s.st i = .ready → ∃ m : Memory, exec (.h32 i h) s = .next { s with mem := m, ret := .nothing } ∧
      (s.mem.wf → m.wf ∧
        m.read (i.val * (4 + s.cfg.paycap)) = h.extractLsb' 0 8 ∧
        m.read (i.val * (4 + s.cfg.paycap) + 1) = h.extractLsb' 8 8 ∧
        m.read (i.val * (4 + s.cfg.paycap) + 2) = h.extractLsb' 16 8 ∧
        m.read (i.val * (4 + s.cfg.paycap) + 3) = h.extractLsb' 24 8 ∧
        ∀ a, a < i.val * (4 + s.cfg.paycap) ∨ i.val * (4 + s.cfg.paycap) + 4 ≤ a → m.read a = s.mem.read a)) ∧
    (s.st i = .busy → exec (.h32 i h) s = .refused .busyBuffer)

/-! ### Micro-operations (40_transfer_buffer.md, 41_transfer_queue.md, 42_protocol_fsm.md, 43_reset_sequencer.md) -/

/-- `ARM(i)` (rule R94): under its precondition the direction is bit 1 of the header, the head is armed, the pin drives and the
exchange of the request byte starts; otherwise fault BadArm. -/
def Obligations.ArmCall : Prop :=
  ∀ (s : State) (i : BufIdx), i.val < s.cfg.nbuf →
    (s.q.head? = some i ∧ s.armed = false ∧ s.prst = false ∧ s.phase = 0#4 ∧ s.fw = .w8 ∧ idle s →
      exec (.arm i) s = .next { armedWith i s with ret := .nothing }) ∧
    (¬(s.q.head? = some i ∧ s.armed = false ∧ s.prst = false ∧ s.phase = 0#4 ∧ s.fw = .w8 ∧ idle s) →
      exec (.arm i) s = .fault .badArm)

/-- `COMPLETE(i)` (rule R95): the buffer is READY, the event carries its result. -/
def Obligations.CompleteCall : Prop :=
  ∀ (s : State) (i : BufIdx), i.val < s.cfg.nbuf →
    exec (.complete i) s = .next { s.setSt i .ready with evt := s.evt ++ [.cpl i (s.res i)], ret := .nothing }

/-- `PUSH(i)` (rule R111): insertion at the tail, the answer says whether the queue was empty; a queued buffer is fault DoublePush.
`REMOVE(i, allow)` (rule R112): what is not queued, and the armed head, stay; anything else is deleted, the order of the rest
kept; the armed head with `allow` is refused. -/
def Obligations.QueueCalls : Prop :=
  ∀ (s : State) (i : BufIdx), i.val < s.cfg.nbuf →
    (i ∉ s.q → exec (.push i) s = .next { s with q := s.q ++ [i], ret := .bool (decide (s.q = [])) }) ∧
    (i ∈ s.q → exec (.push i) s = .fault .doublePush) ∧
    (i ∉ s.q → ∀ allow, exec (.remove i allow) s = .next { s with ret := .bool false }) ∧
    (s.q.head? = some i → s.armed = true →
      exec (.remove i false) s = .next { s with ret := .bool false } ∧
      exec (.remove i true) s = .refused .removeArmed) ∧
    (i ∈ s.q → ¬(s.q.head? = some i ∧ s.armed = true) → ∀ allow,
      exec (.remove i allow) s = .next { s with q := s.q.erase i, ret := .bool true })

/-- `POP()` (rule R113): the head leaves the queue, is no longer armed and completes; then EMPTY, or NEXT_WITHHELD while a line reset
is pending, or the next head is armed; an empty queue or an unarmed head is fault PopEmpty. -/
def Obligations.PopCall : Prop :=
  (∀ s : State, s.q = [] ∨ s.armed = false → exec .pop s = .fault .popEmpty) ∧
  (∀ (s u : State) (h : BufIdx) (rest : List BufIdx), s.q = h :: rest → s.armed = true →
    u = { s.setSt h .ready with q := rest, armed := false, evt := s.evt ++ [.cpl h (s.res h)] } →
    (rest = [] → exec .pop s = .next { u with ret := .popStatus .empty }) ∧
    (rest ≠ [] → s.prst = true → exec .pop s = .next { u with ret := .popStatus .nextWithheld }) ∧
    (∀ n, rest.head? = some n → s.prst = false → n.val < s.cfg.nbuf → s.phase = 0#4 → s.fw = .w8 → idle s →
      exec .pop s = .next { armedWith n u with ret := .popStatus .nextArmed }))

/-- `VISITFIRST(f)` (rule R114): nothing on an empty queue, else `f` of the head, which stays queued. That `f` may be COMPLETE
beside ARM, the one `f` the block passes, is the model's choice (log entry 22). -/
def Obligations.VisitFirstCall : Prop :=
  ∀ s : State,
    (s.q = [] → ∀ f, exec (.visitFirst f) s = .next { s with ret := .nothing }) ∧
    (∀ h rest, s.q = h :: rest → h.val < s.cfg.nbuf →
      exec (.visitFirst .arm) s = exec (.arm h) s ∧ exec (.visitFirst .complete) s = exec (.complete h) s) ∧
    (∀ h rest, s.q = h :: rest → h.val < s.cfg.nbuf → s.armed = false → s.prst = false → s.phase = 0#4 → s.fw = .w8 →
      idle s → exec (.visitFirst .arm) s = .next { armedWith h s with ret := .nothing }) ∧
    (∀ h rest, s.q = h :: rest → h.val < s.cfg.nbuf → exec (.visitFirst .complete) s =
      .next { s.setSt h .ready with evt := s.evt ++ [.cpl h (s.res h)], ret := .nothing })

/-- `FINISH` (rules R113, R136): PHASE is REQUEST, the pin an input, the head has its result and is popped; then nothing, the next
head's request, or the line reset, as the table of rule R136 says. -/
def Obligations.FinishCall : Prop :=
  ∀ (s : State) (h : BufIdx) (rest : List BufIdx), s.q = h :: rest → s.armed = true → idle s → s.fw = .w8 →
    (∀ n, rest.head? = some n → n.val < s.cfg.nbuf) →
    exec .finish s = .next { nextStarted rest (headFinished h rest s) with ret := .nothing }

/-- `STARTRESET` (rule R152): under its precondition the pin drives, the width is 16, three words are to come and the exchange of the
first starts; otherwise fault BadResetStart. -/
def Obligations.StartResetCall : Prop :=
  ∀ s : State,
    (s.prst = true ∧ s.armed = false ∧ s.phase = 0#4 ∧ idle s →
      exec .startReset s = .next { lineResetStarted s with ret := .nothing }) ∧
    (¬(s.prst = true ∧ s.armed = false ∧ s.phase = 0#4 ∧ idle s) → exec .startReset s = .fault .badResetStart)

/-- The four marshaller primitives (rules R166 to R169), with the faults BadWidth and BusyAccess (rule R188). `SetFW` is
stated for every value its operand can hold (log entry 27). -/
def Obligations.MarshallerCalls : Prop :=
  (∀ (s : State) (w : FrameWidth), s.xbusy = false →
    exec (.setFW (BitVec.ofNat 32 w.bits)) s = .next { s with fw := w, ret := .nothing }) ∧
  (∀ (s : State) (w : Word32), s.xbusy = false → w ≠ 5#32 → w ≠ 8#32 → w ≠ 12#32 → w ≠ 13#32 → w ≠ 16#32 →
    exec (.setFW w) s = .fault .badWidth) ∧
  (∀ (s : State) (w : FrameWidth), s.xbusy = true → exec (.setFW (BitVec.ofNat 32 w.bits)) s = .fault .busyAccess) ∧
  (∀ (s : State) (v : Word32), idle s → ∃ x : BitVec 16,
    exec (.writeTX v) s = .next { exchangeStarted x s with ret := .nothing } ∧
    ∀ k, x.getLsbD k = (decide (k < s.fw.bits) && v.getLsbD k)) ∧
  (∀ (s : State) (v : Word32), ¬idle s → exec (.writeTX v) s = .fault .busyAccess) ∧
  (∀ s : State, s.irqp = true → s.xbusy = false →
    exec .readRX s = .next { s with irqp := false, ret := .rx s.rxr }) ∧
  (∀ s : State, s.irqp = false → exec .readRX s = .fault .busyAccess) ∧
  (∀ (s : State) (d : Pin), exec (.setPin d) s = .next { s with pin := d, ret := .nothing })

/-! ### Caller, reset, and rules of the whole machine -/

/-- Byte accesses and queries of Caller (rules R38, R43, R52, R97): a byte of a READY buffer is read and written, of a BUSY buffer
refused; the queries answer ST, RES and RPAR at any time and change nothing. The last clause is the model's stop at an address
outside buffer memory (rule R41). -/
def Obligations.CallerAccesses : Prop :=
  ∀ (s : State) (rest : List Input) (i : BufIdx) (k a : Nat) (b : Byte),
    i.val < s.cfg.nbuf → k < 4 + s.cfg.paycap → a = i.val * (4 + s.cfg.paycap) + k →
    (s.script = .callerRead a :: rest → s.st i = .ready →
      step s = .next { s with script := rest, ret := .byte (s.mem.read a) }) ∧
    (s.script = .callerWrite a b :: rest → s.st i = .ready →
      ∃ m : Memory, step s = .next { s with script := rest, mem := m, ret := .nothing } ∧
        (s.mem.wf → ∀ x, m.read x = if x = a then b else s.mem.read x)) ∧
    (s.script = .callerRead a :: rest ∨ s.script = .callerWrite a b :: rest → s.st i = .busy →
      step s = .refused .busyBuffer) ∧
    (s.script = .queryReady i :: rest → step s = .next { s with script := rest, ret := .bool (decide (s.st i = .ready)) }) ∧
    (s.script = .queryResult i :: rest → step s = .next { s with script := rest, ret := .result (s.res i) }) ∧
    (s.script = .queryParity :: rest → step s = .next { s with script := rest, ret := .parity s.rpar }) ∧
    (∀ x, s.cfg.nbuf * (4 + s.cfg.paycap) ≤ x → s.script = .callerRead x :: rest ∨ s.script = .callerWrite x b :: rest →
      step s = .fault .badAddress)

/-- The values that the spec gives for block reset (rules R37, R210), for every NBUF and PAYCAP; the block is idle. -/
def Obligations.ResetState : Prop :=
  ∀ c : Params,
    (State.resetWith c).phase = 0#4 ∧ (State.resetWith c).prst = false ∧ (State.resetWith c).rcnt = 0#2 ∧
    (State.resetWith c).armed = false ∧ (State.resetWith c).q = [] ∧ (∀ i, (State.resetWith c).st i = .ready) ∧
    (State.resetWith c).fw = .w8 ∧ (State.resetWith c).xbusy = false ∧ (State.resetWith c).xcnt = 0#5 ∧
    (State.resetWith c).irqp = false ∧ (State.resetWith c).imask = false ∧ (State.resetWith c).pin = .input ∧
    (State.resetWith c).evt = [] ∧ (State.resetWith c).wire = [] ∧ idle (State.resetWith c) ∧
    State.reset = State.resetWith Params.default

/-- The invariants of rule R35 hold after block reset (rule R210), for every NBUF and PAYCAP. -/
def Obligations.ResetMeetsInvariants : Prop := ∀ c : Params, Inv (State.resetWith c)

/-- Every step of an agent keeps the invariants of rule R35, from every state that meets them. -/
def Obligations.InvariantKept : Prop :=
  ∀ s t : State, Inv s → agentNext s → step s = .next t → Inv t

/-- No assertion of rule R188 fails in a step of an agent from a state that meets the invariants: the one fault left is the model's
own, an access of Caller outside buffer memory. -/
def Obligations.NoAssertionFails : Prop :=
  ∀ (s : State) (e : Fault), Inv s → agentNext s → step s = .fault e →
    ∃ a rest, (s.script = .callerRead a :: rest ∨ ∃ b, s.script = .callerWrite a b :: rest) ∧ s.cfg.memSize ≤ a

/-- In every state that meets the invariants an idle block is at rest (rule R34). -/
def Obligations.IdleBlockAtRest : Prop :=
  ∀ s : State, Inv s → idle s →
    s.armed = false ∧ s.phase = 0#4 ∧ s.prst = false ∧ s.q = [] ∧ s.fw = .w8 ∧ s.pin = .input

/-- What no step of the machine undoes (rules R30, R31, R37): the histories only grow, the parameters and the mask stay as they
are, the memory stays canonical. No free value is drawn twice: the cycles that a step adds while the host drives sample the free
values of the counter's next indices, one each, and the counter moves past them (rule R172; the counter is the model's own
choice, log entry 4). It holds of the micro-operations too. -/
def Obligations.HistoriesOnlyGrow : Prop :=
  ∀ s t : State, step s = .next t →
    s.evt <+: t.evt ∧ t.cfg = s.cfg ∧ t.imask = s.imask ∧ (s.mem.wf → t.mem.wf) ∧
    ∃ c : List WireCycle, t.wire = s.wire ++ c ∧ t.draws = s.draws + (drivenSamples c).length ∧
      ∀ k, k < (drivenSamples c).length → (drivenSamples c)[k]? = some (Config.drawBit (s.draws + k))

/-- Only six operations store to buffer memory (rule R44): the two starts, the READ_DATA3 entry under its two names, and the header
write of Caller; every other one leaves every byte of it as it was. -/
def Obligations.OnlyNamedRowsStore : Prop :=
  ∀ (i : Instr) (s t : State), exec i s = .next t →
    (∀ j, i ≠ .startR j ∧ i ≠ .startW j) → (∀ j h, i ≠ .h32 j h) → (∀ d, i ≠ .irqReadData3 d) →
    ¬(i = .irqEntry ∧ s.phase = 7#4) → t.mem = s.mem

/-- The queue is first in, first out (rules R50, R96, R98, R111 to R113, R115): a step of an agent leaves the queue and the events, or
appends a buffer that was not queued, or deletes a buffer that is not the armed head and emits its CANCELLED, or takes the head
away and emits its CPL. -/
def Obligations.QueueIsFifo : Prop :=
  ∀ s t : State, Inv s → agentNext s → step s = .next t →
    (t.q = s.q ∧ t.evt = s.evt) ∨
    (∃ i, i ∉ s.q ∧ t.q = s.q ++ [i] ∧ t.evt = s.evt) ∨
    (∃ i, i ∈ s.q ∧ ¬(s.q.head? = some i ∧ s.armed = true) ∧ t.q = s.q.erase i ∧ t.evt = s.evt ++ [.cancelled i]) ∨
    (∃ h r, s.armed = true ∧ s.q = h :: t.q ∧ t.evt = s.evt ++ [.cpl h r] ∧ r = t.res h)

/-- The successors of PHASE (rule R137), and that no transfer is armed while a line reset is pending or running (rule R154). -/
def Obligations.PhaseSuccessors : Prop :=
  ∀ s t : State, Inv s → agentNext s → step s = .next t →
    (∀ p p' : Phase, s.phase = p.code → t.phase = p'.code → phaseSuccessor p p' = true) ∧
    (s.prst = true → t.prst = true → t.armed = true → s.armed = true ∧ t.q.head? = s.q.head?)

/-- A block to which Caller gives no more commands becomes idle after finitely many steps, with the queue empty and no line reset
pending, within `47 * len(Q) + 48 * PRST` further bit cycles (rule R232). -/
def Obligations.EventuallyIdle : Prop :=
  ∀ s : State, Inv s → s.script = [] → ∃ (n : Nat) (t : State),
    Sys2Proof.core.run n s = .next t ∧ idle t ∧ t.q = [] ∧ t.prst = false ∧ step t = .refused .idle ∧
    t.wire.length ≤ s.wire.length + (47 * s.q.length + if s.prst then 48 else 0)
end

