-- ==== Sys2Proof/Laws/Memory.lean ====
section
/-!
SUPPORT. Laws of buffer memory: what a read gives after a write, and that a write keeps the canonical form.
-/

namespace Sys2Proof.Machine

@[simp] theorem read_nil (a : Nat) : Memory.read [] a = Memory.unlisted := rfl

theorem wf_nil : Memory.wf [] := by simp [Memory.wf]

theorem wf_tail {c : Host.Cell} {m : Memory} (h : Memory.wf (c :: m)) : Memory.wf m :=
  ⟨(List.pairwise_cons.1 h.1).2, fun d hd => h.2 d (List.mem_cons_of_mem c hd)⟩

theorem wf_head_lt {c : Host.Cell} {m : Memory} (h : Memory.wf (c :: m)) : ∀ d ∈ m, c.1 < d.1 :=
  (List.pairwise_cons.1 h.1).1

theorem read_unlisted {m : Memory} {a : Nat} (h : ∀ d ∈ m, a ≠ d.1) : m.read a = Memory.unlisted := by
  induction m with
  | nil => rfl
  | cons c m ih =>
    obtain ⟨x, b⟩ := c
    have hx : x ≠ a := fun e => h (x, b) (by simp) e.symm
    simp only [Memory.read, hx, if_false]
    exact ih fun d hd => h d (List.mem_cons_of_mem _ hd)

theorem read_cons_op (m : Memory) (a : Nat) (b : Byte) (x : Nat) (h : ∀ d ∈ m, a ≠ d.1) :
    (Memory.cons a b m).read x = if x = a then b else m.read x := by
  unfold Memory.cons
  split
  · rename_i hb
    by_cases hx : x = a
    · simp [hx, hb, read_unlisted h]
    · simp [hx]
  · by_cases hx : x = a
    · simp [Memory.read, hx]
    · simp [Memory.read, hx, Ne.symm hx]

/-- A read after a write gives the byte written, or what was there. -/
theorem read_write {m : Memory} (hm : m.wf) (a : Nat) (b : Byte) (x : Nat) :
    (m.write a b).read x = if x = a then b else m.read x := by
  induction m with
  | nil => simpa [Memory.write] using read_cons_op [] a b x (by simp)
  | cons c m ih =>
    obtain ⟨y, v⟩ := c
    have hlt := wf_head_lt hm
    simp only at hlt
    unfold Memory.write
    split
    · rename_i hay
      refine read_cons_op _ a b x fun d hd => ?_
      rcases List.mem_cons.1 hd with rfl | hd
      · exact Nat.ne_of_lt hay
      · exact Nat.ne_of_lt (Nat.lt_trans hay (hlt d hd))
    · split
      · rename_i _ hay
        subst hay
        rw [read_cons_op _ a b x fun d hd => Nat.ne_of_lt (hlt d hd)]
        by_cases hx : x = a
        · simp [hx]
        · simp [hx, Memory.read, Ne.symm hx]
      · rename_i h1 h2
        simp only [Memory.read, ih (wf_tail hm)]
        by_cases hx : y = x
        · subst hx; simp [Ne.symm h2]
        · simp [hx]

theorem mem_cons_op {m : Memory} {a : Nat} {b : Byte} {d : Host.Cell} (h : d ∈ Memory.cons a b m) :
    d = (a, b) ∨ d ∈ m := by
  unfold Memory.cons at h
  split at h
  · exact .inr h
  · simpa using h

theorem wf_cons_op {m : Memory} (hm : m.wf) {a : Nat} (b : Byte) (h : ∀ d ∈ m, a < d.1) :
    (Memory.cons a b m).wf := by
  unfold Memory.cons
  split
  · exact hm
  · rename_i hb
    exact ⟨List.pairwise_cons.2 ⟨h, hm.1⟩, by simpa [hb] using hm.2⟩

theorem mem_write {m : Memory} {a : Nat} {b : Byte} {d : Host.Cell} (h : d ∈ m.write a b) :
    d = (a, b) ∨ d ∈ m := by
  induction m with
  | nil => exact mem_cons_op h
  | cons c m ih =>
    obtain ⟨y, v⟩ := c
    unfold Memory.write at h
    split at h
    · exact mem_cons_op h
    · split at h
      · rcases mem_cons_op h with h | h
        · exact .inl h
        · exact .inr (List.mem_cons_of_mem _ h)
      · rcases List.mem_cons.1 h with h | h
        · exact .inr (by simp [h])
        · rcases ih h with h | h
          · exact .inl h
          · exact .inr (List.mem_cons_of_mem _ h)

/-- A write keeps the canonical form. -/
theorem write_wf {m : Memory} (hm : m.wf) (a : Nat) (b : Byte) : (m.write a b).wf := by
  induction m with
  | nil => exact wf_cons_op hm b (by simp)
  | cons c m ih =>
    obtain ⟨y, v⟩ := c
    have hlt := wf_head_lt hm
    simp only at hlt
    unfold Memory.write
    split
    · rename_i hay
      refine wf_cons_op hm b fun d hd => ?_
      rcases List.mem_cons.1 hd with rfl | hd
      · exact hay
      · exact Nat.lt_trans hay (hlt d hd)
    · split
      · rename_i _ hay
        subst hay
        exact wf_cons_op (wf_tail hm) b hlt
      · rename_i h1 h2
        have hm' := ih (wf_tail hm)
        refine ⟨List.pairwise_cons.2 ⟨fun d hd => ?_, hm'.1⟩, ?_⟩
        · rcases mem_write hd with rfl | hd
          · simp only; omega
          · exact hlt d hd
        · intro d hd
          rcases List.mem_cons.1 hd with rfl | hd
          · exact hm.2 _ (by simp)
          · exact hm'.2 d hd

theorem writeWord_wf {m : Memory} (hm : m.wf) (a : Nat) (v : Word32) : (m.writeWord a v).wf :=
  write_wf (write_wf (write_wf (write_wf hm _ _) _ _) _ _) _ _

/-- What one byte reads as after a word store. -/
theorem read_writeWord {m : Memory} (hm : m.wf) (a : Nat) (v : Word32) (x : Nat) :
    (m.writeWord a v).read x =
      if x = a + 3 then v.extractLsb' 24 8 else if x = a + 2 then v.extractLsb' 16 8
      else if x = a + 1 then v.extractLsb' 8 8 else if x = a then v.extractLsb' 0 8 else m.read x := by
  unfold Memory.writeWord
  rw [read_write (write_wf (write_wf (write_wf hm _ _) _ _) _ _), read_write (write_wf (write_wf hm _ _) _ _),
    read_write (write_wf hm _ _), read_write hm]

/-- A byte outside the four stored bytes reads as before. -/
theorem read_writeWord_outside {m : Memory} (hm : m.wf) {a : Nat} (v : Word32) {x : Nat} (h : x < a ∨ a + 4 ≤ x) :
    (m.writeWord a v).read x = m.read x := by
  rw [read_writeWord hm]
  have h0 : x ≠ a := by omega
  have h1 : x ≠ a + 1 := by omega
  have h2 : x ≠ a + 2 := by omega
  have h3 : x ≠ a + 3 := by omega
  simp [h0, h1, h2, h3]

/-- A word reads back as stored. -/
theorem readWord_writeWord {m : Memory} (hm : m.wf) (a : Nat) (v : Word32) :
    (m.writeWord a v).readWord a = v := by
  unfold Memory.readWord
  simp only [read_writeWord hm]
  simp only [if_true, show a + 2 ≠ a + 3 by omega, show a + 1 ≠ a + 3 by omega, show a + 1 ≠ a + 2 by omega,
    show a ≠ a + 3 by omega, show a ≠ a + 2 by omega, show a ≠ a + 1 by omega, if_false]
  apply BitVec.eq_of_getLsbD_eq
  intro k hk
  simp only [BitVec.getLsbD_append, BitVec.getLsbD_extractLsb']
  split
  · simp; omega
  · split
    · simp only [show k - 8 < 8 by omega, decide_true, Bool.true_and]
      congr 1; omega
    · split
      · simp only [show k - 8 - 8 < 8 by omega, decide_true, Bool.true_and]
        congr 1; omega
      · simp only [show k - 8 - 8 - 8 < 8 by omega, decide_true, Bool.true_and]
        congr 1; omega

/-- A word elsewhere is as before. -/
theorem readWord_writeWord_disjoint {m : Memory} (hm : m.wf) {a x : Nat} (v : Word32) (h : x + 4 ≤ a ∨ a + 4 ≤ x) :
    (m.writeWord a v).readWord x = m.readWord x := by
  unfold Memory.readWord
  rw [read_writeWord_outside hm v (x := x + 3) (by omega), read_writeWord_outside hm v (x := x + 2) (by omega),
    read_writeWord_outside hm v (x := x + 1) (by omega), read_writeWord_outside hm v (x := x) (by omega)]

/-- A word is as before after a byte write elsewhere. -/
theorem readWord_write_disjoint {m : Memory} (hm : m.wf) {a x : Nat} (b : Byte) (h : x + 4 ≤ a ∨ a + 1 ≤ x) :
    (m.write a b).readWord x = m.readWord x := by
  unfold Memory.readWord
  simp only [read_write hm, show x + 3 ≠ a by omega, show x + 2 ≠ a by omega, show x + 1 ≠ a by omega,
    show x ≠ a by omega, if_false]

/-! ### Addresses of headers and payloads -/

theorem stride_pos (c : Params) : 8 ≤ c.stride := by simp only [Params.stride, Params.paycap]; omega

/-- The header and the payload word of a buffer lie inside buffer memory. -/
theorem buffer_inside {c : Params} {i : BufIdx} (h : i.val < c.nbuf) : i.val * c.stride + c.stride ≤ c.memSize := by
  have := Nat.mul_le_mul_right c.stride (Nat.succ_le_of_lt h)
  rw [Nat.succ_mul] at this
  exact this

theorem hdr_inside {c : Params} {i : BufIdx} (h : i.val < c.nbuf) : wordInside c (hdrAddr c i) = true := by
  have h1 := buffer_inside h
  have h2 := stride_pos c
  exact decide_eq_true (by simp only [hdrAddr]; omega)

theorem pay_inside {c : Params} {i : BufIdx} (h : i.val < c.nbuf) : wordInside c (payAddr c i) = true := by
  have h1 := buffer_inside h
  have h2 := stride_pos c
  exact decide_eq_true (by simp only [payAddr]; omega)

/-- Different buffers do not overlap. -/
theorem buffers_apart (c : Params) {i j : BufIdx} (h : i ≠ j) :
    i.val * c.stride + c.stride ≤ j.val * c.stride ∨ j.val * c.stride + c.stride ≤ i.val * c.stride := by
  have hij : i.val ≠ j.val := fun e => h (Fin.ext e)
  rcases Nat.lt_or_gt_of_ne hij with h | h
  · left
    have := Nat.mul_le_mul_right c.stride (Nat.succ_le_of_lt h)
    rwa [Nat.succ_mul] at this
  · right
    have := Nat.mul_le_mul_right c.stride (Nat.succ_le_of_lt h)
    rwa [Nat.succ_mul] at this

theorem hdr_apart (c : Params) {i j : BufIdx} (h : i ≠ j) :
    hdrAddr c j + 4 ≤ hdrAddr c i ∨ hdrAddr c i + 4 ≤ hdrAddr c j := by
  have h1 := buffers_apart c h
  have h2 := stride_pos c
  simp only [hdrAddr]; omega

/-- A payload word overlaps no header. -/
theorem hdr_pay_apart (c : Params) (i j : BufIdx) :
    hdrAddr c j + 4 ≤ payAddr c i ∨ payAddr c i + 4 ≤ hdrAddr c j := by
  have h2 := stride_pos c
  simp only [hdrAddr, payAddr]
  by_cases h : i = j
  · subst h; omega
  · have h1 := buffers_apart c h
    omega

/-- A byte of one buffer overlaps no header of another. -/
theorem hdr_byte_apart (c : Params) {a : Nat} {j : BufIdx} (h : ownerOf c a ≠ j.val) :
    hdrAddr c j + 4 ≤ a ∨ a + 1 ≤ hdrAddr c j := by
  have h2 := stride_pos c
  simp only [hdrAddr, ownerOf] at *
  by_cases hlt : a < j.val * c.stride
  · right; omega
  · left
    by_contra hc
    apply h
    refine Nat.div_eq_of_lt_le (by omega) ?_
    rw [Nat.succ_mul]; omega

end Sys2Proof.Machine
end

