-- ==== Sys2Proof/Laws/State.lean ====
section
/-!
SUPPORT. For each named update of the state, what each field holds after it; and the per-buffer registers after a write.
-/

namespace Sys2Proof.Machine

@[simp] theorem setOp_phase (s : State) (i : BufIdx) (d : Dir) : (s.setOp i d).phase = s.phase := rfl
@[simp] theorem setOp_acc (s : State) (i : BufIdx) (d : Dir) : (s.setOp i d).acc = s.acc := rfl
@[simp] theorem setOp_dir (s : State) (i : BufIdx) (d : Dir) : (s.setOp i d).dir = s.dir := rfl
@[simp] theorem setOp_prst (s : State) (i : BufIdx) (d : Dir) : (s.setOp i d).prst = s.prst := rfl
@[simp] theorem setOp_rcnt (s : State) (i : BufIdx) (d : Dir) : (s.setOp i d).rcnt = s.rcnt := rfl
@[simp] theorem setOp_armed (s : State) (i : BufIdx) (d : Dir) : (s.setOp i d).armed = s.armed := rfl
@[simp] theorem setOp_ackr (s : State) (i : BufIdx) (d : Dir) : (s.setOp i d).ackr = s.ackr := rfl
@[simp] theorem setOp_rpar (s : State) (i : BufIdx) (d : Dir) : (s.setOp i d).rpar = s.rpar := rfl
@[simp] theorem setOp_q (s : State) (i : BufIdx) (d : Dir) : (s.setOp i d).q = s.q := rfl
@[simp] theorem setOp_mem (s : State) (i : BufIdx) (d : Dir) : (s.setOp i d).mem = s.mem := rfl
@[simp] theorem setOp_fw (s : State) (i : BufIdx) (d : Dir) : (s.setOp i d).fw = s.fw := rfl
@[simp] theorem setOp_txr (s : State) (i : BufIdx) (d : Dir) : (s.setOp i d).txr = s.txr := rfl
@[simp] theorem setOp_rxr (s : State) (i : BufIdx) (d : Dir) : (s.setOp i d).rxr = s.rxr := rfl
@[simp] theorem setOp_rxsh (s : State) (i : BufIdx) (d : Dir) : (s.setOp i d).rxsh = s.rxsh := rfl
@[simp] theorem setOp_xbusy (s : State) (i : BufIdx) (d : Dir) : (s.setOp i d).xbusy = s.xbusy := rfl
@[simp] theorem setOp_xcnt (s : State) (i : BufIdx) (d : Dir) : (s.setOp i d).xcnt = s.xcnt := rfl
@[simp] theorem setOp_irqp (s : State) (i : BufIdx) (d : Dir) : (s.setOp i d).irqp = s.irqp := rfl
@[simp] theorem setOp_imask (s : State) (i : BufIdx) (d : Dir) : (s.setOp i d).imask = s.imask := rfl
@[simp] theorem setOp_pin (s : State) (i : BufIdx) (d : Dir) : (s.setOp i d).pin = s.pin := rfl
@[simp] theorem setOp_evt (s : State) (i : BufIdx) (d : Dir) : (s.setOp i d).evt = s.evt := rfl
@[simp] theorem setOp_wire (s : State) (i : BufIdx) (d : Dir) : (s.setOp i d).wire = s.wire := rfl
@[simp] theorem setOp_cfg (s : State) (i : BufIdx) (d : Dir) : (s.setOp i d).cfg = s.cfg := rfl
@[simp] theorem setOp_script (s : State) (i : BufIdx) (d : Dir) : (s.setOp i d).script = s.script := rfl
@[simp] theorem setOp_target (s : State) (i : BufIdx) (d : Dir) : (s.setOp i d).target = s.target := rfl
@[simp] theorem setOp_draws (s : State) (i : BufIdx) (d : Dir) : (s.setOp i d).draws = s.draws := rfl
@[simp] theorem setOp_ret (s : State) (i : BufIdx) (d : Dir) : (s.setOp i d).ret = s.ret := rfl

@[simp] theorem setSt_phase (s : State) (i : BufIdx) (l : Life) : (s.setSt i l).phase = s.phase := rfl
@[simp] theorem setSt_acc (s : State) (i : BufIdx) (l : Life) : (s.setSt i l).acc = s.acc := rfl
@[simp] theorem setSt_dir (s : State) (i : BufIdx) (l : Life) : (s.setSt i l).dir = s.dir := rfl
@[simp] theorem setSt_prst (s : State) (i : BufIdx) (l : Life) : (s.setSt i l).prst = s.prst := rfl
@[simp] theorem setSt_rcnt (s : State) (i : BufIdx) (l : Life) : (s.setSt i l).rcnt = s.rcnt := rfl
@[simp] theorem setSt_armed (s : State) (i : BufIdx) (l : Life) : (s.setSt i l).armed = s.armed := rfl
@[simp] theorem setSt_ackr (s : State) (i : BufIdx) (l : Life) : (s.setSt i l).ackr = s.ackr := rfl
@[simp] theorem setSt_rpar (s : State) (i : BufIdx) (l : Life) : (s.setSt i l).rpar = s.rpar := rfl
@[simp] theorem setSt_q (s : State) (i : BufIdx) (l : Life) : (s.setSt i l).q = s.q := rfl
@[simp] theorem setSt_mem (s : State) (i : BufIdx) (l : Life) : (s.setSt i l).mem = s.mem := rfl
@[simp] theorem setSt_fw (s : State) (i : BufIdx) (l : Life) : (s.setSt i l).fw = s.fw := rfl
@[simp] theorem setSt_txr (s : State) (i : BufIdx) (l : Life) : (s.setSt i l).txr = s.txr := rfl
@[simp] theorem setSt_rxr (s : State) (i : BufIdx) (l : Life) : (s.setSt i l).rxr = s.rxr := rfl
@[simp] theorem setSt_rxsh (s : State) (i : BufIdx) (l : Life) : (s.setSt i l).rxsh = s.rxsh := rfl
@[simp] theorem setSt_xbusy (s : State) (i : BufIdx) (l : Life) : (s.setSt i l).xbusy = s.xbusy := rfl
@[simp] theorem setSt_xcnt (s : State) (i : BufIdx) (l : Life) : (s.setSt i l).xcnt = s.xcnt := rfl
@[simp] theorem setSt_irqp (s : State) (i : BufIdx) (l : Life) : (s.setSt i l).irqp = s.irqp := rfl
@[simp] theorem setSt_imask (s : State) (i : BufIdx) (l : Life) : (s.setSt i l).imask = s.imask := rfl
@[simp] theorem setSt_pin (s : State) (i : BufIdx) (l : Life) : (s.setSt i l).pin = s.pin := rfl
@[simp] theorem setSt_evt (s : State) (i : BufIdx) (l : Life) : (s.setSt i l).evt = s.evt := rfl
@[simp] theorem setSt_wire (s : State) (i : BufIdx) (l : Life) : (s.setSt i l).wire = s.wire := rfl
@[simp] theorem setSt_cfg (s : State) (i : BufIdx) (l : Life) : (s.setSt i l).cfg = s.cfg := rfl
@[simp] theorem setSt_script (s : State) (i : BufIdx) (l : Life) : (s.setSt i l).script = s.script := rfl
@[simp] theorem setSt_target (s : State) (i : BufIdx) (l : Life) : (s.setSt i l).target = s.target := rfl
@[simp] theorem setSt_draws (s : State) (i : BufIdx) (l : Life) : (s.setSt i l).draws = s.draws := rfl
@[simp] theorem setSt_ret (s : State) (i : BufIdx) (l : Life) : (s.setSt i l).ret = s.ret := rfl

@[simp] theorem setRes_phase (s : State) (i : BufIdx) (r : Result) : (s.setRes i r).phase = s.phase := rfl
@[simp] theorem setRes_acc (s : State) (i : BufIdx) (r : Result) : (s.setRes i r).acc = s.acc := rfl
@[simp] theorem setRes_dir (s : State) (i : BufIdx) (r : Result) : (s.setRes i r).dir = s.dir := rfl
@[simp] theorem setRes_prst (s : State) (i : BufIdx) (r : Result) : (s.setRes i r).prst = s.prst := rfl
@[simp] theorem setRes_rcnt (s : State) (i : BufIdx) (r : Result) : (s.setRes i r).rcnt = s.rcnt := rfl
@[simp] theorem setRes_armed (s : State) (i : BufIdx) (r : Result) : (s.setRes i r).armed = s.armed := rfl
@[simp] theorem setRes_ackr (s : State) (i : BufIdx) (r : Result) : (s.setRes i r).ackr = s.ackr := rfl
@[simp] theorem setRes_rpar (s : State) (i : BufIdx) (r : Result) : (s.setRes i r).rpar = s.rpar := rfl
@[simp] theorem setRes_q (s : State) (i : BufIdx) (r : Result) : (s.setRes i r).q = s.q := rfl
@[simp] theorem setRes_mem (s : State) (i : BufIdx) (r : Result) : (s.setRes i r).mem = s.mem := rfl
@[simp] theorem setRes_fw (s : State) (i : BufIdx) (r : Result) : (s.setRes i r).fw = s.fw := rfl
@[simp] theorem setRes_txr (s : State) (i : BufIdx) (r : Result) : (s.setRes i r).txr = s.txr := rfl
@[simp] theorem setRes_rxr (s : State) (i : BufIdx) (r : Result) : (s.setRes i r).rxr = s.rxr := rfl
@[simp] theorem setRes_rxsh (s : State) (i : BufIdx) (r : Result) : (s.setRes i r).rxsh = s.rxsh := rfl
@[simp] theorem setRes_xbusy (s : State) (i : BufIdx) (r : Result) : (s.setRes i r).xbusy = s.xbusy := rfl
@[simp] theorem setRes_xcnt (s : State) (i : BufIdx) (r : Result) : (s.setRes i r).xcnt = s.xcnt := rfl
@[simp] theorem setRes_irqp (s : State) (i : BufIdx) (r : Result) : (s.setRes i r).irqp = s.irqp := rfl
@[simp] theorem setRes_imask (s : State) (i : BufIdx) (r : Result) : (s.setRes i r).imask = s.imask := rfl
@[simp] theorem setRes_pin (s : State) (i : BufIdx) (r : Result) : (s.setRes i r).pin = s.pin := rfl
@[simp] theorem setRes_evt (s : State) (i : BufIdx) (r : Result) : (s.setRes i r).evt = s.evt := rfl
@[simp] theorem setRes_wire (s : State) (i : BufIdx) (r : Result) : (s.setRes i r).wire = s.wire := rfl
@[simp] theorem setRes_cfg (s : State) (i : BufIdx) (r : Result) : (s.setRes i r).cfg = s.cfg := rfl
@[simp] theorem setRes_script (s : State) (i : BufIdx) (r : Result) : (s.setRes i r).script = s.script := rfl
@[simp] theorem setRes_target (s : State) (i : BufIdx) (r : Result) : (s.setRes i r).target = s.target := rfl
@[simp] theorem setRes_draws (s : State) (i : BufIdx) (r : Result) : (s.setRes i r).draws = s.draws := rfl
@[simp] theorem setRes_ret (s : State) (i : BufIdx) (r : Result) : (s.setRes i r).ret = s.ret := rfl

@[simp] theorem setPinTo_phase (s : State) (d : Pin) : (setPinTo d s).phase = s.phase := rfl
@[simp] theorem setPinTo_acc (s : State) (d : Pin) : (setPinTo d s).acc = s.acc := rfl
@[simp] theorem setPinTo_dir (s : State) (d : Pin) : (setPinTo d s).dir = s.dir := rfl
@[simp] theorem setPinTo_prst (s : State) (d : Pin) : (setPinTo d s).prst = s.prst := rfl
@[simp] theorem setPinTo_rcnt (s : State) (d : Pin) : (setPinTo d s).rcnt = s.rcnt := rfl
@[simp] theorem setPinTo_armed (s : State) (d : Pin) : (setPinTo d s).armed = s.armed := rfl
@[simp] theorem setPinTo_ackr (s : State) (d : Pin) : (setPinTo d s).ackr = s.ackr := rfl
@[simp] theorem setPinTo_rpar (s : State) (d : Pin) : (setPinTo d s).rpar = s.rpar := rfl
@[simp] theorem setPinTo_q (s : State) (d : Pin) : (setPinTo d s).q = s.q := rfl
@[simp] theorem setPinTo_mem (s : State) (d : Pin) : (setPinTo d s).mem = s.mem := rfl
@[simp] theorem setPinTo_bufs (s : State) (d : Pin) : (setPinTo d s).bufs = s.bufs := rfl
@[simp] theorem setPinTo_fw (s : State) (d : Pin) : (setPinTo d s).fw = s.fw := rfl
@[simp] theorem setPinTo_txr (s : State) (d : Pin) : (setPinTo d s).txr = s.txr := rfl
@[simp] theorem setPinTo_rxr (s : State) (d : Pin) : (setPinTo d s).rxr = s.rxr := rfl
@[simp] theorem setPinTo_rxsh (s : State) (d : Pin) : (setPinTo d s).rxsh = s.rxsh := rfl
@[simp] theorem setPinTo_xbusy (s : State) (d : Pin) : (setPinTo d s).xbusy = s.xbusy := rfl
@[simp] theorem setPinTo_xcnt (s : State) (d : Pin) : (setPinTo d s).xcnt = s.xcnt := rfl
@[simp] theorem setPinTo_irqp (s : State) (d : Pin) : (setPinTo d s).irqp = s.irqp := rfl
@[simp] theorem setPinTo_imask (s : State) (d : Pin) : (setPinTo d s).imask = s.imask := rfl
@[simp] theorem setPinTo_evt (s : State) (d : Pin) : (setPinTo d s).evt = s.evt := rfl
@[simp] theorem setPinTo_wire (s : State) (d : Pin) : (setPinTo d s).wire = s.wire := rfl
@[simp] theorem setPinTo_cfg (s : State) (d : Pin) : (setPinTo d s).cfg = s.cfg := rfl
@[simp] theorem setPinTo_script (s : State) (d : Pin) : (setPinTo d s).script = s.script := rfl
@[simp] theorem setPinTo_target (s : State) (d : Pin) : (setPinTo d s).target = s.target := rfl
@[simp] theorem setPinTo_draws (s : State) (d : Pin) : (setPinTo d s).draws = s.draws := rfl
@[simp] theorem setPinTo_ret (s : State) (d : Pin) : (setPinTo d s).ret = s.ret := rfl

@[simp] theorem setPhase_acc (s : State) (p : Phase) : (setPhase p s).acc = s.acc := rfl
@[simp] theorem setPhase_dir (s : State) (p : Phase) : (setPhase p s).dir = s.dir := rfl
@[simp] theorem setPhase_prst (s : State) (p : Phase) : (setPhase p s).prst = s.prst := rfl
@[simp] theorem setPhase_rcnt (s : State) (p : Phase) : (setPhase p s).rcnt = s.rcnt := rfl
@[simp] theorem setPhase_armed (s : State) (p : Phase) : (setPhase p s).armed = s.armed := rfl
@[simp] theorem setPhase_ackr (s : State) (p : Phase) : (setPhase p s).ackr = s.ackr := rfl
@[simp] theorem setPhase_rpar (s : State) (p : Phase) : (setPhase p s).rpar = s.rpar := rfl
@[simp] theorem setPhase_q (s : State) (p : Phase) : (setPhase p s).q = s.q := rfl
@[simp] theorem setPhase_mem (s : State) (p : Phase) : (setPhase p s).mem = s.mem := rfl
@[simp] theorem setPhase_bufs (s : State) (p : Phase) : (setPhase p s).bufs = s.bufs := rfl
@[simp] theorem setPhase_fw (s : State) (p : Phase) : (setPhase p s).fw = s.fw := rfl
@[simp] theorem setPhase_txr (s : State) (p : Phase) : (setPhase p s).txr = s.txr := rfl
@[simp] theorem setPhase_rxr (s : State) (p : Phase) : (setPhase p s).rxr = s.rxr := rfl
@[simp] theorem setPhase_rxsh (s : State) (p : Phase) : (setPhase p s).rxsh = s.rxsh := rfl
@[simp] theorem setPhase_xbusy (s : State) (p : Phase) : (setPhase p s).xbusy = s.xbusy := rfl
@[simp] theorem setPhase_xcnt (s : State) (p : Phase) : (setPhase p s).xcnt = s.xcnt := rfl
@[simp] theorem setPhase_irqp (s : State) (p : Phase) : (setPhase p s).irqp = s.irqp := rfl
@[simp] theorem setPhase_imask (s : State) (p : Phase) : (setPhase p s).imask = s.imask := rfl
@[simp] theorem setPhase_pin (s : State) (p : Phase) : (setPhase p s).pin = s.pin := rfl
@[simp] theorem setPhase_evt (s : State) (p : Phase) : (setPhase p s).evt = s.evt := rfl
@[simp] theorem setPhase_wire (s : State) (p : Phase) : (setPhase p s).wire = s.wire := rfl
@[simp] theorem setPhase_cfg (s : State) (p : Phase) : (setPhase p s).cfg = s.cfg := rfl
@[simp] theorem setPhase_script (s : State) (p : Phase) : (setPhase p s).script = s.script := rfl
@[simp] theorem setPhase_target (s : State) (p : Phase) : (setPhase p s).target = s.target := rfl
@[simp] theorem setPhase_draws (s : State) (p : Phase) : (setPhase p s).draws = s.draws := rfl
@[simp] theorem setPhase_ret (s : State) (p : Phase) : (setPhase p s).ret = s.ret := rfl

@[simp] theorem setPinTo_pin (s : State) (d : Pin) : (setPinTo d s).pin = d := rfl
@[simp] theorem setPhase_phase (s : State) (p : Phase) : (setPhase p s).phase = p.code := rfl
@[simp] theorem setPinTo_op (s : State) (d : Pin) (j : BufIdx) : (setPinTo d s).op j = s.op j := rfl
@[simp] theorem setPinTo_st (s : State) (d : Pin) (j : BufIdx) : (setPinTo d s).st j = s.st j := rfl
@[simp] theorem setPinTo_res (s : State) (d : Pin) (j : BufIdx) : (setPinTo d s).res j = s.res j := rfl
@[simp] theorem setPhase_op (s : State) (p : Phase) (j : BufIdx) : (setPhase p s).op j = s.op j := rfl
@[simp] theorem setPhase_st (s : State) (p : Phase) (j : BufIdx) : (setPhase p s).st j = s.st j := rfl
@[simp] theorem setPhase_res (s : State) (p : Phase) (j : BufIdx) : (setPhase p s).res j = s.res j := rfl

/-- `OP[j]` after `OP[i] <- d`. -/
@[simp] theorem setOp_op (s : State) (i j : BufIdx) (d : Dir) :
    (s.setOp i d).op j = if j = i then d else s.op j := by
  simp only [State.setOp, State.op, Vector.getElem_set]
  by_cases h : i.val = j.val
  · simp [h, Fin.ext h.symm]
  · rw [if_neg h, if_neg fun e : j = i => h (by rw [e])]

@[simp] theorem setOp_st (s : State) (i j : BufIdx) (d : Dir) :
    (s.setOp i d).st j = s.st j := by
  simp only [State.setOp, State.st, Vector.getElem_set]
  split
  · rename_i h; simp [h]
  · rfl

@[simp] theorem setOp_res (s : State) (i j : BufIdx) (d : Dir) :
    (s.setOp i d).res j = s.res j := by
  simp only [State.setOp, State.res, Vector.getElem_set]
  split
  · rename_i h; simp [h]
  · rfl

@[simp] theorem setSt_op (s : State) (i j : BufIdx) (l : Life) :
    (s.setSt i l).op j = s.op j := by
  simp only [State.setSt, State.op, Vector.getElem_set]
  split
  · rename_i h; simp [h]
  · rfl

/-- `ST[j]` after `ST[i] <- l`. -/
@[simp] theorem setSt_st (s : State) (i j : BufIdx) (l : Life) :
    (s.setSt i l).st j = if j = i then l else s.st j := by
  simp only [State.setSt, State.st, Vector.getElem_set]
  by_cases h : i.val = j.val
  · simp [h, Fin.ext h.symm]
  · rw [if_neg h, if_neg fun e : j = i => h (by rw [e])]

@[simp] theorem setSt_res (s : State) (i j : BufIdx) (l : Life) :
    (s.setSt i l).res j = s.res j := by
  simp only [State.setSt, State.res, Vector.getElem_set]
  split
  · rename_i h; simp [h]
  · rfl

@[simp] theorem setRes_op (s : State) (i j : BufIdx) (r : Result) :
    (s.setRes i r).op j = s.op j := by
  simp only [State.setRes, State.op, Vector.getElem_set]
  split
  · rename_i h; simp [h]
  · rfl

@[simp] theorem setRes_st (s : State) (i j : BufIdx) (r : Result) :
    (s.setRes i r).st j = s.st j := by
  simp only [State.setRes, State.st, Vector.getElem_set]
  split
  · rename_i h; simp [h]
  · rfl

/-- `RES[j]` after `RES[i] <- r`. -/
@[simp] theorem setRes_res (s : State) (i j : BufIdx) (r : Result) :
    (s.setRes i r).res j = if j = i then r else s.res j := by
  simp only [State.setRes, State.res, Vector.getElem_set]
  by_cases h : i.val = j.val
  · simp [h, Fin.ext h.symm]
  · rw [if_neg h, if_neg fun e : j = i => h (by rw [e])]

/-- The reset registers of every buffer. -/
theorem resetWith_st (c : Params) (i : BufIdx) : (State.resetWith c).st i = .ready := by
  simp [State.resetWith, State.st, BufRegs.reset]

end Sys2Proof.Machine
end

