-- ==== Sys2Proof/Laws/Ops.lean ====
section
/-!
SUPPORT. One lemma a shared operation: when it goes on, and with what state. Callers cite these and do not unfold the operation.
-/

namespace Sys2Proof.Machine

/-! ### Sequencing -/

@[simp] theorem andThen_next {α β : Type} (a : α) (f : α → Res β) : andThen (.next a) f = f a := rfl

@[simp] theorem andThen_fault {α β : Type} (e : Fault) (f : α → Res β) : andThen (.fault e) f = .fault e := rfl

@[simp] theorem andThen_refused {α β : Type} (e : Refusal) (f : α → Res β) : andThen (.refused e) f = .refused e := rfl

/-- A sequence answers next exactly when both parts do. -/
theorem andThen_eq_next {α β : Type} {x : Res α} {f : α → Res β} {b : β} :
    andThen x f = .next b ↔ ∃ a, x = .next a ∧ f a = .next b := by
  cases x <;> simp [andThen]

/-- A sequence faults exactly when the first part does, or the second after it. -/
theorem andThen_eq_fault {α β : Type} {x : Res α} {f : α → Res β} {e : Fault} :
    andThen x f = .fault e ↔ x = .fault e ∨ ∃ a, x = .next a ∧ f a = .fault e := by
  cases x <;> simp [andThen]

theorem returning_eq_next {r : Ret} {x : Res State} {t : State} :
    returning r x = .next t ↔ ∃ u, x = .next u ∧ t = { u with ret := r } := by
  simp only [returning, andThen_eq_next]
  constructor
  · rintro ⟨u, h, h'⟩; exact ⟨u, h, (Host.Outcome.next.inj h').symm⟩
  · rintro ⟨u, h, rfl⟩; exact ⟨u, h, rfl⟩

/-- A host command answers next exactly when its body does; the mask is what it was (rule R189). -/
theorem command_eq_next {body : State → Res (Ret × State)} {s t : State} :
    command body s = .next t ↔
      ∃ r u, body { s with imask := true } = .next (r, u) ∧ t = { u with imask := s.imask, ret := r } := by
  simp only [command, andThen_eq_next]
  constructor
  · rintro ⟨⟨r, u⟩, h, h'⟩; exact ⟨r, u, h, (Host.Outcome.next.inj h').symm⟩
  · rintro ⟨r, u, h, rfl⟩; exact ⟨(r, u), h, rfl⟩

theorem withBuffer_eq_next {α : Type} {i : BufIdx} {s : State} {k : Res α} {a : α} :
    withBuffer i s k = .next a ↔ i.val < s.cfg.nbuf ∧ k = .next a := by
  simp only [withBuffer, isBuffer]
  by_cases h : i.val < s.cfg.nbuf <;> simp [h]

theorem withBuffer_named {α : Type} {i : BufIdx} {s : State} (h : i.val < s.cfg.nbuf) (k : Res α) :
    withBuffer i s k = k := by simp [withBuffer, isBuffer, h]

/-! ### Memory accesses of the block -/

theorem memRead_eq_next {a : Nat} {s : State} {v : Word32} :
    memRead a s = .next v ↔ wordInside s.cfg a = true ∧ v = s.mem.readWord a := by
  simp only [memRead]
  by_cases h : wordInside s.cfg a <;> simp [h, eq_comm]

theorem memWrite_eq_next {a : Nat} {v : Word32} {s t : State} :
    memWrite a v s = .next t ↔ wordInside s.cfg a = true ∧ t = { s with mem := s.mem.writeWord a v } := by
  simp only [memWrite]
  by_cases h : wordInside s.cfg a <;> simp [h, eq_comm]

theorem memRead_inside {a : Nat} {s : State} (h : wordInside s.cfg a = true) :
    memRead a s = .next (s.mem.readWord a) := by simp [memRead, h]

theorem memWrite_inside {a : Nat} {s : State} (h : wordInside s.cfg a = true) (v : Word32) :
    memWrite a v s = .next { s with mem := s.mem.writeWord a v } := by simp [memWrite, h]

/-! ### Marshaller primitives -/

theorem setWidthTo_eq_next {w : FrameWidth} {s t : State} :
    setWidthTo w s = .next t ↔ s.xbusy = false ∧ t = { s with fw := w } := by
  simp only [setWidthTo]
  cases h : s.xbusy <;> simp [eq_comm]

theorem setWidthTo_free {w : FrameWidth} {s : State} (h : s.xbusy = false) :
    setWidthTo w s = .next { s with fw := w } := by simp [setWidthTo, h]

theorem transmit_eq_next {v : Word32} {s t : State} :
    transmit v s = .next t ↔
      s.xbusy = false ∧ s.irqp = false ∧ t = exchangeStarted (lowBits s.fw.bits v) s := by
  simp only [transmit, exchangeStarted]
  cases h : s.xbusy <;> cases h' : s.irqp <;> simp [eq_comm]

theorem transmit_free {v : Word32} {s : State} (h : s.xbusy = false) (h' : s.irqp = false) :
    transmit v s = .next (exchangeStarted (lowBits s.fw.bits v) s) := transmit_eq_next.2 ⟨h, h', rfl⟩

theorem receive_eq_next {s : State} {p : BitVec 16 × State} :
    receive s = .next p ↔ s.irqp = true ∧ s.xbusy = false ∧ p = (s.rxr, { s with irqp := false }) := by
  simp only [receive]
  cases h : s.irqp <;> cases h' : s.xbusy <;> simp [eq_comm]

theorem takeInterrupt_eq_next {s : State} {p : BitVec 16 × State} :
    takeInterrupt s = .next p ↔
      s.irqp = true ∧ s.imask = false ∧ s.xbusy = false ∧ p = (s.rxr, { s with irqp := false }) := by
  simp only [takeInterrupt, irqEnabled]
  by_cases h : s.irqp = true <;> by_cases h' : s.imask = true <;> simp [receive_eq_next, h, h']

theorem takeInterrupt_due {p : Phase} {s : State} (h : entryDue p s) :
    takeInterrupt s = .next (s.rxr, { s with irqp := false }) :=
  takeInterrupt_eq_next.2 ⟨h.1, h.2.1, h.2.2.1, rfl⟩

/-! ### Bit fields -/

theorem lowBits_getLsbD (n : Nat) (v : Word32) (k : Nat) :
    (lowBits n v).getLsbD k = (decide (k < 16) && (v.getLsbD k && decide (k < n))) := by
  simp only [lowBits, BitVec.getLsbD_setWidth, BitVec.getLsbD_and, BitVec.getLsbD_allOnes]
  by_cases h : k < 16
  · simp [h, show k < 32 by omega]
  · simp [h]

/-- `WriteTX` keeps a value that fits the width (rule R167). -/
theorem lowBits_setWidth {m : Nat} (n : Nat) (v : BitVec m) (h : m ≤ n) :
    lowBits n (v.setWidth 32) = v.setWidth 16 := by
  apply BitVec.eq_of_getLsbD_eq
  intro k hk
  rw [lowBits_getLsbD, BitVec.getLsbD_setWidth, BitVec.getLsbD_setWidth]
  by_cases hkm : k < m
  · simp [hk, show k < 32 by omega, show k < n by omega]
  · simp [BitVec.getLsbD_of_ge v k (by omega)]

theorem setBit_getLsbD (v : BitVec 16) (k : Nat) (b : Bool) (j : Nat) :
    (setBit v k b).getLsbD j = if j = k ∧ k < 16 then b else v.getLsbD j := by
  unfold setBit
  by_cases hj : j < 16
  · cases b
    · simp only [Bool.false_eq_true, if_false, BitVec.getLsbD_and, BitVec.getLsbD_not, BitVec.getLsbD_shiftLeft, hj]
      by_cases h : j = k
      · simp [h]; omega
      · by_cases h2 : j < k
        · simp [h, h2]
        · simp [h, h2, show j - k ≠ 0 by omega]
    · simp only [if_true, BitVec.getLsbD_or, BitVec.getLsbD_shiftLeft, hj]
      by_cases h : j = k
      · subst h; simp [hj]
      · by_cases h2 : j < k
        · simp [h, h2]
        · simp [h, h2, show j - k ≠ 0 by omega]
  · rw [BitVec.getLsbD_of_ge _ _ (by omega), BitVec.getLsbD_of_ge _ _ (by omega), if_neg (by omega)]

/-- A word is below `2 ^ n` exactly when its bits at and above `n` are 0. -/
theorem lt_two_pow_of_bits {m : Nat} {v : BitVec m} {n : Nat} (h : ∀ k, n ≤ k → v.getLsbD k = false) :
    v.toNat < 2 ^ n := Nat.lt_pow_two_of_testBit _ fun k hk => h k hk

theorem bits_of_lt_two_pow {m : Nat} {v : BitVec m} {n : Nat} (h : v.toNat < 2 ^ n) {k : Nat} (hk : n ≤ k) :
    v.getLsbD k = false := by
  rw [BitVec.getLsbD]
  exact Nat.testBit_lt_two_pow (Nat.lt_of_lt_of_le h (Nat.pow_le_pow_right (by decide) hk))

theorem lowBits_lt (n : Nat) (v : Word32) : (lowBits n v).toNat < 2 ^ n :=
  lt_two_pow_of_bits fun k hk => by rw [lowBits_getLsbD]; simp [show ¬k < n by omega]

/-- A bit set at position `k` keeps a word below `2 ^ (k + 1)`. -/
theorem setBit_lt {v : BitVec 16} {k : Nat} (b : Bool) (h : v.toNat < 2 ^ k) : (setBit v k b).toNat < 2 ^ (k + 1) :=
  lt_two_pow_of_bits fun j hj => by
    rw [setBit_getLsbD, if_neg (by omega)]
    exact bits_of_lt_two_pow h (by omega)

/-- A word that is none of the five widths has no frame width (rule R166). -/
theorem ofBits_none {w : Word32} (h5 : w ≠ 5#32) (h8 : w ≠ 8#32) (h12 : w ≠ 12#32) (h13 : w ≠ 13#32) (h16 : w ≠ 16#32) :
    FrameWidth.ofBits w.toNat = none := by
  unfold FrameWidth.ofBits
  split
  · rename_i e; exact absurd (BitVec.eq_of_toNat_eq e) h5
  · rename_i e; exact absurd (BitVec.eq_of_toNat_eq e) h8
  · rename_i e; exact absurd (BitVec.eq_of_toNat_eq e) h12
  · rename_i e; exact absurd (BitVec.eq_of_toNat_eq e) h13
  · rename_i e; exact absurd (BitVec.eq_of_toNat_eq e) h16
  · rfl

end Sys2Proof.Machine
end

