-- ==== Sys2Proof/Laws/Queue.lean ====
section
/-!
SUPPORT. The micro-operations of the buffers, the queue, the line reset, and FINISH: when each goes on, and with what state.
-/

namespace Sys2Proof.Machine

/-! ### The request byte -/

/-- The assembled byte of a nibble is the pattern of rule R61 with the parity of rule R63 (rule R62). -/
theorem reqByte_eq_reqWord : ∀ v : BitVec 4,
    reqByte v = reqWord (v.getLsbD 0) (v.getLsbD 1) (v.extractLsb' 2 2)
      (v.getLsbD 0 ^^ v.getLsbD 1 ^^ v.getLsbD 2 ^^ v.getLsbD 3) := by decide

/-- The byte that `ARM` builds from a header word (rules R61 to R63). -/
theorem reqByte_hdrNibble (h : Word32) : reqByte (hdrNibble h) = requestOf h := by
  rw [reqByte_eq_reqWord]
  have hb : ∀ k, k < 4 → (hdrNibble h).getLsbD k = h.getLsbD k := fun k hk => by
    simp [hdrNibble, hk]
  have hx : (hdrNibble h).extractLsb' 2 2 = h.extractLsb' 2 2 := by
    apply BitVec.eq_of_getLsbD_eq
    intro k hk
    simp only [BitVec.getLsbD_extractLsb', hk, decide_true, Bool.true_and]
    exact hb _ (by omega)
  rw [requestOf, hx, hb 0 (by decide), hb 1 (by decide), hb 2 (by decide), hb 3 (by decide)]

theorem setWidth_eq_append (b : BitVec 8) : b.setWidth 16 = 0#8 ++ b := by
  apply BitVec.eq_of_getLsbD_eq
  intro k hk
  simp only [BitVec.getLsbD_setWidth, BitVec.getLsbD_append, hk, decide_true, Bool.true_and]
  by_cases h : k < 8
  · simp [h]
  · simp [h, BitVec.getLsbD_of_ge b k (by omega)]

/-! ### ARM -/

theorem armReady_iff {i : BufIdx} {s : State} :
    armReady i s = true ↔ s.q.head? = some i ∧ s.armed = false ∧ s.prst = false ∧ s.phase = Phase.request.code ∧
      s.fw = .w8 ∧ s.xbusy = false ∧ s.irqp = false := by
  simp [armReady, and_assoc]

/-- `ARM(i)` (rule R94): its precondition, and the state it leaves. -/
theorem armBuffer_eq_next {i : BufIdx} {s t : State} :
    armBuffer i s = .next t ↔
      armReady i s = true ∧ wordInside s.cfg (hdrAddr s.cfg i) = true ∧ t = armedWith i s := by
  unfold armBuffer
  by_cases h : armReady i s = true
  · obtain ⟨-, -, -, -, hfw, hx, hi⟩ := armReady_iff.1 h
    simp only [h, if_true, true_and, andThen_eq_next, memRead_eq_next]
    constructor
    · rintro ⟨_, ⟨hw, rfl⟩, ht⟩
      obtain ⟨-, -, rfl⟩ := transmit_eq_next.1 ht
      refine ⟨hw, ?_⟩
      simp only [setPinTo, hfw, armedWith, header]
      rw [FrameWidth.bits, lowBits_setWidth 8 _ (by decide), setWidth_eq_append, reqByte_hdrNibble]
      rfl
    · rintro ⟨hw, rfl⟩
      refine ⟨_, ⟨hw, rfl⟩, ?_⟩
      refine transmit_eq_next.2 ⟨hx, hi, ?_⟩
      simp only [setPinTo, hfw, armedWith, header]
      rw [FrameWidth.bits, lowBits_setWidth 8 _ (by decide), setWidth_eq_append, reqByte_hdrNibble]
      rfl
  · simp [h]

theorem armBuffer_ready {i : BufIdx} {s : State} (h : armReady i s = true) (hi : i.val < s.cfg.nbuf) :
    armBuffer i s = .next (armedWith i s) := armBuffer_eq_next.2 ⟨h, hdr_inside hi, rfl⟩

/-! ### The queue -/

theorem pushBuffer_eq_next {i : BufIdx} {s : State} {p : Bool × State} :
    pushBuffer i s = .next p ↔ i ∉ s.q ∧ p = (s.q.isEmpty, { s with q := s.q ++ [i] }) := by
  unfold pushBuffer
  by_cases h : i ∈ s.q
  · simp [h]
  · simpa [h] using eq_comm

theorem isArmedHead_iff {i : BufIdx} {s : State} :
    isArmedHead i s = true ↔ s.q.head? = some i ∧ s.armed = true := by simp [isArmedHead]

/-- `REMOVE(i, allow)` (rule R112): not queued, armed head, or removed. -/
theorem removeBuffer_eq_next {i : BufIdx} {allow : Bool} {s : State} {p : Bool × State} :
    removeBuffer i allow s = .next p ↔
      (i ∉ s.q ∧ p = (false, s)) ∨
      (i ∈ s.q ∧ isArmedHead i s = true ∧ allow = false ∧ p = (false, s)) ∨
      (i ∈ s.q ∧ isArmedHead i s = false ∧ p = (true, { s with q := s.q.erase i })) := by
  unfold removeBuffer
  by_cases h : i ∈ s.q
  · cases h' : isArmedHead i s
    · simpa [h] using eq_comm
    · cases allow
      · simpa [h] using eq_comm
      · simp [h]
  · simpa [h] using eq_comm

/-! ### The line reset -/

theorem lineResetReady_iff {s : State} :
    lineResetReady s = true ↔ s.prst = true ∧ s.armed = false ∧ s.phase = Phase.request.code ∧ s.xbusy = false ∧
      s.irqp = false := by simp [lineResetReady, and_assoc]

/-- `STARTRESET` (rule R152): its precondition, and the state it leaves. -/
theorem startLineReset_eq_next {s t : State} :
    startLineReset s = .next t ↔ lineResetReady s = true ∧ t = lineResetStarted s := by
  unfold startLineReset
  by_cases h : lineResetReady s = true
  · obtain ⟨-, -, -, hx, hi⟩ := lineResetReady_iff.1 h
    have e : lowBits 16 Config.resetWord = 0xFFFF#16 := by decide
    simp only [h, if_true, true_and]
    rw [setWidthTo_free (by exact hx), andThen_next, transmit_free (by exact hx) (by exact hi), andThen_next]
    simp only [FrameWidth.bits, e, Host.Outcome.next.injEq]
    exact eq_comm
  · simp [h]

/-! ### POP and FINISH -/

/-- `POP()` (rule R113): empty, withheld, or armed. -/
theorem popHead_eq_next {s : State} {p : PopStatus × State} :
    popHead s = .next p ↔ ∃ h rest, s.q = h :: rest ∧ s.armed = true ∧
      ((rest = [] ∧ p = (.empty, completeBuffer h { s with q := rest, armed := false })) ∨
       (∃ n l, rest = n :: l ∧ s.prst = true ∧
          p = (.nextWithheld, completeBuffer h { s with q := rest, armed := false })) ∨
       (∃ n l u, rest = n :: l ∧ s.prst = false ∧
          armBuffer n (completeBuffer h { s with q := rest, armed := false }) = .next u ∧ p = (.nextArmed, u))) := by
  unfold popHead
  cases hq : s.q with
  | nil => simp
  | cons h rest =>
    by_cases ha : s.armed = true
    · cases rest with
      | nil => simpa [ha] using eq_comm
      | cons n l =>
        simp only [ha, if_true]
        by_cases hp : s.prst = true
        · rw [if_pos (by exact hp)]
          simpa [hp] using eq_comm
        · rw [if_neg (by exact hp), andThen_eq_next]
          constructor
          · rintro ⟨u, hu, hp'⟩
            exact ⟨h, n :: l, rfl, trivial, .inr (.inr ⟨n, l, u, rfl, by simpa using hp, hu, (Host.Outcome.next.inj hp').symm⟩)⟩
          · rintro ⟨_, _, he, -, ⟨rfl, -⟩ | ⟨_, _, -, hp', -⟩ | ⟨_, _, u, hr, -, hu, rfl⟩⟩
            · simp at he
            · exact absurd hp' hp
            · obtain ⟨rfl, rfl⟩ := List.cons.inj he
              obtain ⟨rfl, rfl⟩ := List.cons.inj hr
              exact ⟨u, hu, rfl⟩
    · simp [ha]

/-- The state in which `FINISH` calls `POP` for the head `h`. -/
def beforePop (h : BufIdx) (s : State) : State :=
  (setPinTo .input { s with phase := Phase.request.code }).setRes h (ackResult s.ackr)

theorem finishTransfer_head {s : State} {h : BufIdx} {rest : List BufIdx} (hq : s.q = h :: rest) :
    finishTransfer s = andThen (popHead (beforePop h s)) fun x => afterPop x.1 x.2 := by
  unfold finishTransfer
  split
  · rename_i h0; rw [h0] at hq; cases hq
  · rename_i h' rest' h0
    rw [h0] at hq
    obtain ⟨rfl, rfl⟩ := List.cons.inj hq
    rfl

/-- The state in which `POP` has completed the head that `FINISH` gave a result. -/
theorem completeBuffer_beforePop (h : BufIdx) (rest : List BufIdx) (s : State) :
    completeBuffer h { beforePop h s with q := rest, armed := false } = headFinished h rest s := by
  have er : State.res { beforePop h s with q := rest, armed := false } h = ackResult s.ackr := by
    have := setRes_res (setPinTo .input { s with phase := Phase.request.code }) h h (ackResult s.ackr)
    rw [if_pos rfl] at this
    exact this
  unfold completeBuffer
  rw [er]
  rfl

@[simp] theorem headFinished_q (h : BufIdx) (rest : List BufIdx) (s : State) : (headFinished h rest s).q = rest := rfl
@[simp] theorem headFinished_cfg (h : BufIdx) (rest : List BufIdx) (s : State) : (headFinished h rest s).cfg = s.cfg := rfl
@[simp] theorem headFinished_armed (h : BufIdx) (rest : List BufIdx) (s : State) : (headFinished h rest s).armed = false := rfl
@[simp] theorem headFinished_phase (h : BufIdx) (rest : List BufIdx) (s : State) :
    (headFinished h rest s).phase = Phase.request.code := rfl
@[simp] theorem headFinished_prst (h : BufIdx) (rest : List BufIdx) (s : State) : (headFinished h rest s).prst = s.prst := rfl
@[simp] theorem headFinished_xbusy (h : BufIdx) (rest : List BufIdx) (s : State) : (headFinished h rest s).xbusy = s.xbusy := rfl
@[simp] theorem headFinished_irqp (h : BufIdx) (rest : List BufIdx) (s : State) : (headFinished h rest s).irqp = s.irqp := rfl
@[simp] theorem headFinished_fw (h : BufIdx) (rest : List BufIdx) (s : State) : (headFinished h rest s).fw = s.fw := rfl
@[simp] theorem headFinished_mem (h : BufIdx) (rest : List BufIdx) (s : State) : (headFinished h rest s).mem = s.mem := rfl

/-- `FINISH` (rule R136) of an armed head on a marshaller at rest: the head is finished, then what is due is started. -/
theorem finishTransfer_done {s : State} {h : BufIdx} {rest : List BufIdx} (hq : s.q = h :: rest)
    (ha : s.armed = true) (hx : s.xbusy = false) (hi : s.irqp = false) (hfw : s.fw = .w8)
    (hn : ∀ n, rest.head? = some n → n.val < s.cfg.nbuf) :
    finishTransfer s = .next (nextStarted rest (headFinished h rest s)) := by
  have hlr : s.prst = true → startLineReset (headFinished h rest s) = .next (lineResetStarted (headFinished h rest s)) :=
    fun hp => startLineReset_eq_next.2 ⟨lineResetReady_iff.2 ⟨hp, rfl, rfl, hx, hi⟩, rfl⟩
  have hqu : (beforePop h s).q = h :: rest := hq
  have hau : (beforePop h s).armed = true := ha
  rw [finishTransfer_head hq]
  cases hp : s.prst with
  | true =>
    have hs : nextStarted rest (headFinished h rest s) = lineResetStarted (headFinished h rest s) := if_pos hp
    rw [hs, ← hlr hp]
    cases rest with
    | nil =>
      rw [popHead_eq_next.2 ⟨h, [], hqu, hau, .inl ⟨rfl, rfl⟩⟩, andThen_next, completeBuffer_beforePop]
      exact if_pos ⟨by simp, hp⟩
    | cons n l =>
      rw [popHead_eq_next.2 ⟨h, n :: l, hqu, hau, .inr (.inl ⟨n, l, rfl, hp, rfl⟩)⟩, andThen_next, completeBuffer_beforePop]
      exact if_pos ⟨by simp, hp⟩
  | false =>
    cases rest with
    | nil =>
      rw [popHead_eq_next.2 ⟨h, [], hqu, hau, .inl ⟨rfl, rfl⟩⟩, andThen_next, completeBuffer_beforePop]
      simp [afterPop, nextStarted, hp]
    | cons n l =>
      have harm : armBuffer n (headFinished h (n :: l) s) = .next (armedWith n (headFinished h (n :: l) s)) :=
        armBuffer_ready (armReady_iff.2 ⟨rfl, rfl, hp, rfl, hfw, hx, hi⟩) (hn n rfl)
      rw [← completeBuffer_beforePop] at harm
      rw [popHead_eq_next.2 ⟨h, n :: l, hqu, hau, .inr (.inr ⟨n, l, _, rfl, hp, harm, rfl⟩)⟩, andThen_next,
        completeBuffer_beforePop]
      simp [afterPop, nextStarted, hp]

end Sys2Proof.Machine
end

