-- ==== Sys2Proof/Laws/Commands.lean ====
section
/-!
SUPPORT. The bodies of the host commands and the interrupt entries: everything each can do when it goes on.
-/

namespace Sys2Proof.Machine

/-! ### Host commands -/

theorem startOf_exec (d : Dir) (i : BufIdx) (s : State) : exec (startOf d i) s = command (startBody d i) s := by
  cases d <;> rfl

/-- An accepted start, up to the arming (rules R91, R92). -/
theorem startBody_accepted {s : State} {i : BufIdx} {d : Dir} (hi : i.val < s.cfg.nbuf) (hr : s.st i = .ready)
    (hq : i ∉ s.q) :
    startBody d i s =
      if s.q.isEmpty && !s.prst then andThen (armBuffer i (queuedWith d i s)) fun x => .next (.bool true, x)
      else .next (.bool true, queuedWith d i s) := by
  have hin := hdr_inside hi
  unfold startBody
  rw [withBuffer_named hi, if_neg (by simp [hr])]
  simp only [memRead, setOp_cfg, hin, if_true, andThen_next, memWrite, pushBuffer, setOp_q, hq, if_false, setSt_prst,
    setOp_prst]
  cases d <;> rfl

/-- Every outcome of a start that goes on: rejected, queued and armed, queued. -/
theorem startBody_cases {s t : State} {i : BufIdx} {d : Dir} {r : Ret} (h : startBody d i s = .next (r, t)) :
    i.val < s.cfg.nbuf ∧
    ((s.st i ≠ .ready ∧ r = .bool false ∧ t = s) ∨
     (s.st i = .ready ∧ i ∉ s.q ∧ r = .bool true ∧
       ((s.q = [] ∧ s.prst = false ∧ armReady i (queuedWith d i s) = true ∧ t = armedWith i (queuedWith d i s)) ∨
        ((s.q ≠ [] ∨ s.prst = true) ∧ t = queuedWith d i s)))) := by
  have hi : i.val < s.cfg.nbuf := (withBuffer_eq_next.1 h).1
  refine ⟨hi, ?_⟩
  by_cases hr : s.st i = .ready
  · right
    by_cases hq : i ∈ s.q
    · exfalso
      have hin := hdr_inside hi
      unfold startBody at h
      rw [withBuffer_named hi, if_neg (by simp [hr])] at h
      simp only [memRead, setOp_cfg, hin, if_true, andThen_next, memWrite, pushBuffer, setOp_q, hq, andThen_fault] at h
      cases h
    · rw [startBody_accepted hi hr hq] at h
      by_cases hc : (s.q.isEmpty && !s.prst) = true
      · rw [if_pos hc] at h
        obtain ⟨x, hx, hx'⟩ := andThen_eq_next.1 h
        cases hx'
        obtain ⟨ha, -, ht⟩ := armBuffer_eq_next.1 hx
        simp only [Bool.and_eq_true, List.isEmpty_iff, Bool.not_eq_true'] at hc
        exact ⟨hr, hq, rfl, .inl ⟨hc.1, hc.2, ha, ht⟩⟩
      · rw [if_neg hc] at h
        cases h
        refine ⟨hr, hq, rfl, .inr ⟨?_, rfl⟩⟩
        by_cases hn : s.q = []
        · right; simpa [hn] using hc
        · exact .inl hn
  · left
    unfold startBody at h
    rw [withBuffer_named hi, if_pos hr] at h
    cases h
    exact ⟨hr, rfl, rfl⟩

/-- Every outcome of a cancel that goes on (rule R93): rejected, or removed. -/
theorem cancelBody_cases {s t : State} {i : BufIdx} {r : Ret} (h : cancelBody i s = .next (r, t)) :
    i.val < s.cfg.nbuf ∧
    ((r = .bool false ∧ t = s) ∨
     (s.st i = .busy ∧ i ∈ s.q ∧ isArmedHead i s = false ∧ r = .bool true ∧
       t = { s.setSt i .ready with q := s.q.erase i, evt := s.evt ++ [.cancelled i] })) := by
  have hi : i.val < s.cfg.nbuf := (withBuffer_eq_next.1 h).1
  refine ⟨hi, ?_⟩
  unfold cancelBody at h
  rw [withBuffer_named hi] at h
  by_cases hb : s.st i = .busy
  · rw [if_neg (by simp [hb])] at h
    obtain ⟨⟨ok, u⟩, hr, h⟩ := andThen_eq_next.1 h
    rcases removeBuffer_eq_next.1 hr with ⟨-, e⟩ | ⟨-, -, -, e⟩ | ⟨hm, ha, e⟩ <;> cases e <;> cases h
    · exact .inl ⟨rfl, rfl⟩
    · exact .inl ⟨rfl, rfl⟩
    · exact .inr ⟨hb, hm, ha, rfl, rfl⟩
  · rw [if_pos hb] at h
    cases h
    exact .inl ⟨rfl, rfl⟩

/-- Every outcome of the command RESET that goes on (rule R151): a no-op, deferred, or started. -/
theorem resetBody_cases {s t : State} {r : Ret} (h : resetBody s = .next (r, t)) :
    r = .nothing ∧
    ((s.prst = true ∧ t = s) ∨ (s.prst = false ∧ s.q ≠ [] ∧ t = { s with prst := true }) ∨
     (s.prst = false ∧ s.q = [] ∧ lineResetReady { s with prst := true } = true ∧
       t = lineResetStarted { s with prst := true })) := by
  unfold resetBody at h
  by_cases hp : s.prst = true
  · rw [if_pos hp] at h; cases h; exact ⟨rfl, .inl ⟨hp, rfl⟩⟩
  · rw [if_neg hp] at h
    simp only [Bool.not_eq_true] at hp
    by_cases hq : s.q = []
    · rw [if_pos (by simp [hq])] at h
      obtain ⟨u, hu, h⟩ := andThen_eq_next.1 h
      cases h
      obtain ⟨h1, h2⟩ := startLineReset_eq_next.1 hu
      exact ⟨rfl, .inr (.inr ⟨hp, hq, h1, h2⟩)⟩
    · rw [if_neg (by simp [hq])] at h
      cases h
      exact ⟨rfl, .inr (.inl ⟨hp, hq, rfl⟩)⟩

/-! ### Interrupt entries -/

/-- `IRQ.REQUEST` (rule R127). -/
theorem entryRequest_eq_next {s t : State} :
    entryRequest s = .next t ↔ s.xbusy = false ∧ s.irqp = false ∧
      t = exchangeStarted 0#16 { s with pin := .input, fw := .w5, phase := 1#4 } := by
  unfold entryRequest
  simp only [andThen_eq_next, setWidthTo_eq_next, transmit_eq_next, Host.Outcome.next.injEq]
  have e : lowBits 5 Config.ackTx = 0#16 := by decide
  constructor
  · rintro ⟨_, ⟨hx, rfl⟩, _, ⟨-, hi, rfl⟩, rfl⟩
    refine ⟨hx, hi, ?_⟩
    simp only [FrameWidth.bits, e]; rfl
  · rintro ⟨hx, hi, rfl⟩
    refine ⟨_, ⟨hx, rfl⟩, _, ⟨hx, hi, rfl⟩, ?_⟩
    simp only [FrameWidth.bits, e]; rfl

theorem rxFirstBit_eq (rx : BitVec 16) : rxFirstBit rx = 0#31 ++ rx.extractLsb' 4 1 := by
  apply BitVec.eq_of_getLsbD_eq
  intro k hk
  simp only [rxFirstBit, BitVec.getLsbD_setWidth, BitVec.getLsbD_append, hk, decide_true, Bool.true_and]
  by_cases h : k < 1
  · simp [h]
  · simp [h, BitVec.getLsbD_of_ge (rx.extractLsb' 4 1) k (by omega)]

/-- `IRQ.ACK.R` (rule R128). -/
theorem entryAckR_eq_next {rx : BitVec 16} {s t : State} :
    entryAckR rx s = .next t ↔ s.xbusy = false ∧ s.irqp = false ∧
      t = exchangeStarted 0#16
        { s with ackr := rx.extractLsb' 1 3, acc := 0#31 ++ rx.extractLsb' 4 1, fw := .w12, phase := 5#4 } := by
  unfold entryAckR
  simp only [andThen_eq_next, setWidthTo_eq_next, transmit_eq_next, Host.Outcome.next.injEq, rxFirstBit_eq, rxAck]
  have e : lowBits 12 0#32 = 0#16 := by decide
  constructor
  · rintro ⟨_, ⟨hx, rfl⟩, _, ⟨-, hi, rfl⟩, rfl⟩
    refine ⟨hx, hi, ?_⟩
    simp only [FrameWidth.bits, e]; rfl
  · rintro ⟨hx, hi, rfl⟩
    refine ⟨_, ⟨hx, rfl⟩, _, ⟨hx, hi, rfl⟩, ?_⟩
    simp only [FrameWidth.bits, e]; rfl

/-- The stash of a write is the upper 19 payload bits with the parity above them (rule R69). -/
theorem writeStash_eq (p : Word32) :
    writeStash p = 0#12 ++ BitVec.ofBool (xorfold p) ++ p.extractLsb' 13 19 := by
  apply BitVec.eq_of_getLsbD_eq
  intro k hk
  simp only [writeStash, payloadParity, BitVec.getLsbD_or, BitVec.getLsbD_setWidth, BitVec.getLsbD_shiftLeft,
    BitVec.getLsbD_append, BitVec.getLsbD_extractLsb', BitVec.getLsbD_ofBool, hk, decide_true, Bool.true_and]
  by_cases h : k < 19
  · simp [h]
  · by_cases h2 : k = 19
    · subst h2; simp
    · simp [h, show ¬k - 19 < 1 by omega, show k - 19 ≠ 0 by omega]

/-- A value of 13 bits or fewer goes out as it is at width 13 (rule R167). -/
theorem lowBits_thirteen (v : BitVec 13) : lowBits 13 (v.setWidth 32) = 0#3 ++ v := by
  rw [lowBits_setWidth 13 v (by decide)]
  apply BitVec.eq_of_getLsbD_eq
  intro k hk
  simp only [BitVec.getLsbD_setWidth, BitVec.getLsbD_append, hk, decide_true, Bool.true_and]
  by_cases h : k < 13
  · simp [h]
  · simp [h, BitVec.getLsbD_of_ge v k (by omega)]

/-- `IRQ.ACK.W` (rule R129). -/
theorem entryAckW_eq_next {rx : BitVec 16} {s t : State} :
    entryAckW rx s = .next t ↔ ∃ h, s.q.head? = some h ∧ wordInside s.cfg (payAddr s.cfg h) = true ∧
      s.xbusy = false ∧ s.irqp = false ∧
      t = exchangeStarted (0#3 ++ (payload s h).extractLsb' 0 13)
        { s with
          ackr := rx.extractLsb' 1 3
          pin := .output
          fw := .w13
          acc := 0#12 ++ BitVec.ofBool (xorfold (payload s h)) ++ (payload s h).extractLsb' 13 19
          phase := 2#4 } := by
  unfold entryAckW
  cases hq : s.q with
  | nil => simp
  | cons h rest =>
    simp only [andThen_eq_next, memRead_eq_next, setWidthTo_eq_next, transmit_eq_next, Host.Outcome.next.injEq,
      List.head?_cons, Option.some.injEq]
    constructor
    · rintro ⟨_, ⟨hw, rfl⟩, _, ⟨hx, rfl⟩, _, ⟨-, hi, rfl⟩, rfl⟩
      refine ⟨h, rfl, hw, hx, hi, ?_⟩
      simp only [FrameWidth.bits, lowBits_thirteen, writeStash_eq]
      rfl
    · rintro ⟨_, rfl, hw, hx, hi, rfl⟩
      refine ⟨_, ⟨hw, rfl⟩, _, ⟨hx, rfl⟩, _, ⟨hx, hi, rfl⟩, ?_⟩
      simp only [FrameWidth.bits, lowBits_thirteen, writeStash_eq]
      rfl

theorem insertField_getLsbD (v : Word32) (lo n : Nat) (f : Word32) (k : Nat) (hn : n ≤ 32) :
    (insertField v lo n f).getLsbD k =
      if k < 32 then if lo ≤ k ∧ k < lo + n then f.getLsbD (k - lo) else v.getLsbD k else false := by
  by_cases hk : k < 32
  · simp only [insertField, BitVec.getLsbD_or, BitVec.getLsbD_and, BitVec.getLsbD_not, BitVec.getLsbD_shiftLeft,
      BitVec.getLsbD_setWidth, BitVec.getLsbD_allOnes, hk, decide_true, Bool.true_and, if_true]
    by_cases h1 : k < lo
    · simp [h1, show ¬lo ≤ k by omega]
    · by_cases h2 : k < lo + n
      · simp [h1, show lo ≤ k by omega, h2, show k - lo < 32 by omega, show k - lo < n by omega]
      · simp [h1, h2, show ¬k - lo < n by omega]
  · rw [if_neg hk, BitVec.getLsbD_of_ge _ _ (by omega)]

/-- `ACC[12:1] <- rx[11:0]` (rule R130). -/
theorem mergeRd1_eq (acc : Word32) (rx : BitVec 16) :
    mergeRd1 acc rx = acc.extractLsb' 13 19 ++ rx.extractLsb' 0 12 ++ acc.extractLsb' 0 1 := by
  apply BitVec.eq_of_getLsbD_eq
  intro k hk
  rw [mergeRd1, insertField_getLsbD _ _ _ _ _ (by decide), if_pos hk]
  simp only [BitVec.getLsbD_append, BitVec.getLsbD_extractLsb', BitVec.getLsbD_setWidth]
  by_cases h1 : k < 1
  · simp [h1]
  · by_cases h2 : k < 13
    · simp [h1, show 1 ≤ k by omega, h2, show k - 1 < 12 by omega, show k - 1 < 32 by omega]
    · simp only [show ¬(1 ≤ k ∧ k < 1 + 12) by omega, if_false, h1, show ¬k - 1 < 12 by omega,
        show k - 1 - 12 < 19 by omega, decide_true, Bool.true_and]
      congr 1; omega

/-- `ACC[25:13] <- rx[12:0]` (rule R131). -/
theorem mergeRd2_eq (acc : Word32) (rx : BitVec 16) :
    mergeRd2 acc rx = acc.extractLsb' 26 6 ++ rx.extractLsb' 0 13 ++ acc.extractLsb' 0 13 := by
  apply BitVec.eq_of_getLsbD_eq
  intro k hk
  rw [mergeRd2, insertField_getLsbD _ _ _ _ _ (by decide), if_pos hk]
  simp only [BitVec.getLsbD_append, BitVec.getLsbD_extractLsb', BitVec.getLsbD_setWidth]
  by_cases h1 : k < 13
  · simp [h1, show ¬13 ≤ k by omega]
  · by_cases h2 : k < 26
    · simp [h1, show 13 ≤ k by omega, h2, show k - 13 < 13 by omega, show k - 13 < 32 by omega]
    · simp only [show ¬(13 ≤ k ∧ k < 13 + 13) by omega, if_false, h1, show ¬k - 13 < 13 by omega,
        show k - 13 - 13 < 6 by omega, decide_true, Bool.true_and]
      congr 1; omega

/-- `ACC[31:26] <- rx[5:0]` (rule R132). -/
theorem mergeRd3_eq (acc : Word32) (rx : BitVec 16) :
    mergeRd3 acc rx = rx.extractLsb' 0 6 ++ acc.extractLsb' 0 26 := by
  apply BitVec.eq_of_getLsbD_eq
  intro k hk
  rw [mergeRd3, insertField_getLsbD _ _ _ _ _ (by decide), if_pos hk]
  simp only [BitVec.getLsbD_append, BitVec.getLsbD_extractLsb', BitVec.getLsbD_setWidth]
  by_cases h1 : k < 26
  · simp [h1, show ¬26 ≤ k by omega]
  · simp [h1, show 26 ≤ k by omega, show k < 26 + 6 by omega, show k - 26 < 6 by omega, show k - 26 < 32 by omega]

/-- `IRQ.READ_DATA1` (rule R130). -/
theorem entryReadData1_eq_next {rx : BitVec 16} {s t : State} :
    entryReadData1 rx s = .next t ↔ s.xbusy = false ∧ s.irqp = false ∧
      t = exchangeStarted 0#16
        { s with
          acc := s.acc.extractLsb' 13 19 ++ rx.extractLsb' 0 12 ++ s.acc.extractLsb' 0 1, fw := .w13, phase := 6#4 } := by
  unfold entryReadData1
  simp only [andThen_eq_next, setWidthTo_eq_next, transmit_eq_next, Host.Outcome.next.injEq, mergeRd1_eq]
  have e : lowBits 13 0#32 = 0#16 := by decide
  constructor
  · rintro ⟨_, ⟨hx, rfl⟩, _, ⟨-, hi, rfl⟩, rfl⟩
    refine ⟨hx, hi, ?_⟩
    simp only [FrameWidth.bits, e]; rfl
  · rintro ⟨hx, hi, rfl⟩
    refine ⟨_, ⟨hx, rfl⟩, _, ⟨hx, hi, rfl⟩, ?_⟩
    simp only [FrameWidth.bits, e]; rfl

/-- `IRQ.READ_DATA2` (rule R131). -/
theorem entryReadData2_eq_next {rx : BitVec 16} {s t : State} :
    entryReadData2 rx s = .next t ↔ s.xbusy = false ∧ s.irqp = false ∧
      t = exchangeStarted 0#16
        { s with
          acc := s.acc.extractLsb' 26 6 ++ rx.extractLsb' 0 13 ++ s.acc.extractLsb' 0 13, fw := .w8, phase := 7#4 } := by
  unfold entryReadData2
  simp only [andThen_eq_next, setWidthTo_eq_next, transmit_eq_next, Host.Outcome.next.injEq, mergeRd2_eq]
  have e : lowBits 8 0#32 = 0#16 := by decide
  constructor
  · rintro ⟨_, ⟨hx, rfl⟩, _, ⟨-, hi, rfl⟩, rfl⟩
    refine ⟨hx, hi, ?_⟩
    simp only [FrameWidth.bits, e]; rfl
  · rintro ⟨hx, hi, rfl⟩
    refine ⟨_, ⟨hx, rfl⟩, _, ⟨hx, hi, rfl⟩, ?_⟩
    simp only [FrameWidth.bits, e]; rfl

/-- The state in which `IRQ.READ_DATA3` calls `FINISH` for the head `h` (rule R132). -/
def readStored (rx : BitVec 16) (h : BufIdx) (s : State) : State :=
  { s with
    acc := rx.extractLsb' 0 6 ++ s.acc.extractLsb' 0 26
    rpar := rx.getLsbD 6
    mem := s.mem.writeWord (payAddr s.cfg h) (rx.extractLsb' 0 6 ++ s.acc.extractLsb' 0 26) }

/-- `IRQ.READ_DATA3` (rule R132). -/
theorem entryReadData3_head {rx : BitVec 16} {s : State} {h : BufIdx} (hq : s.q.head? = some h) :
    entryReadData3 rx s =
      if wordInside s.cfg (payAddr s.cfg h) then finishTransfer (readStored rx h s) else .fault .badAddress := by
  unfold entryReadData3
  split
  · rename_i hs; rw [hs] at hq; cases hq
  · rename_i h' rest hs
    rw [hs] at hq
    cases hq
    simp only [memWrite, mergeRd3_eq, rxParity]
    cases wordInside s.cfg (payAddr s.cfg h) <;> rfl

/-- `IRQ.WRITE_DATA1` (rule R133). -/
theorem entryWriteData1_eq_next {s t : State} :
    entryWriteData1 s = .next t ↔ s.xbusy = false ∧ s.irqp = false ∧
      t = exchangeStarted (lowBits s.fw.bits ((s.acc.extractLsb' 0 13).setWidth 32))
        { s with acc := 0#13 ++ s.acc.extractLsb' 13 19, phase := 3#4 } := by
  have e : s.acc >>> 13 = 0#13 ++ s.acc.extractLsb' 13 19 := by
    apply BitVec.eq_of_getLsbD_eq
    intro k hk
    simp only [BitVec.getLsbD_ushiftRight, BitVec.getLsbD_append, BitVec.getLsbD_extractLsb']
    by_cases h : k < 19
    · simp [h]
    · simp [h, BitVec.getLsbD_of_ge s.acc (13 + k) (by omega)]
  unfold entryWriteData1
  simp only [andThen_eq_next, transmit_eq_next, Host.Outcome.next.injEq, e]
  constructor
  · rintro ⟨_, ⟨hx, hi, rfl⟩, rfl⟩; exact ⟨hx, hi, rfl⟩
  · rintro ⟨hx, hi, rfl⟩; exact ⟨_, ⟨hx, hi, rfl⟩, rfl⟩

/-- `IRQ.WRITE_DATA2` (rule R134). -/
theorem entryWriteData2_eq_next {s t : State} :
    entryWriteData2 s = .next t ↔ s.xbusy = false ∧ s.irqp = false ∧
      t = exchangeStarted (0#8 ++ s.acc.extractLsb' 0 8) { s with fw := .w8, phase := 4#4 } := by
  unfold entryWriteData2
  simp only [andThen_eq_next, setWidthTo_eq_next, transmit_eq_next, Host.Outcome.next.injEq]
  have e := lowBits_setWidth 8 (s.acc.extractLsb' 0 8) (by decide)
  rw [setWidth_eq_append] at e
  constructor
  · rintro ⟨_, ⟨hx, rfl⟩, _, ⟨-, hi, rfl⟩, rfl⟩
    refine ⟨hx, hi, ?_⟩
    simp only [FrameWidth.bits, e]; rfl
  · rintro ⟨hx, hi, rfl⟩
    refine ⟨_, ⟨hx, rfl⟩, _, ⟨hx, hi, rfl⟩, ?_⟩
    simp only [FrameWidth.bits, e]; rfl

/-- `FINISH` (rule R136), whatever the state: if it goes on, the head was armed, and the result is the table of the rule. -/
theorem finishTransfer_cases {s t : State} (ht : finishTransfer s = .next t) :
    ∃ h rest, s.q = h :: rest ∧ s.armed = true ∧ t = nextStarted rest (headFinished h rest s) ∧
      ((rest = [] ∧ s.prst = false) ∨ (s.xbusy = false ∧ s.irqp = false)) := by
  cases hq : s.q with
  | nil => simp [finishTransfer, hq] at ht
  | cons h rest =>
    rw [finishTransfer_head hq, andThen_eq_next] at ht
    obtain ⟨⟨p, u⟩, hp, hu⟩ := ht
    obtain ⟨h', rest', hq', ha, hc⟩ := popHead_eq_next.1 hp
    have hq'' : h :: rest = h' :: rest' := hq.symm.trans hq'
    cases hq''
    have ha' : s.armed = true := ha
    rcases hc with ⟨rfl, e⟩ | ⟨n, l, rfl, hpr, e⟩ | ⟨n, l, u', rfl, hpr, harm, e⟩
    · rw [completeBuffer_beforePop] at e
      cases e
      by_cases hpr : s.prst = true
      · rw [afterPop, if_pos ⟨by simp, hpr⟩] at hu
        obtain ⟨hr, rfl⟩ := startLineReset_eq_next.1 hu
        have hr' := lineResetReady_iff.1 hr
        exact ⟨h, [], rfl, ha', (if_pos hpr).symm, .inr ⟨hr'.2.2.2.1, hr'.2.2.2.2⟩⟩
      · rw [afterPop, if_neg (by rintro ⟨-, e⟩; exact hpr e)] at hu
        cases hu
        exact ⟨h, [], rfl, ha', by simp [nextStarted, hpr], .inl ⟨rfl, by simpa using hpr⟩⟩
    · rw [completeBuffer_beforePop] at e
      cases e
      have hpr' : s.prst = true := hpr
      rw [afterPop, if_pos ⟨by simp, hpr⟩] at hu
      obtain ⟨hr, rfl⟩ := startLineReset_eq_next.1 hu
      have hr' := lineResetReady_iff.1 hr
      exact ⟨h, n :: l, rfl, ha', (if_pos hpr').symm, .inr ⟨hr'.2.2.2.1, hr'.2.2.2.2⟩⟩
    · rw [completeBuffer_beforePop] at harm
      cases e
      have hpr' : s.prst = false := hpr
      rw [afterPop, if_neg (by simp)] at hu
      cases hu
      obtain ⟨har, -, rfl⟩ := armBuffer_eq_next.1 harm
      have har' := armReady_iff.1 har
      exact ⟨h, n :: l, rfl, ha', by simp [nextStarted, hpr'], .inr ⟨har'.2.2.2.2.2.1, har'.2.2.2.2.2.2⟩⟩

/-- `IRQ.RESET` (rule R153), whatever the state: another word, the end with an empty queue, or the end with the head armed. -/
theorem entryReset_cases {s t : State} (ht : entryReset s = .next t) :
    (s.rcnt ≠ 1#2 ∧ s.xbusy = false ∧ s.irqp = false ∧
      t = exchangeStarted (lowBits s.fw.bits Config.resetWord) { s with rcnt := s.rcnt - 1#2 }) ∨
    (s.rcnt = 1#2 ∧ s.xbusy = false ∧ s.q = [] ∧ t = lineResetEnded s) ∨
    (∃ h rest, s.rcnt = 1#2 ∧ s.xbusy = false ∧ s.q = h :: rest ∧ s.armed = false ∧ s.irqp = false ∧
      t = armedWith h (lineResetEnded s)) := by
  have e1 : s.rcnt - 1#2 = 0#2 ↔ s.rcnt = 1#2 := by generalize s.rcnt = c; revert c; decide
  unfold entryReset at ht
  by_cases hc : s.rcnt = 1#2
  · right
    have hz := e1.2 hc
    simp only [hz, ne_eq, not_true_eq_false, if_false, andThen_eq_next, setWidthTo_eq_next] at ht
    obtain ⟨_, ⟨hx, rfl⟩, ht⟩ := ht
    unfold visitHead at ht
    split at ht
    · rename_i hq
      cases ht
      exact .inl ⟨hc, hx, hq, rfl⟩
    · rename_i h rest hq
      obtain ⟨har, -, rfl⟩ := armBuffer_eq_next.1 ht
      have har' := armReady_iff.1 har
      exact .inr ⟨h, rest, hc, hx, hq, har'.2.1, har'.2.2.2.2.2.2, rfl⟩
  · left
    have hz : s.rcnt - 1#2 ≠ 0#2 := fun e => hc (e1.1 e)
    simp only [hz, ne_eq, not_false_eq_true, if_true, transmit_eq_next] at ht
    obtain ⟨hx, hi, rfl⟩ := ht
    exact ⟨hc, hx, hi, rfl⟩

end Sys2Proof.Machine
end

