-- ==== Sys2Proof/Laws/Shifter.lean ====
section
/-!
SUPPORT. The bit cycle and the whole exchange: what `n` bit cycles do to an exchange that has `n` left.
-/

namespace Sys2Proof.Machine

theorem fw_bits_pos (w : FrameWidth) : 5 ≤ w.bits := by cases w <;> decide

theorem fw_bits_le (w : FrameWidth) : w.bits ≤ 16 := by cases w <;> decide

/-- Bits placed one after the other, from position `k` on. -/
def placeBits (v : BitVec 16) (k : Nat) : List Bool → BitVec 16
  | [] => v
  | b :: bs => placeBits (setBit v k b) (k + 1) bs

theorem placeBits_getLsbD (bs : List Bool) (v : BitVec 16) (k j : Nat) :
    (placeBits v k bs).getLsbD j = if k ≤ j ∧ j < k + bs.length ∧ j < 16 then bs.getD (j - k) false else v.getLsbD j := by
  induction bs generalizing v k with
  | nil => simp only [placeBits, List.length_nil]; rw [if_neg (by omega)]
  | cons b bs ih =>
    rw [placeBits, ih, setBit_getLsbD]
    by_cases hj : j < 16
    · by_cases h1 : j = k
      · subst h1; simp [hj]
      · by_cases h2 : k ≤ j ∧ j < k + (b :: bs).length
        · have e : j - k = (j - (k + 1)) + 1 := by omega
          simp only [List.length_cons] at h2
          rw [if_pos ⟨by omega, by omega, hj⟩, if_pos ⟨h2.1, by simp only [List.length_cons]; omega, hj⟩, e,
            List.getD_cons_succ]
        · simp only [List.length_cons] at h2
          rw [if_neg (by omega), if_neg (by omega), if_neg (by simp only [List.length_cons]; omega)]
    · rw [if_neg (by omega), if_neg (by omega), if_neg (by omega)]

/-- The bits of an exchange placed from position 0 are the word of those bits (rules R40, R171). -/
theorem placeBits_zero (bs : List Bool) : placeBits 0#16 0 bs = wordOfBits bs := by
  apply BitVec.eq_of_getLsbD_eq
  intro j hj
  rw [placeBits_getLsbD, wordOfBits, BitVec.getLsbD_setWidth, BitVec.getLsbD_ofBoolListLE]
  by_cases h2 : j < bs.length
  · rw [if_pos ⟨by omega, by omega, hj⟩]; simp [hj]
  · rw [if_neg (by omega)]
    simp [hj, List.getElem?_eq_none (Nat.le_of_not_lt h2)]

@[simp] theorem wireBits_length {n : Nat} (v : BitVec n) : (wireBits v).length = n := by simp [wireBits]

/-- The word of the bits of a frame is the frame. -/
theorem wordOfBits_wireBits {n : Nat} (v : BitVec n) : wordOfBits (wireBits v) = v.setWidth 16 := by
  apply BitVec.eq_of_getLsbD_eq
  intro j hj
  rw [wordOfBits, BitVec.getLsbD_setWidth, BitVec.getLsbD_ofBoolListLE, BitVec.getLsbD_setWidth]
  by_cases h : j < n
  · simp [hj, wireBits, h]
  · simp [hj, wireBits, h, BitVec.getLsbD_of_ge v j (Nat.le_of_not_lt h)]

/-- The transmit bits from cycle `k` on, `n` of them. -/
def bitsFrom (v : BitVec 16) (k n : Nat) : List Bool := (List.range n).map fun j => v.getLsbD (k + j)

theorem bitsFrom_succ (v : BitVec 16) (k n : Nat) : bitsFrom v k (n + 1) = v.getLsbD k :: bitsFrom v (k + 1) n := by
  unfold bitsFrom
  rw [List.range_succ_eq_map, List.map_cons, List.map_map]
  simp only [Nat.add_zero, List.cons.injEq, true_and, List.map_inj_left, Function.comp]
  intro j _
  rw [show k + (j + 1) = k + 1 + j by omega]

@[simp] theorem bitsFrom_length (v : BitVec 16) (k n : Nat) : (bitsFrom v k n).length = n := by simp [bitsFrom]

/-- The bits drawn from counter `d` on, `n` of them (rule R172). -/
def drawsFrom (d n : Nat) : List Bool := (List.range n).map fun j => Config.drawBit (d + j)

theorem drawsFrom_succ (d n : Nat) : drawsFrom d (n + 1) = Config.drawBit d :: drawsFrom (d + 1) n := by
  unfold drawsFrom
  rw [List.range_succ_eq_map, List.map_cons, List.map_map]
  simp only [Nat.add_zero, List.cons.injEq, true_and, List.map_inj_left, Function.comp]
  intro j _
  rw [show d + (j + 1) = d + 1 + j by omega]

/-- Where the sampled bit comes from, and what of the state taking it changes (rule R172). -/
theorem sample_spec (s : State) : ∃ b tgt d, sample s = (b, { s with target := tgt, draws := d }) ∧
    (s.pin = .output → b = Config.drawBit s.draws ∧ tgt = s.target ∧ d = s.draws + 1) ∧
    (s.pin = .input → d = s.draws ∧ tgt = s.target.tail ∧ b = s.target.head?.getD (Config.targetBit s.wire)) := by
  unfold sample
  split
  · rename_i hp
    exact ⟨_, s.target, s.draws + 1, rfl, by simp [hp]⟩
  · rename_i hp
    split
    · rename_i b rest ht
      exact ⟨b, rest, s.draws, rfl, by simp [hp], by simp [ht]⟩
    · rename_i ht
      exact ⟨Config.targetBit s.wire, s.target, s.draws, rfl, by simp [hp], by simp [ht]⟩

/-- The count after one more cycle. -/
theorem xcnt_succ {s : State} (h : s.xcnt.toNat < s.fw.bits) : (s.xcnt + 1#5).toNat = s.xcnt.toNat + 1 := by
  have := fw_bits_le s.fw
  rw [BitVec.toNat_add, show (1#5).toNat = 1 from rfl]
  omega

/-- A bit cycle that is not the last of its exchange (rule R171). -/
theorem shiftBit_more {b : Bool} {s : State} (h : s.xcnt.toNat + 1 < s.fw.bits) :
    shiftBit b s = { s with
      rxsh := setBit s.rxsh s.xcnt.toNat b
      wire := s.wire ++ [{ oe := s.pin.code, o := s.txr.getLsbD s.xcnt.toNat, s := b }]
      xcnt := s.xcnt + 1#5 } := by
  unfold shiftBit
  exact if_neg (by simp only [xcnt_succ (show s.xcnt.toNat < s.fw.bits by omega)]; omega)

/-- The last bit cycle of an exchange (rules R171, R173). -/
theorem shiftBit_last {b : Bool} {s : State} (h : s.xcnt.toNat + 1 = s.fw.bits) :
    shiftBit b s = { s with
      rxsh := setBit s.rxsh s.xcnt.toNat b
      rxr := setBit s.rxsh s.xcnt.toNat b
      wire := s.wire ++ [{ oe := s.pin.code, o := s.txr.getLsbD s.xcnt.toNat, s := b }]
      xcnt := s.xcnt + 1#5
      xbusy := false
      irqp := true } := by
  unfold shiftBit
  exact if_pos (by simp only [xcnt_succ (show s.xcnt.toNat < s.fw.bits by omega)]; omega)

theorem xcnt_last {s : State} (h : s.xcnt.toNat + 1 = s.fw.bits) : s.xcnt + 1#5 = BitVec.ofNat 5 s.fw.bits := by
  apply BitVec.eq_of_toNat_eq
  rw [xcnt_succ (by omega), h, BitVec.toNat_ofNat, Nat.mod_eq_of_lt]
  have := fw_bits_le s.fw
  omega

/-- The `n` bit cycles that complete an exchange with `n` left (rules R170, R171, R173): which word is received, what the wire
gains, and where the sampled bits come from. -/
theorem bitCycles_complete (n : Nat) : ∀ s : State, s.xcnt.toNat + n = s.fw.bits → 0 < n →
    ∃ bs tgt d, bs.length = n ∧
      bitCycles n s = { s with
        rxr := placeBits s.rxsh s.xcnt.toNat bs
        rxsh := placeBits s.rxsh s.xcnt.toNat bs
        xcnt := BitVec.ofNat 5 s.fw.bits
        xbusy := false
        irqp := true
        wire := s.wire ++ cyclesOf s.pin (bitsFrom s.txr s.xcnt.toNat n) bs
        target := tgt
        draws := d } ∧
      (s.pin = .output → bs = drawsFrom s.draws n ∧ tgt = s.target ∧ d = s.draws + n) ∧
      (s.pin = .input → d = s.draws ∧ tgt = s.target.drop n ∧
        (∀ v rest, s.target = v ++ rest → v.length = n → bs = v) ∧
        ∀ k, k < n → bs[k]? = some (s.target[k]?.getD
          (Config.targetBit (s.wire ++ cyclesOf .input (bitsFrom s.txr s.xcnt.toNat k) (bs.take k))))) := by
  induction n with
  | zero => intro s _ h; omega
  | succ n ih =>
    intro s hn _
    obtain ⟨b, tgt, d, hs, ho, hi⟩ := sample_spec s
    have hstep : bitCycles (n + 1) s = bitCycles n (shiftBit b { s with target := tgt, draws := d }) := by
      rw [bitCycles, bitCycle, hs]
    rw [hstep]
    by_cases h0 : n = 0
    · subst h0
      refine ⟨[b], tgt, d, rfl, ?_, ?_, ?_⟩
      · rw [bitCycles, shiftBit_last (by exact hn)]
        simp only [placeBits, bitsFrom_succ, cyclesOf, xcnt_last hn]
        rfl
      · intro hp
        obtain ⟨rfl, rfl, rfl⟩ := ho hp
        exact ⟨by rw [drawsFrom_succ]; rfl, rfl, rfl⟩
      · intro hp
        obtain ⟨rfl, rfl, rfl⟩ := hi hp
        refine ⟨rfl, by simp, fun v rest hv hl => ?_, fun k hk => ?_⟩
        · match v, hl with
          | [x], _ => simp [hv]
        · obtain rfl : k = 0 := by omega
          simp [bitsFrom, cyclesOf, List.head?_eq_getElem?]
    · rw [shiftBit_more (by simp only; omega)]
      obtain ⟨bs, tgt', d', hl, he, ho', hi'⟩ := ih { s with
        target := tgt, draws := d
        rxsh := setBit s.rxsh s.xcnt.toNat b
        wire := s.wire ++ [{ oe := s.pin.code, o := s.txr.getLsbD s.xcnt.toNat, s := b }]
        xcnt := s.xcnt + 1#5 } (by simp only [xcnt_succ (show s.xcnt.toNat < s.fw.bits by omega)]; omega) (by omega)
      refine ⟨b :: bs, tgt', d', by simp [hl], ?_, ?_, ?_⟩
      · rw [he]
        simp only [xcnt_succ (show s.xcnt.toNat < s.fw.bits by omega), placeBits, bitsFrom_succ, cyclesOf,
          List.append_assoc]
        rfl
      · intro hp
        obtain ⟨rfl, rfl, rfl⟩ := ho hp
        obtain ⟨rfl, rfl, rfl⟩ := ho' hp
        refine ⟨by rw [drawsFrom_succ], rfl, ?_⟩
        simp only; omega
      · intro hp
        obtain ⟨rfl, rfl, rfl⟩ := hi hp
        obtain ⟨rfl, rfl, hv', hk'⟩ := hi' hp
        refine ⟨rfl, by simp [List.drop_tail], fun v rest hv hl => ?_, fun k hk => ?_⟩
        · match v, hl with
          | x :: v, hl =>
            rw [hv' v rest (by simp [hv]) (by simpa using hl)]
            simp [hv]
        · match k with
          | 0 => simp [bitsFrom, cyclesOf, List.head?_eq_getElem?]
          | k + 1 =>
            rw [List.getElem?_cons_succ, hk' k (by omega), bitsFrom_succ, List.take_succ_cons]
            simp [cyclesOf, hp, xcnt_succ (show s.xcnt.toNat < s.fw.bits by omega)]

end Sys2Proof.Machine
end

