-- ==== Sys2Proof/Laws/Invariant.lean ====
section
/-!
SUPPORT. How the parts of a step keep the invariants of rule R35: one lemma for each shape of state that a step leaves.
-/

namespace Sys2Proof.Machine

theorem phase_code_inj {p p' : Phase} (h : p.code = p'.code) : p = p' := by
  cases p <;> cases p' <;> first | rfl | exact absurd h (by decide)

/-- The invariants, for a state whose phase is known. -/
structure InvAt (p : Phase) (s : State) : Prop where
  phase : s.phase = p.code
  armedHasHead : s.armed = true → s.q ≠ []
  resetPhaseUnarmed : p = .reset → s.prst = true ∧ s.armed = false
  headIsArmed : s.q ≠ [] → s.prst = false → s.armed = true
  activeIff : (s.xbusy = true ∨ s.irqp = true) ↔ (s.armed = true ∨ p = .reset)
  busyIffQueued : ∀ i, s.st i = .busy ↔ i ∈ s.q
  queueNodup : s.q.Nodup
  notBoth : s.xbusy = true → s.irqp = false
  countBelowWidth : s.xbusy = true → s.xcnt.toNat < s.fw.bits
  widthMatches : s.fw = widthOf p
  resetCount : p = .reset → 1 ≤ s.rcnt.toNat ∧ s.rcnt.toNat ≤ 3
  pinOutIff : s.pin = .output ↔ (p = .request ∧ s.armed = true) ∨ isWritePhase p = true ∨ p = .reset
  pendingReset : s.prst = true → p = .reset ∨ s.armed = true
  dirOfHead : s.armed = true → ∀ h, s.q.head? = some h → s.dir = hdrDir (header s h) ∧ s.dir = s.op h
  readPhaseDir : isReadPhase p = true → s.dir = .read
  writePhaseDir : isWritePhase p = true → s.dir = .write
  phaseArmed : p ≠ .request → p ≠ .reset → s.armed = true
  queueNamesBuffers : ∀ i, i ∈ s.q → i.val < s.cfg.nbuf
  opIsHeader : ∀ i, i ∈ s.q → s.op i = hdrDir (header s i)
  unmasked : s.imask = false
  txrFits : s.xbusy = true → s.txr.toNat < 2 ^ s.fw.bits
  rxshFits : s.xbusy = true → s.rxsh.toNat < 2 ^ s.xcnt.toNat
  rxrFits : s.irqp = true → s.rxr.toNat < 2 ^ s.fw.bits
  memCanonical : s.mem.wf

theorem InvAt.inv {p : Phase} {s : State} (h : InvAt p s) : Inv s := by
  have eq : ∀ {p' : Phase}, s.phase = p'.code → p' = p := fun e => phase_code_inj (e.symm.trans h.phase)
  exact {
    armedHasHead := h.armedHasHead
    resetPhaseUnarmed := fun e => h.resetPhaseUnarmed (eq e).symm
    headIsArmed := h.headIsArmed
    activeIff := h.activeIff.trans (or_congr Iff.rfl ⟨fun e => e ▸ h.phase, fun e => (eq e).symm⟩)
    busyIffQueued := h.busyIffQueued
    queueNodup := h.queueNodup
    notBoth := h.notBoth
    countBelowWidth := h.countBelowWidth
    widthMatches := fun p' e => by rw [eq e]; exact h.widthMatches
    resetCount := fun e => h.resetCount (eq e).symm
    pinOutIff := h.pinOutIff.trans (or_congr ⟨fun e => ⟨e.1 ▸ h.phase, e.2⟩, fun e => ⟨(eq e.1).symm, e.2⟩⟩
      ⟨fun e => ⟨p, h.phase, e⟩, fun ⟨p', e, e'⟩ => by rw [← eq e]; exact e'⟩)
    pendingReset := fun e => (h.pendingReset e).imp (fun e => by rw [← e]; exact h.phase) id
    dirOfHead := h.dirOfHead
    readPhaseDir := fun p' e e' => h.readPhaseDir (by rw [← eq e]; exact e')
    writePhaseDir := fun p' e e' => h.writePhaseDir (by rw [← eq e]; exact e')
    phaseArmed := fun p' e e' e'' => h.phaseArmed (by rw [← eq e]; exact e') (by rw [← eq e]; exact e'')
    phaseNamed := ⟨p, h.phase⟩
    queueNamesBuffers := h.queueNamesBuffers
    opIsHeader := h.opIsHeader
    unmasked := h.unmasked
    txrFits := h.txrFits
    rxshFits := h.rxshFits
    rxrFits := h.rxrFits
    memCanonical := h.memCanonical }

theorem Inv.at {p : Phase} {s : State} (h : Inv s) (hp : s.phase = p.code) : InvAt p s := by
  have eq : ∀ {p' : Phase}, s.phase = p'.code → p' = p := fun e => phase_code_inj (e.symm.trans hp)
  exact {
    phase := hp
    armedHasHead := h.armedHasHead
    resetPhaseUnarmed := fun e => h.resetPhaseUnarmed (e ▸ hp)
    headIsArmed := h.headIsArmed
    activeIff := h.activeIff.trans (or_congr Iff.rfl ⟨fun e => (eq e).symm, fun e => e ▸ hp⟩)
    busyIffQueued := h.busyIffQueued
    queueNodup := h.queueNodup
    notBoth := h.notBoth
    countBelowWidth := h.countBelowWidth
    widthMatches := h.widthMatches p hp
    resetCount := fun e => h.resetCount (e ▸ hp)
    pinOutIff := h.pinOutIff.trans (or_congr ⟨fun e => ⟨(eq e.1).symm, e.2⟩, fun e => ⟨e.1 ▸ hp, e.2⟩⟩
      ⟨fun ⟨p', e, e'⟩ => by rw [← eq e]; exact e', fun e => ⟨p, hp, e⟩⟩)
    pendingReset := fun e => (h.pendingReset e).imp (fun e => (eq e).symm) id
    dirOfHead := h.dirOfHead
    readPhaseDir := h.readPhaseDir p hp
    writePhaseDir := h.writePhaseDir p hp
    phaseArmed := h.phaseArmed p hp
    queueNamesBuffers := h.queueNamesBuffers
    opIsHeader := h.opIsHeader
    unmasked := h.unmasked
    txrFits := h.txrFits
    rxshFits := h.rxshFits
    rxrFits := h.rxrFits
    memCanonical := h.memCanonical }

/-- The fields of the environment and the histories are in no invariant. -/
theorem Inv.env {s : State} (h : Inv s) (sc : List Input) (tg : List Bool) (d : Nat) (r : Ret) :
    Inv { s with script := sc, target := tg, draws := d, ret := r } :=
  { armedHasHead := h.armedHasHead, resetPhaseUnarmed := h.resetPhaseUnarmed, headIsArmed := h.headIsArmed,
    activeIff := h.activeIff, busyIffQueued := h.busyIffQueued, queueNodup := h.queueNodup, notBoth := h.notBoth,
    countBelowWidth := h.countBelowWidth, widthMatches := h.widthMatches, resetCount := h.resetCount,
    pinOutIff := h.pinOutIff, pendingReset := h.pendingReset, dirOfHead := h.dirOfHead, readPhaseDir := h.readPhaseDir,
    writePhaseDir := h.writePhaseDir, phaseArmed := h.phaseArmed, phaseNamed := h.phaseNamed,
    queueNamesBuffers := h.queueNamesBuffers, opIsHeader := h.opIsHeader, unmasked := h.unmasked, txrFits := h.txrFits,
    rxshFits := h.rxshFits, rxrFits := h.rxrFits, memCanonical := h.memCanonical }

/-! ### Between two exchanges -/

/-- The block between two exchanges, with no transfer armed: what `ARM` and `STARTRESET` find (rules R94, R152). -/
structure AtRest (s : State) : Prop where
  unarmed : s.armed = false
  phase : s.phase = Phase.request.code
  width : s.fw = .w8
  noExchange : s.xbusy = false
  noFlag : s.irqp = false
  busyIffQueued : ∀ i, s.st i = .busy ↔ i ∈ s.q
  queueNodup : s.q.Nodup
  queueNamesBuffers : ∀ i, i ∈ s.q → i.val < s.cfg.nbuf
  opIsHeader : ∀ i, i ∈ s.q → s.op i = hdrDir (header s i)
  unmasked : s.imask = false
  memCanonical : s.mem.wf

/-- The idle block (rule R34). -/
theorem AtRest.idle {s : State} (h : AtRest s) (hq : s.q = []) (hp : s.prst = false) (hpin : s.pin = .input) : Inv s :=
  InvAt.inv (p := .request) {
    phase := h.phase
    armedHasHead := fun e => by rw [h.unarmed] at e; cases e
    resetPhaseUnarmed := fun e => by cases e
    headIsArmed := fun e => absurd hq e
    activeIff := by simp [h.noExchange, h.noFlag, h.unarmed]
    busyIffQueued := h.busyIffQueued
    queueNodup := h.queueNodup
    notBoth := fun e => by rw [h.noExchange] at e; cases e
    countBelowWidth := fun e => by rw [h.noExchange] at e; cases e
    widthMatches := h.width
    resetCount := fun e => by cases e
    pinOutIff := by simp [hpin, h.unarmed, isWritePhase]
    pendingReset := fun e => by rw [hp] at e; cases e
    dirOfHead := fun e => by rw [h.unarmed] at e; cases e
    readPhaseDir := fun e => by cases e
    writePhaseDir := fun e => by cases e
    phaseArmed := fun e => absurd rfl e
    queueNamesBuffers := h.queueNamesBuffers
    opIsHeader := h.opIsHeader
    unmasked := h.unmasked
    txrFits := fun e => by rw [h.noExchange] at e; cases e
    rxshFits := fun e => by rw [h.noExchange] at e; cases e
    rxrFits := fun e => by rw [h.noFlag] at e; cases e
    memCanonical := h.memCanonical }

/-- Code of the header bit. -/
theorem hdrDir_eq (h : Word32) : hdrDir h = Dir.ofBit (h.getLsbD 1) := rfl

/-- The head has been armed (rule R94). -/
theorem AtRest.armed {s : State} (hr : AtRest s) {h : BufIdx} (hq : s.q.head? = some h) :
    Inv (armedWith h s) := by
  have hne : s.q ≠ [] := fun e => by rw [e] at hq; cases hq
  exact InvAt.inv (p := .request) {
    phase := hr.phase
    armedHasHead := fun _ => hne
    resetPhaseUnarmed := fun e => by cases e
    headIsArmed := fun _ _ => rfl
    activeIff := ⟨fun _ => .inl rfl, fun _ => .inl rfl⟩
    busyIffQueued := hr.busyIffQueued
    queueNodup := hr.queueNodup
    notBoth := fun _ => hr.noFlag
    countBelowWidth := fun _ => by
      change 0 < s.fw.bits
      rw [hr.width]; decide
    widthMatches := hr.width
    resetCount := fun e => by cases e
    pinOutIff := ⟨fun _ => .inl ⟨rfl, rfl⟩, fun _ => rfl⟩
    pendingReset := fun _ => .inr rfl
    dirOfHead := fun _ h' e => by
      have e' : s.q.head? = some h' := e
      rw [hq] at e'
      cases e'
      exact ⟨rfl, (hr.opIsHeader h (List.mem_of_mem_head? hq)).symm⟩
    readPhaseDir := fun e => by cases e
    writePhaseDir := fun e => by cases e
    phaseArmed := fun e => absurd rfl e
    queueNamesBuffers := hr.queueNamesBuffers
    opIsHeader := hr.opIsHeader
    unmasked := hr.unmasked
    txrFits := fun _ => by
      change (0#8 ++ requestOf (header s h)).toNat < 2 ^ s.fw.bits
      rw [hr.width, ← setWidth_eq_append]
      exact lt_two_pow_of_bits fun k hk => by
        rw [BitVec.getLsbD_setWidth, BitVec.getLsbD_of_ge (requestOf (header s h)) k hk, Bool.and_false]
    rxshFits := fun _ => by change (0 : Nat) < 2 ^ 0; decide
    rxrFits := fun e => by
      have e' : s.irqp = true := e
      rw [hr.noFlag] at e'; cases e'
    memCanonical := hr.memCanonical }

/-- The line reset has been started (rule R152). -/
theorem AtRest.lineReset {s : State} (hr : AtRest s) (hp : s.prst = true) : Inv (lineResetStarted s) :=
  InvAt.inv (p := .reset) {
    phase := rfl
    armedHasHead := fun e => by
      have e' : s.armed = true := e
      rw [hr.unarmed] at e'; cases e'
    resetPhaseUnarmed := fun _ => ⟨hp, hr.unarmed⟩
    headIsArmed := fun _ e => by
      have e' : s.prst = false := e
      rw [hp] at e'; cases e'
    activeIff := ⟨fun _ => .inr rfl, fun _ => .inl rfl⟩
    busyIffQueued := hr.busyIffQueued
    queueNodup := hr.queueNodup
    notBoth := fun _ => hr.noFlag
    countBelowWidth := fun _ => by change 0 < 16; decide
    widthMatches := rfl
    resetCount := fun _ => by change 1 ≤ (3#2).toNat ∧ (3#2).toNat ≤ 3; decide
    pinOutIff := ⟨fun _ => .inr (.inr rfl), fun _ => rfl⟩
    pendingReset := fun _ => .inl rfl
    dirOfHead := fun e => by
      have e' : s.armed = true := e
      rw [hr.unarmed] at e'; cases e'
    readPhaseDir := fun e => by cases e
    writePhaseDir := fun e => by cases e
    phaseArmed := fun _ e => absurd rfl e
    queueNamesBuffers := hr.queueNamesBuffers
    opIsHeader := hr.opIsHeader
    unmasked := hr.unmasked
    txrFits := fun _ => by change (0xFFFF#16).toNat < 2 ^ 16; decide
    rxshFits := fun _ => by change (0 : Nat) < 2 ^ 0; decide
    rxrFits := fun e => by
      have e' : s.irqp = true := e
      rw [hr.noFlag] at e'; cases e'
    memCanonical := hr.memCanonical }

/-- What a terminal entry starts after the head has been finished (rule R136). -/
theorem AtRest.nextStarted {s : State} (hr : AtRest s) (hpin : s.pin = .input) : Inv (nextStarted s.q s) := by
  unfold Machine.nextStarted
  split
  · exact hr.lineReset ‹_›
  · rename_i hp
    split
    · exact hr.idle ‹_› (by simpa using hp) hpin
    · rename_i n l hq
      exact hr.armed (by rw [hq]; rfl)

/-- The head has been finished (rules R95, R113, R136). -/
theorem atRest_headFinished {s : State} {h : BufIdx} {rest : List BufIdx} (hq : s.q = h :: rest) (hx : s.xbusy = false)
    (hi : s.irqp = false) (hfw : s.fw = .w8) (hb : ∀ i, s.st i = .busy ↔ i ∈ s.q) (hn : s.q.Nodup)
    (hnb : ∀ i, i ∈ s.q → i.val < s.cfg.nbuf) (ho : ∀ i, i ∈ s.q → s.op i = hdrDir (header s i))
    (hm : s.imask = false) (hw : s.mem.wf) : AtRest (headFinished h rest s) := by
  rw [hq] at hb hn hnb ho
  have hst : ∀ i, (headFinished h rest s).st i = if i = h then .ready else s.st i := fun i => by
    change State.st ((s.setRes h _).setSt h .ready) i = _
    simp
  have hop : ∀ i, (headFinished h rest s).op i = s.op i := fun i => by
    change State.op ((s.setRes h _).setSt h .ready) i = _
    simp
  exact {
    unarmed := rfl
    phase := rfl
    width := hfw
    noExchange := hx
    noFlag := hi
    busyIffQueued := fun i => by
      rw [hst]
      change _ ↔ i ∈ rest
      by_cases e : i = h
      · subst e
        simp [(List.nodup_cons.1 hn).1]
      · rw [if_neg e, hb, List.mem_cons]
        exact ⟨fun x => x.resolve_left e, .inr⟩
    queueNodup := (List.nodup_cons.1 hn).2
    queueNamesBuffers := fun i hi => hnb i (List.mem_cons_of_mem _ hi)
    opIsHeader := fun i hi => by
      rw [hop]
      exact ho i (List.mem_cons_of_mem _ hi)
    unmasked := hm
    memCanonical := hw }

/-! ### Inside a transaction -/

/-- An entry that goes on with the same transfer: the next exchange is started, the phase and what goes with it change. -/
theorem Inv.nextExchange {s t : State} {p p' : Phase} (h : Inv s) (hp : s.phase = p.code) (hr : p ≠ .reset)
    (hi : s.irqp = true) (hp' : t.phase = p'.code) (hn : p' ≠ .request) (hr' : p' ≠ .reset) (hw : t.fw = widthOf p')
    (hpin : t.pin = if isWritePhase p' then .output else .input) (hrd : isReadPhase p' = true → s.dir = .read)
    (hwd : isWritePhase p' = true → s.dir = .write) (hx : t.xbusy = true) (hi' : t.irqp = false) (hc : t.xcnt = 0#5)
    (hsh : t.rxsh = 0#16) (htx : t.txr.toNat < 2 ^ t.fw.bits)
    (hsame : t.armed = s.armed ∧ t.prst = s.prst ∧ t.q = s.q ∧ t.bufs = s.bufs ∧ t.mem = s.mem ∧ t.cfg = s.cfg ∧
      t.dir = s.dir ∧ t.imask = s.imask) : Inv t := by
  obtain ⟨e1, e2, e3, e4, e5, e6, e7, e8⟩ := hsame
  have ha := h.at hp
  have harm : s.armed = true := (ha.activeIff.1 (.inr hi)).resolve_right hr
  have est : ∀ i, t.st i = s.st i := fun i => by simp [State.st, e4]
  have eop : ∀ i, t.op i = s.op i := fun i => by simp [State.op, e4]
  have ehd : ∀ i, header t i = header s i := fun i => by simp [header, e5, e6]
  exact InvAt.inv (p := p') {
    phase := hp'
    armedHasHead := fun _ => by rw [e3]; exact ha.armedHasHead harm
    resetPhaseUnarmed := fun e => absurd e hr'
    headIsArmed := fun _ _ => e1.trans harm
    activeIff := ⟨fun _ => .inl (e1.trans harm), fun _ => .inl hx⟩
    busyIffQueued := fun i => by rw [est, e3]; exact ha.busyIffQueued i
    queueNodup := by rw [e3]; exact ha.queueNodup
    notBoth := fun _ => hi'
    countBelowWidth := fun _ => by rw [hc]; exact Nat.lt_of_lt_of_le (by decide) (fw_bits_pos t.fw)
    widthMatches := hw
    resetCount := fun e => absurd e hr'
    pinOutIff := by
      rw [hpin]
      cases hwp : isWritePhase p' <;> simp [hn, hr']
    pendingReset := fun _ => .inr (e1.trans harm)
    dirOfHead := fun _ i hh => by
      rw [e7, ehd, eop]
      exact ha.dirOfHead harm i (by rw [← e3]; exact hh)
    readPhaseDir := fun e => e7.trans (hrd e)
    writePhaseDir := fun e => e7.trans (hwd e)
    phaseArmed := fun _ _ => e1.trans harm
    queueNamesBuffers := fun i hq => by rw [e6]; exact ha.queueNamesBuffers i (by rw [← e3]; exact hq)
    opIsHeader := fun i hq => by rw [eop, ehd]; exact ha.opIsHeader i (by rw [← e3]; exact hq)
    unmasked := e8.trans ha.unmasked
    txrFits := fun _ => htx
    rxshFits := fun _ => by rw [hsh, hc]; decide
    rxrFits := fun e => by rw [hi'] at e; cases e
    memCanonical := by rw [e5]; exact ha.memCanonical }

/-- A bit cycle of the exchange in flight (rule R171). -/
theorem Inv.bitCycle {s : State} (h : Inv s) (hx : s.xbusy = true) : Inv (bitCycle s) := by
  obtain ⟨p, hp⟩ := h.phaseNamed
  have ha := h.at hp
  obtain ⟨b, tgt, d, hs, -, -⟩ := sample_spec s
  have e : Machine.bitCycle s = shiftBit b { s with target := tgt, draws := d } := by rw [Machine.bitCycle, hs]
  have hk := ha.countBelowWidth hx
  have hfit := setBit_lt b (ha.rxshFits hx)
  rw [e]
  by_cases hl : s.xcnt.toNat + 1 = s.fw.bits
  · rw [shiftBit_last (by exact hl)]
    exact InvAt.inv (p := p) {
      phase := hp
      armedHasHead := ha.armedHasHead
      resetPhaseUnarmed := ha.resetPhaseUnarmed
      headIsArmed := ha.headIsArmed
      activeIff := ⟨fun _ => ha.activeIff.1 (.inl hx), fun _ => .inr rfl⟩
      busyIffQueued := ha.busyIffQueued
      queueNodup := ha.queueNodup
      notBoth := fun e => by cases e
      countBelowWidth := fun e => by cases e
      widthMatches := ha.widthMatches
      resetCount := ha.resetCount
      pinOutIff := ha.pinOutIff
      pendingReset := ha.pendingReset
      dirOfHead := ha.dirOfHead
      readPhaseDir := ha.readPhaseDir
      writePhaseDir := ha.writePhaseDir
      phaseArmed := ha.phaseArmed
      queueNamesBuffers := ha.queueNamesBuffers
      opIsHeader := ha.opIsHeader
      unmasked := ha.unmasked
      txrFits := fun e => by cases e
      rxshFits := fun e => by cases e
      rxrFits := fun _ => by rw [← hl]; exact hfit
      memCanonical := ha.memCanonical }
  · rw [shiftBit_more (by change s.xcnt.toNat + 1 < s.fw.bits; omega)]
    exact InvAt.inv (p := p) {
      phase := hp
      armedHasHead := ha.armedHasHead
      resetPhaseUnarmed := ha.resetPhaseUnarmed
      headIsArmed := ha.headIsArmed
      activeIff := ha.activeIff
      busyIffQueued := ha.busyIffQueued
      queueNodup := ha.queueNodup
      notBoth := ha.notBoth
      countBelowWidth := fun _ => by simp only [xcnt_succ hk]; omega
      widthMatches := ha.widthMatches
      resetCount := ha.resetCount
      pinOutIff := ha.pinOutIff
      pendingReset := ha.pendingReset
      dirOfHead := ha.dirOfHead
      readPhaseDir := ha.readPhaseDir
      writePhaseDir := ha.writePhaseDir
      phaseArmed := ha.phaseArmed
      queueNamesBuffers := ha.queueNamesBuffers
      opIsHeader := ha.opIsHeader
      unmasked := ha.unmasked
      txrFits := ha.txrFits
      rxshFits := fun _ => by simp only [xcnt_succ hk]; exact hfit
      rxrFits := fun e => by
        have e' : s.irqp = true := e
        rw [ha.notBoth hx] at e'; cases e'
      memCanonical := ha.memCanonical }

/-- The bit cycles that complete the exchange in flight (rule R170). -/
theorem Inv.bitCycles (n : Nat) : ∀ {s : State}, Inv s → s.xbusy = true → s.xcnt.toNat + n = s.fw.bits → Inv (bitCycles n s) := by
  induction n with
  | zero => exact fun h _ _ => h
  | succ n ih =>
    intro s h hx hn
    by_cases h0 : n = 0
    · subst h0; exact h.bitCycle hx
    · obtain ⟨b, tgt, d, hs, -, -⟩ := sample_spec s
      have e : Machine.bitCycle s = shiftBit b { s with target := tgt, draws := d } := by rw [Machine.bitCycle, hs]
      have hm := h.bitCycle hx
      rw [Machine.bitCycles]
      rw [e, shiftBit_more (by change s.xcnt.toNat + 1 < s.fw.bits; omega)] at hm ⊢
      refine ih hm hx ?_
      simp only [xcnt_succ (show s.xcnt.toNat < s.fw.bits by omega)]
      omega

/-! ### The line reset -/

/-- Another word of the line reset (rule R153). -/
theorem Inv.nextResetWord {s : State} (h : Inv s) (hp : s.phase = Phase.reset.code) (hc : s.rcnt ≠ 1#2) :
    Inv (exchangeStarted 0xFFFF#16 { s with irqp := false, rcnt := s.rcnt - 1#2 }) := by
  have ha := h.at hp
  have hun := (ha.resetPhaseUnarmed rfl).2
  have hcnt : 1 ≤ (s.rcnt - 1#2).toNat ∧ (s.rcnt - 1#2).toNat ≤ 3 := by
    have h1 := (ha.resetCount rfl).1
    revert h1 hc
    generalize s.rcnt = c
    revert c; decide
  exact InvAt.inv (p := .reset) {
    phase := hp
    armedHasHead := ha.armedHasHead
    resetPhaseUnarmed := ha.resetPhaseUnarmed
    headIsArmed := ha.headIsArmed
    activeIff := ⟨fun _ => .inr rfl, fun _ => .inl rfl⟩
    busyIffQueued := ha.busyIffQueued
    queueNodup := ha.queueNodup
    notBoth := fun _ => rfl
    countBelowWidth := fun _ => by
      change 0 < s.fw.bits
      exact Nat.lt_of_lt_of_le (by decide) (fw_bits_pos s.fw)
    widthMatches := ha.widthMatches
    resetCount := fun _ => hcnt
    pinOutIff := ha.pinOutIff
    pendingReset := fun _ => .inl rfl
    dirOfHead := ha.dirOfHead
    readPhaseDir := fun e => by cases e
    writePhaseDir := fun e => by cases e
    phaseArmed := fun _ e => absurd rfl e
    queueNamesBuffers := ha.queueNamesBuffers
    opIsHeader := ha.opIsHeader
    unmasked := ha.unmasked
    txrFits := fun _ => by
      change (0xFFFF#16).toNat < 2 ^ s.fw.bits
      rw [show s.fw = .w16 from ha.widthMatches]; decide
    rxshFits := fun _ => by change (0 : Nat) < 2 ^ 0; decide
    rxrFits := fun e => by cases e
    memCanonical := ha.memCanonical }

/-- The end of the line reset, before the head is looked at (rule R153). -/
theorem Inv.lineResetEnded {s : State} (h : Inv s) (hp : s.phase = Phase.reset.code) (hi : s.irqp = true) :
    AtRest (lineResetEnded { s with irqp := false }) := by
  have ha := h.at hp
  have hx : s.xbusy = false := by
    cases hx : s.xbusy
    · rfl
    · rw [ha.notBoth hx] at hi; cases hi
  exact {
    unarmed := (ha.resetPhaseUnarmed rfl).2
    phase := rfl
    width := rfl
    noExchange := hx
    noFlag := rfl
    busyIffQueued := ha.busyIffQueued
    queueNodup := ha.queueNodup
    queueNamesBuffers := ha.queueNamesBuffers
    opIsHeader := ha.opIsHeader
    unmasked := ha.unmasked
    memCanonical := ha.memCanonical }

/-! ### Caller -/

/-- Header bit 1 as the starts write it. -/
theorem hdrDir_hdrWithDir (h : Word32) (d : Dir) : hdrDir (hdrWithDir h d) = d := by
  cases d
  · simp [hdrDir, hdrWithDir, Dir.ofBit]
  · simp [hdrDir, hdrWithDir, Dir.ofBit]

theorem queuedWith_mem (d : Dir) (i : BufIdx) (s : State) :
    (queuedWith d i s).mem = s.mem.writeWord (hdrAddr s.cfg i) (hdrWithDir (header s i) d) := by cases d <;> rfl

/-- Headers after a start. -/
theorem queuedWith_header {d : Dir} {i : BufIdx} {s : State} (hw : s.mem.wf) (j : BufIdx) :
    header (queuedWith d i s) j = if j = i then hdrWithDir (header s i) d else header s j := by
  rw [header, queuedWith_mem]
  change Memory.readWord _ (hdrAddr s.cfg j) = _
  by_cases e : j = i
  · rw [e, if_pos rfl]
    exact readWord_writeWord hw _ _
  · rw [if_neg e]
    exact readWord_writeWord_disjoint hw _ (hdr_apart s.cfg (Ne.symm e))

theorem queuedWith_op {d : Dir} {i : BufIdx} {s : State} (j : BufIdx) :
    (queuedWith d i s).op j = if j = i then d else s.op j := by
  change State.op ((s.setOp i d).setSt i .busy) j = _
  simp

theorem queuedWith_st {d : Dir} {i : BufIdx} {s : State} (j : BufIdx) :
    (queuedWith d i s).st j = if j = i then .busy else s.st j := by
  change State.st ((s.setOp i d).setSt i .busy) j = _
  simp

/-- The parts of the invariants that a start touches. -/
theorem queuedWith_facts {d : Dir} {i : BufIdx} {s : State} (hw : s.mem.wf) (hb : ∀ j, s.st j = .busy ↔ j ∈ s.q)
    (hn : s.q.Nodup) (hnb : ∀ j, j ∈ s.q → j.val < s.cfg.nbuf) (ho : ∀ j, j ∈ s.q → s.op j = hdrDir (header s j))
    (hi : i.val < s.cfg.nbuf) (hq : i ∉ s.q) :
    (∀ j, (queuedWith d i s).st j = .busy ↔ j ∈ (queuedWith d i s).q) ∧ (queuedWith d i s).q.Nodup ∧
    (∀ j, j ∈ (queuedWith d i s).q → j.val < s.cfg.nbuf) ∧
    (∀ j, j ∈ (queuedWith d i s).q → (queuedWith d i s).op j = hdrDir (header (queuedWith d i s) j)) ∧
    (queuedWith d i s).mem.wf := by
  have eq : (queuedWith d i s).q = s.q ++ [i] := rfl
  refine ⟨fun j => ?_, ?_, fun j hj => ?_, fun j hj => ?_, ?_⟩
  · rw [queuedWith_st, eq]
    by_cases e : j = i
    · simp [e]
    · simp [e, hb]
  · rw [eq]
    exact List.nodup_append.2 ⟨hn, by simp, by intro a ha b hb'; simp only [List.mem_singleton] at hb'; subst hb'; exact fun e => hq (e ▸ ha)⟩
  · rw [eq] at hj
    rcases List.mem_append.1 hj with hj | hj
    · exact hnb j hj
    · rw [List.mem_singleton.1 hj]; exact hi
  · rw [eq] at hj
    rw [queuedWith_op, queuedWith_header hw]
    by_cases e : j = i
    · rw [if_pos e, if_pos e, hdrDir_hdrWithDir]
    · rw [if_neg e, if_neg e]
      rcases List.mem_append.1 hj with hj | hj
      · exact ho j hj
      · exact absurd (List.mem_singleton.1 hj) e
  · rw [queuedWith_mem]
    exact writeWord_wf hw _ _

/-- A start behind other buffers, or during a line reset (rules R91, R92). -/
theorem Inv.queued {s : State} (h : Inv s) {d : Dir} {i : BufIdx} (hi : i.val < s.cfg.nbuf) (hq : i ∉ s.q)
    (hor : s.q ≠ [] ∨ s.prst = true) : Inv (queuedWith d i s) := by
  obtain ⟨p, hp⟩ := h.phaseNamed
  have ha := h.at hp
  obtain ⟨f1, f2, f3, f4, f5⟩ := queuedWith_facts (d := d) ha.memCanonical ha.busyIffQueued ha.queueNodup
    ha.queueNamesBuffers ha.opIsHeader hi hq
  exact InvAt.inv (p := p) {
    phase := hp
    armedHasHead := fun _ => by change s.q ++ [i] ≠ []; simp
    resetPhaseUnarmed := ha.resetPhaseUnarmed
    headIsArmed := fun _ e => ha.headIsArmed (hor.resolve_right (by rw [show s.prst = false from e]; simp)) e
    activeIff := ha.activeIff
    busyIffQueued := f1
    queueNodup := f2
    notBoth := ha.notBoth
    countBelowWidth := ha.countBelowWidth
    widthMatches := ha.widthMatches
    resetCount := ha.resetCount
    pinOutIff := ha.pinOutIff
    pendingReset := ha.pendingReset
    dirOfHead := fun e x hx => by
      have harm : s.armed = true := e
      cases hs : s.q with
      | nil => exact absurd hs (ha.armedHasHead harm)
      | cons y l =>
        have hx' : (s.q ++ [i]).head? = some x := hx
        rw [hs] at hx'
        obtain rfl : y = x := Option.some.inj hx'
        have hne : y ≠ i := fun e => hq (by rw [hs, ← e]; simp)
        rw [queuedWith_header ha.memCanonical, queuedWith_op, if_neg hne, if_neg hne]
        exact ha.dirOfHead harm y (by rw [hs]; rfl)
    readPhaseDir := ha.readPhaseDir
    writePhaseDir := ha.writePhaseDir
    phaseArmed := ha.phaseArmed
    queueNamesBuffers := f3
    opIsHeader := f4
    unmasked := ha.unmasked
    txrFits := ha.txrFits
    rxshFits := ha.rxshFits
    rxrFits := ha.rxrFits
    memCanonical := f5 }

/-- An idle block is between two exchanges (rule R34). -/
theorem Inv.atRest {s : State} (h : Inv s) (hq : s.q = []) (hp : s.prst = false) : AtRest s := by
  have harm : s.armed = false := by
    cases e : s.armed
    · rfl
    · exact absurd hq (h.armedHasHead e)
  obtain ⟨p, hph⟩ := h.phaseNamed
  have ha := h.at hph
  have hnr : p ≠ .reset := fun e => by
    have := (ha.resetPhaseUnarmed e).1
    rw [hp] at this; cases this
  have hreq : p = .request := by
    by_contra hne
    have := ha.phaseArmed hne hnr
    rw [harm] at this; cases this
  subst hreq
  have hact : ¬(s.xbusy = true ∨ s.irqp = true) := by rw [ha.activeIff]; simp [harm]
  simp only [not_or, Bool.not_eq_true] at hact
  exact {
    unarmed := harm
    phase := hph
    width := ha.widthMatches
    noExchange := hact.1
    noFlag := hact.2
    busyIffQueued := ha.busyIffQueued
    queueNodup := ha.queueNodup
    queueNamesBuffers := ha.queueNamesBuffers
    opIsHeader := ha.opIsHeader
    unmasked := ha.unmasked
    memCanonical := ha.memCanonical }

/-- A start on an idle block, before the arming. -/
theorem AtRest.queued {s : State} (h : AtRest s) {d : Dir} {i : BufIdx} (hi : i.val < s.cfg.nbuf) (hq : i ∉ s.q) :
    AtRest (queuedWith d i s) := by
  obtain ⟨f1, f2, f3, f4, f5⟩ := queuedWith_facts (d := d) h.memCanonical h.busyIffQueued h.queueNodup
    h.queueNamesBuffers h.opIsHeader hi hq
  exact {
    unarmed := h.unarmed
    phase := h.phase
    width := h.width
    noExchange := h.noExchange
    noFlag := h.noFlag
    busyIffQueued := f1
    queueNodup := f2
    queueNamesBuffers := f3
    opIsHeader := f4
    unmasked := h.unmasked
    memCanonical := f5 }

/-- A successful cancel (rule R93). -/
theorem Inv.cancelled {s : State} (h : Inv s) {i : BufIdx} (hm : i ∈ s.q) (hn : ¬(s.q.head? = some i ∧ s.armed = true)) :
    Inv { s.setSt i .ready with q := s.q.erase i, evt := s.evt ++ [.cancelled i] } := by
  obtain ⟨p, hp⟩ := h.phaseNamed
  have ha := h.at hp
  have hst : ∀ j, State.st { s.setSt i .ready with q := s.q.erase i, evt := s.evt ++ [.cancelled i] } j =
      if j = i then .ready else s.st j := fun j => setSt_st s i j .ready
  have hop : ∀ j, State.op { s.setSt i .ready with q := s.q.erase i, evt := s.evt ++ [.cancelled i] } j = s.op j :=
    fun j => setSt_op s i j .ready
  have hhead : s.armed = true → (s.q.erase i).head? = s.q.head? := fun e => by
    cases hs : s.q with
    | nil => rw [hs] at hm; cases hm
    | cons y l =>
      have hne : y ≠ i := fun e' => hn ⟨by rw [hs, ← e']; rfl, e⟩
      simp [hne]
  exact InvAt.inv (p := p) {
    phase := hp
    armedHasHead := fun e hc => by
      have := hhead e
      rw [show s.q.erase i = [] from hc] at this
      exact ha.armedHasHead e (List.head?_eq_none_iff.1 this.symm)
    resetPhaseUnarmed := ha.resetPhaseUnarmed
    headIsArmed := fun e e' => ha.headIsArmed (fun hc => by rw [hc] at hm; cases hm) e'
    activeIff := ha.activeIff
    busyIffQueued := fun j => by
      rw [hst]
      change _ ↔ j ∈ s.q.erase i
      rw [ha.queueNodup.mem_erase_iff]
      by_cases e : j = i
      · simp [e]
      · simp [e, ha.busyIffQueued]
    queueNodup := ha.queueNodup.erase i
    notBoth := ha.notBoth
    countBelowWidth := ha.countBelowWidth
    widthMatches := ha.widthMatches
    resetCount := ha.resetCount
    pinOutIff := ha.pinOutIff
    pendingReset := ha.pendingReset
    dirOfHead := fun e x hx => by
      rw [hop]
      exact ha.dirOfHead e x (by rw [← hhead e]; exact hx)
    readPhaseDir := ha.readPhaseDir
    writePhaseDir := ha.writePhaseDir
    phaseArmed := ha.phaseArmed
    queueNamesBuffers := fun j hj => ha.queueNamesBuffers j (List.mem_of_mem_erase hj)
    opIsHeader := fun j hj => by
      rw [hop]
      exact ha.opIsHeader j (List.mem_of_mem_erase hj)
    unmasked := ha.unmasked
    txrFits := ha.txrFits
    rxshFits := ha.rxshFits
    rxrFits := ha.rxrFits
    memCanonical := ha.memCanonical }

/-- A line reset deferred behind the armed head (rule R151). -/
theorem Inv.deferred {s : State} (h : Inv s) (hp : s.prst = false) (hq : s.q ≠ []) : Inv { s with prst := true } := by
  have harm := h.headIsArmed hq hp
  exact { h with
    resetPhaseUnarmed := fun e => by
      have := (h.resetPhaseUnarmed e).1
      rw [hp] at this; cases this
    headIsArmed := fun _ _ => harm
    pendingReset := fun _ => .inr harm
    activeIff := h.activeIff }

/-- A write of Caller to buffer memory that leaves the headers of the queued buffers. -/
theorem Inv.written {s : State} (h : Inv s) {m : Memory} (hw : m.wf)
    (hh : ∀ i, i ∈ s.q → m.readWord (hdrAddr s.cfg i) = s.mem.readWord (hdrAddr s.cfg i)) : Inv { s with mem := m } := by
  have hd : ∀ i, i ∈ s.q → header { s with mem := m } i = header s i := hh
  exact { h with
    activeIff := h.activeIff
    dirOfHead := fun e x hx => by
      rw [hd x (List.mem_of_mem_head? hx)]
      exact h.dirOfHead e x hx
    opIsHeader := fun i hi => by
      rw [hd i hi]
      exact h.opIsHeader i hi
    memCanonical := hw }

end Sys2Proof.Machine
end

