-- ==== Sys2Proof/Laws/Entries.lean ====
section
/-!
SUPPORT. The interrupt entries as steps: which entry is taken, and that each entry, and each frame, keeps the invariants.
-/

namespace Sys2Proof.Machine

/-! ### Which entry is taken -/

/-- A due entry that the key selects is its body on the word received. -/
theorem runEntry_due {e : Entry} {p : Phase} {s : State} (hd : entryDue p s) (he : Entry.ofKey s.dir.bit p.code = some e) :
    runEntry e s = entryBody e s.rxr { s with irqp := false } := by
  have hp : pendingEntry s = some e := by rw [pendingEntry, hd.2.2.2]; exact he
  rw [runEntry, if_pos hp, takeInterrupt_due hd]
  simp only [andThen_next]

/-- An entry that goes on was pending and due, and is its body on the word received. -/
theorem runEntry_eq_next {e : Entry} {s t : State} : runEntry e s = .next t ↔
    pendingEntry s = some e ∧ s.irqp = true ∧ s.imask = false ∧ s.xbusy = false ∧
      entryBody e s.rxr { s with irqp := false } = .next t := by
  unfold runEntry
  constructor
  · intro h
    split at h
    · obtain ⟨⟨rx, u⟩, h1, h2⟩ := andThen_eq_next.1 h
      obtain ⟨a, b, c, d⟩ := takeInterrupt_eq_next.1 h1
      cases d
      exact ⟨‹_›, a, b, c, h2⟩
    · cases h
  · rintro ⟨hp, a, b, c, h⟩
    rw [if_pos hp]
    exact andThen_eq_next.2 ⟨(s.rxr, { s with irqp := false }), takeInterrupt_eq_next.2 ⟨a, b, c, rfl⟩, h⟩

/-- The interrupt entry is the row that the key selects. -/
theorem irqEntryStep_pending {e : Entry} {s : State} (h : pendingEntry s = some e) : irqEntryStep s = runEntry e s := by
  rw [irqEntryStep, runEntry, if_pos h]
  simp only [h]

/-- What the interrupt entry does when it goes on: it is the row of one entry. -/
theorem irqEntryStep_eq_next {s t : State} (h : irqEntryStep s = .next t) : ∃ e, runEntry e s = .next t := by
  cases hp : pendingEntry s with
  | some e => exact ⟨e, by rw [← irqEntryStep_pending hp]; exact h⟩
  | none =>
    unfold irqEntryStep at h
    obtain ⟨_, _, h2⟩ := andThen_eq_next.1 h
    simp only [hp] at h2
    cases h2

/-- What the key says about the phase and the direction (rule R74). -/
theorem ofKey_selects {d : Bool} {c : BitVec 4} {e : Entry} (h : Entry.ofKey d c = some e) :
    match e with
    | .request => c = Phase.request.code
    | .ackR => c = Phase.ack.code ∧ d = true
    | .ackW => c = Phase.ack.code ∧ d = false
    | .writeData1 => c = Phase.writeData1.code
    | .writeData2 => c = Phase.writeData2.code
    | .writeData3 => c = Phase.writeData3.code
    | .readData1 => c = Phase.readData1.code
    | .readData2 => c = Phase.readData2.code
    | .readData3 => c = Phase.readData3.code
    | .reset => c = Phase.reset.code := by
  revert h
  cases e <;> (revert d c; decide)

theorem dir_of_bit_true {d : Dir} : d.bit = true → d = .read := by cases d <;> simp [Dir.bit]

theorem dir_of_bit_false {d : Dir} : d.bit = false → d = .write := by cases d <;> simp [Dir.bit]

/-! ### The invariants -/

/-- A word of `n` bits in a wider register. -/
theorem append_zero_lt {n m k : Nat} (v : BitVec n) (h : n ≤ k) : (0#m ++ v).toNat < 2 ^ k := by
  refine lt_two_pow_of_bits fun j hj => ?_
  rw [BitVec.getLsbD_append]
  simp [show ¬ j < n by omega]

/-- A terminal entry: finishing the head of `u`, which is `s` but for what the entry has read and stored. -/
theorem Inv.finished {s u t : State} (hI : Inv s) (hi : s.irqp = true) {p : Phase} (hp : s.phase = p.code)
    (hpt : p = .readData3 ∨ p = .writeData3)
    (hu : u.q = s.q ∧ u.bufs = s.bufs ∧ u.cfg = s.cfg ∧ u.xbusy = s.xbusy ∧ u.irqp = false ∧ u.fw = s.fw ∧
      u.imask = s.imask)
    (hw : u.mem.wf) (hh : ∀ i, header u i = header s i) (ht : finishTransfer u = .next t) : Inv t := by
  obtain ⟨e1, e2, e3, e4, e5, e6, e7⟩ := hu
  obtain ⟨h, rest, hq, -, rfl, -⟩ := finishTransfer_cases ht
  have hfw : s.fw = .w8 := by
    have := hI.widthMatches p hp
    rcases hpt with rfl | rfl <;> exact this
  have hx : s.xbusy = false := by
    cases hx : s.xbusy
    · rfl
    · rw [hI.notBoth hx] at hi; cases hi
  have est : ∀ i, u.st i = s.st i := fun i => by simp [State.st, e2]
  have eop : ∀ i, u.op i = s.op i := fun i => by simp [State.op, e2]
  have hr := atRest_headFinished (s := u) hq (e4.trans hx) e5 (e6.trans hfw)
    (fun i => by rw [est, e1]; exact hI.busyIffQueued i) (by rw [e1]; exact hI.queueNodup)
    (fun i hi => by rw [e3]; exact hI.queueNamesBuffers i (by rw [← e1]; exact hi))
    (fun i hi => by rw [eop, hh]; exact hI.opIsHeader i (by rw [← e1]; exact hi)) (e7.trans hI.unmasked) hw
  exact hr.nextStarted rfl

/-- In a phase in which the target or nobody drives, the pin is an input. -/
theorem Inv.pin_input {s : State} {p : Phase} (h : Inv s) (hp : s.phase = p.code) (h1 : p ≠ .request)
    (h2 : isWritePhase p = false) (h3 : p ≠ .reset) : s.pin = .input := by
  have hq := (h.at hp).pinOutIff
  cases hs : s.pin
  · rfl
  · rw [hs] at hq
    simp [h1, h2, h3] at hq

/-- Every entry keeps the invariants. -/
theorem Inv.runEntry {e : Entry} {s t : State} (hI : Inv s) (h : runEntry e s = .next t) : Inv t := by
  obtain ⟨hk, hi, -, -, h⟩ := runEntry_eq_next.1 h
  have hf := ofKey_selects hk
  cases e with
  | request =>
    obtain ⟨-, -, rfl⟩ := entryRequest_eq_next.1 h
    exact hI.nextExchange (p' := .ack) hf (by decide) hi rfl (by decide) (by decide) rfl rfl (fun e => by cases e)
      (fun e => by cases e) rfl rfl rfl rfl (by change (0#16).toNat < 2 ^ 5; decide) ⟨rfl, rfl, rfl, rfl, rfl, rfl, rfl, rfl⟩
  | ackR =>
    obtain ⟨-, -, rfl⟩ := entryAckR_eq_next.1 h
    have hpin := hI.pin_input hf.1 (by decide) rfl (by decide)
    exact hI.nextExchange (p' := .readData1) hf.1 (by decide) hi rfl (by decide) (by decide) rfl hpin
      (fun _ => dir_of_bit_true hf.2) (fun e => by cases e) rfl rfl rfl rfl (by change (0#16).toNat < 2 ^ 12; decide)
      ⟨rfl, rfl, rfl, rfl, rfl, rfl, rfl, rfl⟩
  | ackW =>
    obtain ⟨_, -, -, -, -, rfl⟩ := entryAckW_eq_next.1 h
    exact hI.nextExchange (p' := .writeData1) hf.1 (by decide) hi rfl (by decide) (by decide) rfl rfl
      (fun e => by cases e) (fun _ => dir_of_bit_false hf.2) rfl rfl rfl rfl
      (append_zero_lt (n := 13) (m := 3) (k := 13) _ (by decide)) ⟨rfl, rfl, rfl, rfl, rfl, rfl, rfl, rfl⟩
  | readData1 =>
    obtain ⟨-, -, rfl⟩ := entryReadData1_eq_next.1 h
    have hpin := hI.pin_input hf (by decide) rfl (by decide)
    exact hI.nextExchange (p' := .readData2) hf (by decide) hi rfl (by decide) (by decide) rfl hpin
      (fun _ => (hI.at hf).readPhaseDir rfl) (fun e => by cases e) rfl rfl rfl rfl
      (by change (0#16).toNat < 2 ^ 13; decide) ⟨rfl, rfl, rfl, rfl, rfl, rfl, rfl, rfl⟩
  | readData2 =>
    obtain ⟨-, -, rfl⟩ := entryReadData2_eq_next.1 h
    have hpin := hI.pin_input hf (by decide) rfl (by decide)
    exact hI.nextExchange (p' := .readData3) hf (by decide) hi rfl (by decide) (by decide) rfl hpin
      (fun _ => (hI.at hf).readPhaseDir rfl) (fun e => by cases e) rfl rfl rfl rfl
      (by change (0#16).toNat < 2 ^ 8; decide) ⟨rfl, rfl, rfl, rfl, rfl, rfl, rfl, rfl⟩
  | writeData1 =>
    obtain ⟨-, -, rfl⟩ := entryWriteData1_eq_next.1 h
    have hpin : s.pin = .output := (hI.at hf).pinOutIff.2 (.inr (.inl rfl))
    exact hI.nextExchange (p' := .writeData2) hf (by decide) hi rfl (by decide) (by decide) (hI.at hf).widthMatches hpin
      (fun e => by cases e) (fun _ => (hI.at hf).writePhaseDir rfl) rfl rfl rfl rfl (lowBits_lt _ _)
      ⟨rfl, rfl, rfl, rfl, rfl, rfl, rfl, rfl⟩
  | writeData2 =>
    obtain ⟨-, -, rfl⟩ := entryWriteData2_eq_next.1 h
    have hpin : s.pin = .output := (hI.at hf).pinOutIff.2 (.inr (.inl rfl))
    exact hI.nextExchange (p' := .writeData3) hf (by decide) hi rfl (by decide) (by decide) rfl hpin
      (fun e => by cases e) (fun _ => (hI.at hf).writePhaseDir rfl) rfl rfl rfl rfl
      (append_zero_lt (n := 8) (m := 8) (k := 8) _ (by decide)) ⟨rfl, rfl, rfl, rfl, rfl, rfl, rfl, rfl⟩
  | writeData3 =>
    exact Inv.finished (u := { s with irqp := false }) hI hi hf (.inr rfl) ⟨rfl, rfl, rfl, rfl, rfl, rfl, rfl⟩
      hI.memCanonical (fun _ => rfl) h
  | readData3 =>
    change entryReadData3 _ _ = _ at h
    cases hq : s.q with
    | nil => simp [entryReadData3, hq] at h
    | cons x l =>
      rw [entryReadData3_head (h := x) (by simp [hq])] at h
      split at h
      · refine Inv.finished (u := readStored s.rxr x { s with irqp := false }) (s := s) hI hi hf (.inl rfl)
          ⟨rfl, rfl, rfl, rfl, rfl, rfl, rfl⟩ (writeWord_wf hI.memCanonical _ _) (fun i => ?_) h
        exact readWord_writeWord_disjoint hI.memCanonical _ (hdr_pay_apart s.cfg x i)
      · cases h
  | reset =>
    rcases entryReset_cases h with ⟨hc, -, -, rfl⟩ | ⟨-, -, hq, rfl⟩ | ⟨x, l, -, -, hq, -, -, rfl⟩
    · have hl : lowBits s.fw.bits Config.resetWord = 0xFFFF#16 := by
        rw [show s.fw = .w16 from (hI.at hf).widthMatches]
        decide
      change Inv (exchangeStarted (lowBits s.fw.bits Config.resetWord) { s with irqp := false, rcnt := s.rcnt - 1#2 })
      rw [hl]
      exact hI.nextResetWord hf hc
    · exact (hI.lineResetEnded hf hi).idle (by change s.q = []; exact hq) rfl rfl
    · have hq' : s.q = x :: l := hq
      exact (hI.lineResetEnded hf hi).armed (by change s.q.head? = some x; rw [hq']; rfl)

/-- The exchange of a frame keeps the invariants. -/
theorem Inv.frame {s : State} (hI : Inv s) {w : FrameWidth} {p : Phase} {d : Pin} (hf : frameStarts p w d s = true) :
    Inv (Machine.bitCycles w.bits s) := by
  simp only [frameStarts, Bool.and_eq_true, beq_iff_eq] at hf
  exact Inv.bitCycles _ hI hf.1.1.1.1 (by rw [hf.1.1.1.2, hf.1.2]; simp)

theorem Inv.sendFrame {p : Phase} {w : FrameWidth} {d : Pin} {v : BitVec 16} {s t : State} (hI : Inv s)
    (h : sendFrame p w d v s = .next t) : Inv t := by
  unfold Machine.sendFrame at h
  split at h
  · rename_i hf
    cases h
    simp only [Bool.and_eq_true] at hf
    exact hI.frame hf.1
  · cases h

theorem Inv.receiveFrame {n : Nat} {p : Phase} {w : FrameWidth} {v : BitVec n} {s t : State} (hI : Inv s)
    (h : receiveFrame p w v s = .next t) : Inv t := by
  unfold Machine.receiveFrame at h
  split at h
  · rename_i hf
    cases h
    exact (hI.env s.script (wireBits v ++ s.target) s.draws s.ret).frame hf
  · cases h

end Sys2Proof.Machine
end

