-- ==== Sys2Proof/Laws/PerInstr.lean ====
section
/-!
SUPPORT. Per-instruction family `EncodeFits`: the encoding of an operation has no bit above the width its format has in
spec/opcode_table.json (for a CALL: above the operands the model gives it, log entry 7).
-/

namespace Sys2Proof.Laws.EncodeFits

/-- The number of bits of a format. -/
def formatBits : Format → Nat
  | .cmd8 => 8 | .irqKey5 => 5 | .guard2 => 2 | .guard1 => 1
  | .req8 => 8 | .req => 8 | .ackTx5 => 5 | .ack5 => 5 | .ack => 5 | .rd1 => 12 | .rd2 => 13 | .rd3 => 8
  | .clk0 => 8 | .wd1 => 13 | .wd2 => 13 | .wd3 => 8 | .rst16 => 16
  | .h32 => 32 | .phase4 => 4 | .res1 => 1 | .popst => 2 | .st1 => 1 | .pin1 => 1
  | .arm => 0 | .complete => 0 | .push => 0 | .remove => 1 | .pop => 0 | .visitFirst => 1
  | .finish => 0 | .startReset => 0 | .setFW => 32 | .writeTX => 32 | .readRX => 0 | .setPin => 1

/-- The word of the encoding fits the width of its format. -/
def Statement (i : Instr) : Prop := fits (formatBits (encode i).fmt) (encode i).word = true

/-- A word of `n` bits fits `n` bits. -/
theorem fits_setWidth {n : Nat} (d : BitVec n) : fits n (d.setWidth 32) = true := by
  simp only [fits, decide_eq_true_eq, BitVec.toNat_setWidth]
  exact Nat.lt_of_le_of_lt (Nat.mod_le _ _) d.isLt

/-- A command word fits one byte (rule R76). -/
theorem fits_cmdWord (i : BufIdx) : ∀ oo : Fin 3, fits 8 ((cmdWord i oo.val).setWidth 32) = true := by
  revert i; decide

theorem startW (i : BufIdx) : Statement (.startW i) := fits_cmdWord i 0
theorem startR (i : BufIdx) : Statement (.startR i) := fits_cmdWord i 1
theorem cancel (i : BufIdx) : Statement (.cancel i) := fits_cmdWord i 2
theorem reset : Statement (.reset) := rfl
theorem irqRequest (d : Bool) : Statement (.irqRequest d) := by cases d <;> rfl
theorem irqAckR : Statement (.irqAckR) := rfl
theorem irqAckW : Statement (.irqAckW) := rfl
theorem irqWriteData1 (d : Bool) : Statement (.irqWriteData1 d) := by cases d <;> rfl
theorem irqWriteData2 (d : Bool) : Statement (.irqWriteData2 d) := by cases d <;> rfl
theorem irqWriteData3 (d : Bool) : Statement (.irqWriteData3 d) := by cases d <;> rfl
theorem irqReadData1 (d : Bool) : Statement (.irqReadData1 d) := by cases d <;> rfl
theorem irqReadData2 (d : Bool) : Statement (.irqReadData2 d) := by cases d <;> rfl
theorem irqReadData3 (d : Bool) : Statement (.irqReadData3 d) := by cases d <;> rfl
theorem irqReset (d : Bool) : Statement (.irqReset d) := by cases d <;> rfl
theorem irqEntry : Statement (.irqEntry) := rfl
theorem bit : Statement (.bit) := rfl
theorem req8 (n r : Bool) (a : BitVec 2) (p : Bool) : Statement (.req8 n r a p) := fits_setWidth _
theorem reqDpW (a : BitVec 2) (p : Bool) : Statement (.reqDpW a p) := fits_setWidth _
theorem reqApW (a : BitVec 2) (p : Bool) : Statement (.reqApW a p) := fits_setWidth _
theorem reqDpR (a : BitVec 2) (p : Bool) : Statement (.reqDpR a p) := fits_setWidth _
theorem reqApR (a : BitVec 2) (p : Bool) : Statement (.reqApR a p) := fits_setWidth _
theorem ackTx5 : Statement (.ackTx5) := rfl
theorem ack5 (t : Bool) (a : BitVec 3) (d : Bool) : Statement (.ack5 t a d) := fits_setWidth _
theorem ackOk (t d : Bool) : Statement (.ackOk t d) := fits_setWidth _
theorem ackWait (t d : Bool) : Statement (.ackWait t d) := fits_setWidth _
theorem ackFault (t d : Bool) : Statement (.ackFault t d) := fits_setWidth _
theorem rd1 (d : BitVec 12) : Statement (.rd1 d) := fits_setWidth _
theorem rd2 (d : BitVec 13) : Statement (.rd2 d) := fits_setWidth _
theorem rd3 (d : BitVec 6) (p t : Bool) : Statement (.rd3 d p t) := fits_setWidth _
theorem clk0w12 : Statement (.clk0w12) := rfl
theorem clk0w13 : Statement (.clk0w13) := rfl
theorem clk0w8 : Statement (.clk0w8) := rfl
theorem wd1 (d : BitVec 13) : Statement (.wd1 d) := fits_setWidth _
theorem wd2 (d : BitVec 13) : Statement (.wd2 d) := fits_setWidth _
theorem wd3 (d : BitVec 6) (p : Bool) : Statement (.wd3 d p) := fits_setWidth _
theorem rst16 : Statement (.rst16) := rfl
theorem h32 (i : BufIdx) (h : Word32) : Statement (.h32 i h) := decide_eq_true h.isLt
theorem phaseRequest : Statement (.phaseRequest) := rfl
theorem phaseAck : Statement (.phaseAck) := rfl
theorem phaseWriteData1 : Statement (.phaseWriteData1) := rfl
theorem phaseWriteData2 : Statement (.phaseWriteData2) := rfl
theorem phaseWriteData3 : Statement (.phaseWriteData3) := rfl
theorem phaseReadData1 : Statement (.phaseReadData1) := rfl
theorem phaseReadData2 : Statement (.phaseReadData2) := rfl
theorem phaseReadData3 : Statement (.phaseReadData3) := rfl
theorem phaseReset : Statement (.phaseReset) := rfl
theorem resSuccess (i : BufIdx) : Statement (.resSuccess i) := rfl
theorem resParityError (i : BufIdx) : Statement (.resParityError i) := rfl
theorem popstEmpty : Statement (.popstEmpty) := rfl
theorem popstNextArmed : Statement (.popstNextArmed) := rfl
theorem popstNextWithheld : Statement (.popstNextWithheld) := rfl
theorem stReady (i : BufIdx) : Statement (.stReady i) := rfl
theorem stBusy (i : BufIdx) : Statement (.stBusy i) := rfl
theorem pinIn : Statement (.pinIn) := rfl
theorem pinOut : Statement (.pinOut) := rfl
theorem arm (i : BufIdx) : Statement (.arm i) := rfl
theorem complete (i : BufIdx) : Statement (.complete i) := rfl
theorem push (i : BufIdx) : Statement (.push i) := rfl
theorem remove (i : BufIdx) (allow : Bool) : Statement (.remove i allow) := by cases allow <;> rfl
theorem pop : Statement (.pop) := rfl
theorem visitFirst (f : VisitOp) : Statement (.visitFirst f) := by cases f <;> rfl
theorem finish : Statement (.finish) := rfl
theorem startReset : Statement (.startReset) := rfl
theorem setFW (w : Word32) : Statement (.setFW w) := fits_setWidth _
theorem writeTX (v : Word32) : Statement (.writeTX v) := fits_setWidth _
theorem readRX : Statement (.readRX) := rfl
theorem setPin (d : Pin) : Statement (.setPin d) := fits_setWidth _

end Sys2Proof.Laws.EncodeFits
end

