-- ==== Sys2Proof/Tests/Slice0.lean ====
section
/-!
SUPPORT. Tests and witnesses. Expected results come from the tables of 30_encoding.md and the derived vectors of
95_test_vectors.md (named V-… in the comments), not from the model. The witnesses show, for the statements that have
hypotheses, concrete states and operands that meet them all.
-/

namespace Sys2Proof.Tests

open Sys2Proof Sys2Proof.Machine

/-! ### Helpers -/

/-- The operation goes on, and its result passes the check. -/
def gives (r : Res State) (f : State → Bool) : Bool :=
  match r with
  | .next t => f t
  | .fault _ => false
  | .refused _ => false

/-- The operation ends in that fault. -/
def faults (r : Res State) (e : Fault) : Bool :=
  match r with
  | .next _ => false
  | .fault x => x == e
  | .refused _ => false

/-- The operation is refused for that reason. -/
def refuses (r : Res State) (e : Refusal) : Bool :=
  match r with
  | .next _ => false
  | .fault _ => false
  | .refused x => x == e

/-- The state after an operation that goes on. -/
def after (r : Res State) : State :=
  match r with
  | .next t => t
  | .fault _ => State.reset
  | .refused _ => State.reset

/-- Two buffers of eight bytes. -/
def two : Params := { nbufPred := 1, payExtra := 0 }

/-- The idle block with two buffers, header and payload of buffer 0 and header of buffer 1. -/
def idleWith (h0 p0 h1 : Word32) : State :=
  { State.resetWith two with mem := ((Memory.writeWord [] 0 h0).writeWord 4 p0).writeWord 8 h1 }

/-- Registers of a BUSY buffer. -/
def busyRegs (d : Dir) : BufRegs := { op := d, st := .busy, res := .success }

/-- Buffer 0 is queued and armed, its transfer goes in direction `d`; nothing is said of the marshaller yet. -/
def armedZero (d : Dir) (h0 p0 h1 : Word32) : State :=
  { idleWith h0 p0 h1 with
    q := [0]
    armed := true
    dir := d
    bufs := (Vector.replicate 64 BufRegs.reset).set 0 (busyRegs d) }

/-- An exchange of phase `p` of that transfer is complete, the word `rx` was received. -/
def served (p : Phase) (w : FrameWidth) (d : Dir) (pin : Pin) (rx : BitVec 16) (p0 : Word32) : State :=
  { armedZero d (if d = .read then 2#32 else 0#32) p0 0#32 with
    phase := p.code, fw := w, pin := pin, rxr := rx, irqp := true }

/-- The exchange of phase `p` of that transfer is about to start its first cycle, with `tx` in the transmit register. -/
def sending (p : Phase) (w : FrameWidth) (d : Dir) (pin : Pin) (tx : BitVec 16) : State :=
  { armedZero d (if d = .read then 2#32 else 0#32) 0#32 0#32 with
    phase := p.code, fw := w, pin := pin, txr := tx, xbusy := true }

/-- The line reset, with `n` words to come. -/
def inReset (n : BitVec 2) : State :=
  { idleWith 0#32 0#32 1#32 with
    phase := Phase.reset.code, prst := true, rcnt := n, fw := .w16, pin := .output, txr := 0xFFFF#16 }

/-- Buffers 0 and 1 queued, 0 armed. -/
def bothQueued (d : Dir) (h1 : Word32) : State :=
  { armedZero d (if d = .read then 2#32 else 0#32) 0#32 h1 with
    q := [0, 1]
    bufs := ((Vector.replicate 64 BufRegs.reset).set 0 (busyRegs d)).set 1 (busyRegs (hdrDir h1)) }

/-! ### Well-formed and ill-formed operations: the parity of a request frame (rules R61, R63) -/

theorem test_wellFormed_req8 : (Instr.req8 false true 3#2 true).wellFormed = true := by decide
theorem test_illFormed_req8 : (Instr.req8 false true 3#2 false).wellFormed = false := by decide
theorem test_illFormed_reqDpW : (Instr.reqDpW 2#2 false).wellFormed = false := by decide
theorem test_illFormed_reqApW : (Instr.reqApW 0#2 false).wellFormed = false := by decide
theorem test_illFormed_reqDpR : (Instr.reqDpR 0#2 false).wellFormed = false := by decide
theorem test_illFormed_reqApR : (Instr.reqApR 0#2 true).wellFormed = false := by decide

/-! ### Decoding: words written out from the tables of 30_encoding.md and the code tables of 10_state.md -/

/-- A slot without an operand byte. -/
def bare (f : Format) (w : Word32) : Slot := { word := w, oper := 0#8, fmt := f }

/-- A slot with an operand byte. -/
def withOper (f : Format) (w : Word32) (o : Byte) : Slot := { word := w, oper := o, fmt := f }

/-- `CMD8`, `iiiiiioo` (V-CMD). -/
theorem test_decode_commands :
    decode (bare .cmd8 0b00000100#32) = .ok (.startW 1) ∧ decode (bare .cmd8 0b11111101#32) = .ok (.startR 63) ∧
    decode (bare .cmd8 0b00001010#32) = .ok (.cancel 2) ∧ decode (bare .cmd8 0b00000011#32) = .ok .reset ∧
    decode (bare .cmd8 0b00000111#32) = .error .reservedCommand ∧
    decode (bare .cmd8 0b11111111#32) = .error .reservedCommand ∧
    decode (bare .cmd8 0b100000000#32) = .error .strayBits := by decide

/-- `IRQKEY5`, `dpppp` (rule R74). -/
theorem test_decode_keys :
    decode (bare .irqKey5 0b10000#32) = .ok (.irqRequest true) ∧ decode (bare .irqKey5 0b10001#32) = .ok .irqAckR ∧
    decode (bare .irqKey5 0b00001#32) = .ok .irqAckW ∧ decode (bare .irqKey5 0b00010#32) = .ok (.irqWriteData1 false) ∧
    decode (bare .irqKey5 0b00011#32) = .ok (.irqWriteData2 false) ∧
    decode (bare .irqKey5 0b10100#32) = .ok (.irqWriteData3 true) ∧
    decode (bare .irqKey5 0b10101#32) = .ok (.irqReadData1 true) ∧
    decode (bare .irqKey5 0b10110#32) = .ok (.irqReadData2 true) ∧
    decode (bare .irqKey5 0b00111#32) = .ok (.irqReadData3 false) ∧
    decode (bare .irqKey5 0b01000#32) = .ok (.irqReset false) ∧
    decode (bare .irqKey5 0b01001#32) = .error .reservedPhase ∧
    decode (bare .irqKey5 0b11111#32) = .error .reservedPhase := by decide

/-- The guards: `IrqEntry` is `10`, `BIT` is `1` (rules R125, R171). -/
theorem test_decode_guards :
    decode (bare .guard2 0b10#32) = .ok .irqEntry ∧ decode (bare .guard2 0b11#32) = .error .guardFalse ∧
    decode (bare .guard1 1#32) = .ok .bit ∧ decode (bare .guard1 0#32) = .error .guardFalse := by decide

/-- `REQ8`, `10paarn1` (rules R61 to R64). -/
theorem test_decode_requests :
    decode (bare .req8 0b10110001#32) = .ok (.req8 false false 2#2 true) ∧
    decode (bare .req 0b10110001#32) = .ok (.reqDpW 2#2 true) ∧
    decode (bare .req 0b10100011#32) = .ok (.reqApW 0#2 true) ∧
    decode (bare .req 0b10100101#32) = .ok (.reqDpR 0#2 true) ∧
    decode (bare .req 0b10011111#32) = .ok (.reqApR 3#2 false) ∧
    decode (bare .req 0b10010001#32) = .error .badParity ∧
    decode (bare .req8 0b11110001#32) = .error .fixedBits := by decide

/-- `ACKTX5`, `ACK5` `daaat` and the named codes (rules R65, R66, R71). -/
theorem test_decode_acks :
    decode (bare .ackTx5 0b00000#32) = .ok .ackTx5 ∧ decode (bare .ack5 0b11001#32) = .ok (.ack5 true 0b100#3 true) ∧
    decode (bare .ack 0b10010#32) = .ok (.ackOk false true) ∧ decode (bare .ack 0b00101#32) = .ok (.ackWait true false) ∧
    decode (bare .ack 0b01000#32) = .ok (.ackFault false false) ∧
    decode (bare .ack 0b01110#32) = .error .unnamedAck := by decide

/-- The read frames and the clock-only frames (rules R67, R71). -/
theorem test_decode_read_frames :
    decode (bare .rd1 0b101000111011#32) = .ok (.rd1 0xA3B#12) ∧
    decode (bare .rd2 0b1110100000000#32) = .ok (.rd2 0x1D00#13) ∧
    decode (bare .rd3 0b10001010#32) = .ok (.rd3 0b001010#6 false true) ∧
    decode (withOper .clk0 0#32 12#8) = .ok .clk0w12 ∧ decode (withOper .clk0 0#32 13#8) = .ok .clk0w13 ∧
    decode (withOper .clk0 0#32 8#8) = .ok .clk0w8 ∧ decode (bare .rd1 0x1000#32) = .error .strayBits := by decide

/-- The write frames and the reset word (rules R69, R70). -/
theorem test_decode_write_frames :
    decode (bare .wd1 0b0110011011101#32) = .ok (.wd1 0x0CDD#13) ∧
    decode (bare .wd2 0b1010111011110#32) = .ok (.wd2 0x15DE#13) ∧
    decode (bare .wd3 0b01000100#32) = .ok (.wd3 0b000100#6 true) ∧
    decode (bare .wd3 0b10000000#32) = .error .fixedBits ∧
    decode (bare .rst16 0b1111111111111111#32) = .ok .rst16 ∧
    decode (bare .rst16 0xFFFE#32) = .error .fixedBits := by decide

/-- Stored words and codes (rules R11, R23, R24, R32, R73, R75, R77). -/
theorem test_decode_codes :
    decode (withOper .h32 0x0000000E#32 1#8) = .ok (.h32 1 0x0000000E#32) ∧
    decode (bare .phase4 0b0000#32) = .ok .phaseRequest ∧ decode (bare .phase4 0b0001#32) = .ok .phaseAck ∧
    decode (bare .phase4 0b0010#32) = .ok .phaseWriteData1 ∧ decode (bare .phase4 0b0011#32) = .ok .phaseWriteData2 ∧
    decode (bare .phase4 0b0100#32) = .ok .phaseWriteData3 ∧ decode (bare .phase4 0b0101#32) = .ok .phaseReadData1 ∧
    decode (bare .phase4 0b0110#32) = .ok .phaseReadData2 ∧ decode (bare .phase4 0b0111#32) = .ok .phaseReadData3 ∧
    decode (bare .phase4 0b1000#32) = .ok .phaseReset ∧ decode (bare .phase4 0b1001#32) = .error .reservedPhase ∧
    decode (bare .popst 0b00#32) = .ok .popstEmpty ∧ decode (bare .popst 0b01#32) = .ok .popstNextArmed ∧
    decode (bare .popst 0b10#32) = .ok .popstNextWithheld ∧ decode (bare .popst 0b11#32) = .error .reservedPopStatus := by
  decide

/-- One-bit codes of a buffer and of the pin (rules R23, R32, R75). -/
theorem test_decode_bit_codes :
    decode (withOper .res1 0#32 1#8) = .ok (.resSuccess 1) ∧ decode (withOper .res1 1#32 63#8) = .ok (.resParityError 63) ∧
    decode (withOper .st1 0#32 0#8) = .ok (.stReady 0) ∧ decode (withOper .st1 1#32 2#8) = .ok (.stBusy 2) ∧
    decode (bare .pin1 0#32) = .ok .pinIn ∧ decode (bare .pin1 1#32) = .ok .pinOut ∧
    decode (withOper .st1 1#32 64#8) = .error .badOperand := by decide

/-- Calls, selected by name (rule R80): the slot layout is the model's own (log entry 7). -/
theorem test_decode_calls :
    decode (withOper .arm 0#32 1#8) = .ok (.arm 1) ∧ decode (withOper .complete 0#32 1#8) = .ok (.complete 1) ∧
    decode (withOper .push 0#32 2#8) = .ok (.push 2) ∧ decode (withOper .remove 1#32 2#8) = .ok (.remove 2 true) ∧
    decode (bare .pop 0#32) = .ok .pop ∧ decode (bare .visitFirst 0#32) = .ok (.visitFirst .arm) ∧
    decode (bare .finish 0#32) = .ok .finish ∧ decode (bare .startReset 0#32) = .ok .startReset ∧
    decode (bare .setFW 13#32) = .ok (.setFW 13#32) ∧ decode (bare .writeTX 0x1FFF#32) = .ok (.writeTX 0x1FFF#32) ∧
    decode (bare .readRX 0#32) = .ok .readRX ∧ decode (bare .setPin 1#32) = .ok (.setPin .output) := by decide

/-- Bytes that are no slot are rejected by name. -/
theorem test_decode_bytes :
    decodeBytes [0x0A#8, 0#8, 0#8, 0#8, 0#8, 0#8, 0xEE#8] = .ok (.cancel 2, [0xEE#8]) ∧
    decodeBytes [0#8, 0#8, 0#8, 0#8, 0#8, 255#8] = .error .unknownFormat ∧
    decodeBytes [0#8, 0#8, 0#8] = .error .truncated := by decide

/-! ### Parities and header fields -/

/-- V-PAR. -/
theorem test_xorfold :
    xorfold (0x12345678#32) = true ∧ xorfold (0x80000000#32) = true ∧ xorfold (0xAABBCCDD#32) = false ∧
    xorfold (0xFFFFFFFF#32) = false ∧ xorfold (7#4) = true ∧ xorfold (13#4) = true := by decide

/-- V-REQ: only bits 3:0 of the header count. -/
theorem test_request_of_header :
    reqByte (hdrNibble 0xFFFFFFF0#32) = 0x81#8 ∧ reqByte (hdrNibble 0x12345678#32) = 0xB1#8 ∧
    reqByte (hdrNibble (hdrWithDir 0xC#32 .read)) = 0xBD#8 ∧ reqByte (hdrNibble (hdrWithDir 0xE#32 .write)) = 0x99#8 := by
  decide

/-! ### Host commands (V-BUF) -/

/-- V-BUF.1. -/
theorem test_startR_arms : gives (exec (.startR 0) (idleWith 0#32 0#32 0#32)) (fun t =>
    t.ret == .bool true && t.op 0 == .read && header t 0 == 2#32 && t.q == [0] && t.st 0 == .busy && t.armed &&
    t.dir == .read && t.pin == .output && t.txr == 0xA5#16 && t.xbusy && t.phase == 0#4 && t.fw == .w8) = true := by decide

/-- V-BUF.5. -/
theorem test_startR_queues : gives (exec (.startR 1) (after (exec (.startW 0) (idleWith 8#32 0xAABBCCDD#32 4#32)))) (fun t =>
    t.ret == .bool true && t.op 1 == .read && header t 1 == 6#32 && t.q == [0, 1] && t.st 1 == .busy && t.txr == 0xB1#16 &&
    t.dir == .write) = true := by decide

/-- V-BUF.3: the command, not the old header bit, decides the direction. -/
theorem test_startW_clears_bit : gives (exec (.startW 0) (idleWith 15#32 0#32 0#32)) (fun t =>
    header t 0 == 0xD#32 && t.txr == 0xBB#16 && t.dir == .write) = true := by decide

/-- V-BUF.4. -/
theorem test_startW_busy : gives (exec (.startW 0) (armedZero .read 2#32 0#32 0#32)) (fun t =>
    t.ret == .bool false && t.op 0 == .read && header t 0 == 2#32) = true := by decide

/-- V-BUF.6. -/
theorem test_cancel_queued : gives (exec (.cancel 1) (bothQueued .write 6#32)) (fun t =>
    t.ret == .bool true && t.q == [0] && t.st 1 == .ready && t.evt == [.cancelled 1] && header t 1 == 6#32 &&
    t.op 1 == .read) = true := by decide

/-- V-BUF.8. -/
theorem test_cancel_armed_head : gives (exec (.cancel 0) (bothQueued .write 6#32)) (fun t =>
    t.ret == .bool false && t.q == [0, 1] && t.st 0 == .busy) = true := by decide

/-- V-BUF.11. -/
theorem test_reset_idle : gives (exec .reset (idleWith 0#32 0#32 0#32)) (fun t =>
    t.prst && t.pin == .output && t.fw == .w16 && t.rcnt == 3#2 && t.txr == 0xFFFF#16 && t.xbusy && t.xcnt == 0#5 &&
    t.phase == 8#4) = true := by decide

/-- V-BUF.13. -/
theorem test_reset_deferred : gives (exec .reset (sending .request .w8 .write .output 0xB1#16)) (fun t =>
    t.prst && t.phase == 0#4 && t.txr == 0xB1#16 && t.fw == .w8) = true := by decide

/-- V-BUF.15. -/
theorem test_start_without_buffer : refuses (exec (.startW 2) (idleWith 0#32 0#32 0#32)) .noSuchBuffer = true := by decide

/-! ### Interrupt entries (V-FSM, V-RST) -/

/-- V-FSM.1. -/
theorem test_irqRequest : gives (exec (.irqRequest true) (served .request .w8 .read .output 0x5A#16 0#32)) (fun t =>
    t.pin == .input && t.fw == .w5 && t.txr == 0#16 && t.phase == 1#4 && t.xbusy && !t.irqp) = true := by decide

/-- V-FSM.2. -/
theorem test_irqAckR : gives (exec .irqAckR { served .ack .w5 .read .input 0x12#16 0#32 with acc := 0xDEADBEEF#32 }) (fun t =>
    t.ackr == 1#3 && t.acc == 1#32 && t.fw == .w12 && t.txr == 0#16 && t.phase == 5#4 && t.pin == .input) = true := by decide

/-- V-ACK: code 101, bit 4 clear. -/
theorem test_irqAckR_other : gives (exec .irqAckR { served .ack .w5 .read .input 0x0A#16 0#32 with acc := 0xFFFFFFFF#32 })
    (fun t => t.ackr == 5#3 && t.acc == 0#32) = true := by decide

/-- V-FSM.4. -/
theorem test_irqAckW : gives (exec .irqAckW (served .ack .w5 .write .input 0x02#16 0xAABBCCDD#32)) (fun t =>
    t.ackr == 1#3 && t.pin == .output && t.fw == .w13 && t.txr == 0x0CDD#16 && t.acc == 0x000555DE#32 &&
    t.phase == 2#4) = true := by decide

/-- V-FSM.5: parity 1, and the data is sent in spite of FAULT. -/
theorem test_irqAckW_parity : gives (exec .irqAckW (served .ack .w5 .write .input 0x19#16 1#32)) (fun t =>
    t.ackr == 4#3 && t.txr == 1#16 && t.acc == 0x00080000#32) = true := by decide

/-- V-FSM.11. -/
theorem test_irqWriteData1 :
    gives (exec (.irqWriteData1 false) { served .writeData1 .w13 .write .output 0#16 0#32 with acc := 0x000555DE#32 })
      (fun t => t.txr == 0x15DE#16 && t.acc == 0x2A#32 && t.phase == 3#4 && t.fw == .w13 && t.pin == .output) = true := by decide

/-- V-FSM.12. -/
theorem test_irqWriteData2 :
    gives (exec (.irqWriteData2 false) { served .writeData2 .w13 .write .output 0#16 0#32 with acc := 0x2A#32 })
      (fun t => t.fw == .w8 && t.txr == 0x2A#16 && t.phase == 4#4 && t.acc == 0x2A#32) = true := by decide

/-- V-FSM.14: the next transfer is armed. -/
theorem test_irqWriteData3 :
    gives (exec (.irqWriteData3 false)
      { bothQueued .write 6#32 with phase := 4#4, fw := .w8, pin := .output, ackr := 2#3, irqp := true })
      (fun t => t.res 0 == .parityError && t.evt == [.cpl 0 .parityError] && t.q == [1] && t.armed && t.dir == .read &&
        t.pin == .output && t.txr == 0x8D#16 && t.xbusy && t.phase == 0#4 && t.fw == .w8) = true := by decide

/-- V-FSM.15: the pending line reset comes first. -/
theorem test_irqWriteData3_reset :
    gives (exec (.irqWriteData3 false)
      { bothQueued .write 6#32 with phase := 4#4, fw := .w8, pin := .output, ackr := 1#3, irqp := true, prst := true })
      (fun t => t.evt == [.cpl 0 .success] && t.q == [1] && !t.armed && t.pin == .output && t.fw == .w16 &&
        t.rcnt == 3#2 && t.txr == 0xFFFF#16 && t.xbusy && t.phase == 8#4) = true := by decide

/-- V-FSM.6. -/
theorem test_irqReadData1 :
    gives (exec (.irqReadData1 true) { served .readData1 .w12 .read .input 0xA3B#16 0#32 with acc := 1#32 })
      (fun t => t.acc == 0x1477#32 && t.fw == .w13 && t.txr == 0#16 && t.phase == 6#4) = true := by decide

/-- V-FSM.8. -/
theorem test_irqReadData2 :
    gives (exec (.irqReadData2 true) { served .readData2 .w13 .read .input 0x1D00#16 0#32 with acc := 0x1477#32 })
      (fun t => t.acc == 0x03A01477#32 && t.fw == .w8 && t.txr == 0#16 && t.phase == 7#4) = true := by decide

/-- V-FSM.9. -/
theorem test_irqReadData3 :
    gives (exec (.irqReadData3 true)
      { served .readData3 .w8 .read .input 0x8A#16 0#32 with acc := 0x03A01477#32, ackr := 1#3 })
      (fun t => t.acc == 0x2BA01477#32 && !t.rpar && payload t 0 == 0x2BA01477#32 && t.phase == 0#4 && t.res 0 == .success &&
        t.q == [] && !t.armed && t.st 0 == .ready && t.evt == [.cpl 0 .success] && !t.xbusy) = true := by decide

/-- V-FSM.10: a wrong parity bit is reported, not judged. -/
theorem test_irqReadData3_parity :
    gives (exec (.irqReadData3 true)
      { served .readData3 .w8 .read .input 0xCA#16 0#32 with acc := 0x03A01477#32, ackr := 1#3 })
      (fun t => t.rpar && t.res 0 == .success && payload t 0 == 0x2BA01477#32) = true := by decide

/-- V-RST.2. -/
theorem test_irqReset_more : gives (exec (.irqReset false) { inReset 3#2 with irqp := true }) (fun t =>
    t.rcnt == 2#2 && t.txr == 0xFFFF#16 && t.xbusy && t.phase == 8#4 && t.prst && t.fw == .w16) = true := by decide

/-- V-RST.5: the end of the line reset arms the head. -/
theorem test_irqReset_end : gives (exec (.irqReset false) { inReset 1#2 with irqp := true, q := [1] }) (fun t =>
    t.rcnt == 0#2 && !t.prst && t.fw == .w8 && t.phase == 0#4 && t.armed && t.dir == .write && t.pin == .output &&
    t.txr == 0xA3#16 && t.xbusy) = true := by decide

/-- The entry dispatches on the key (rule R74): phase ACK of a write is `IRQ.ACK.W`. -/
theorem test_irqEntry_dispatch : gives (exec .irqEntry (served .ack .w5 .write .input 0x02#16 0xAABBCCDD#32)) (fun t =>
    t.phase == 2#4 && t.txr == 0x0CDD#16) = true := by decide

/-- V-FSM.17. -/
theorem test_irqEntry_badPhase :
    faults (exec .irqEntry { served .ack .w5 .write .input 0#16 0#32 with phase := 9#4 }) .badPhase = true := by decide

/-! ### The marshaller (V-MAR, V-RD) -/

/-- V-MAR.9, the fifth cycle. -/
theorem test_bit_last :
    gives (exec .bit { sending .ack .w5 .write .input 0#16 with xcnt := 4#5, rxsh := 0x02#16, target := [true] })
      (fun t => t.rxr == 0x12#16 && !t.xbusy && t.irqp && t.xcnt == 5#5 &&
        t.wire == [{ oe := false, o := false, s := true }]) = true := by decide

/-- V-MAR.11. -/
theorem test_bit_not_enabled : refuses (exec .bit (idleWith 0#32 0#32 0#32)) .notEnabled = true := by decide

/-- V-MAR.10: bit 0 goes first; `0xB1` is `REQ.DP.W`, address bits 10, parity 1. -/
theorem test_req8_wire :
    gives (exec (.req8 false false 2#2 true) (sending .request .w8 .write .output 0xB1#16)) (fun t =>
      t.wire.map (·.o) == [true, false, false, false, true, true, false, true] && t.wire.all (·.oe) && t.irqp && !t.xbusy)
      = true := by decide

theorem test_reqDpW_wire :
    gives (exec (.reqDpW 2#2 true) (sending .request .w8 .write .output 0xB1#16)) (fun t =>
      t.wire.map (·.o) == [true, false, false, false, true, true, false, true]) = true := by decide

theorem test_reqApW_wire :
    gives (exec (.reqApW 0#2 true) (sending .request .w8 .write .output 0xA3#16)) (fun t =>
      t.wire.map (·.o) == [true, true, false, false, false, true, false, true]) = true := by decide

theorem test_reqDpR_wire :
    gives (exec (.reqDpR 0#2 true) (sending .request .w8 .read .output 0xA5#16)) (fun t =>
      t.wire.map (·.o) == [true, false, true, false, false, true, false, true]) = true := by decide

theorem test_reqApR_wire :
    gives (exec (.reqApR 3#2 false) (sending .request .w8 .read .output 0x9F#16)) (fun t =>
      t.wire.map (·.o) == [true, true, true, true, true, false, false, true]) = true := by decide

/-- V-MAR.9 as one exchange: the target answers `0,1,0,0,1`. -/
theorem test_ack5_received : gives (exec (.ack5 false 0b001#3 true) (sending .ack .w5 .write .input 0#16)) (fun t =>
    t.rxr == 0x12#16 && t.irqp && !t.xbusy && t.wire.map (·.s) == [false, true, false, false, true] &&
    t.wire.all (fun c => !c.oe)) = true := by decide

theorem test_ackOk_received : gives (exec (.ackOk true false) (sending .ack .w5 .read .input 0#16)) (fun t =>
    t.rxr == 0x03#16) = true := by decide

theorem test_ackWait_received : gives (exec (.ackWait false true) (sending .ack .w5 .read .input 0#16)) (fun t =>
    t.rxr == 0x14#16) = true := by decide

theorem test_ackFault_received : gives (exec (.ackFault true true) (sending .ack .w5 .read .input 0#16)) (fun t =>
    t.rxr == 0x19#16) = true := by decide

/-- A frame has no place without an exchange (rule R72). -/
theorem test_ack_out_of_place : refuses (exec (.ackOk false false) (idleWith 0#32 0#32 0#32)) .frameNotInFlight = true := by decide

/-- The exchange of ACKTX5 with an answer that stands in front of the oracle. -/
theorem test_ackTx5 :
    gives (exec .ackTx5 { sending .ack .w5 .read .input 0#16 with target := [false, true, false, false, true] }) (fun t =>
      t.rxr == 0x12#16 && t.target == []) = true := by decide

/-- V-RD, `D = 0x2BA01477`. -/
theorem test_rd1_received : gives (exec (.rd1 0xA3B#12) (sending .readData1 .w12 .read .input 0#16)) (fun t =>
    t.rxr == 0xA3B#16 && t.wire.length == 12) = true := by decide

theorem test_rd2_received : gives (exec (.rd2 0x1D00#13) (sending .readData2 .w13 .read .input 0#16)) (fun t =>
    t.rxr == 0x1D00#16 && t.wire.length == 13) = true := by decide

theorem test_rd3_received : gives (exec (.rd3 0b001010#6 false true) (sending .readData3 .w8 .read .input 0#16)) (fun t =>
    t.rxr == 0x8A#16 && t.wire.map (·.s) == [false, true, false, true, false, false, false, true]) = true := by decide

theorem test_clk0w12 : gives (exec .clk0w12
    { sending .readData1 .w12 .read .input 0#16 with target := List.replicate 12 true }) (fun t =>
      t.rxr == 0x0FFF#16 && t.wire.all (fun c => !c.oe && !c.o)) = true := by decide

theorem test_clk0w13 : gives (exec .clk0w13
    { sending .readData2 .w13 .read .input 0#16 with target := List.replicate 13 true }) (fun t =>
      t.rxr == 0x1FFF#16) = true := by decide

theorem test_clk0w8 : gives (exec .clk0w8
    { sending .readData3 .w8 .read .input 0#16 with target := [true] ++ List.replicate 7 false }) (fun t =>
      t.rxr == 1#16) = true := by decide

/-- V-WR, `P = 0xAABBCCDD`: the wire of the first frame. -/
theorem test_wd1_wire : gives (exec (.wd1 0x0CDD#13) (sending .writeData1 .w13 .write .output 0x0CDD#16)) (fun t =>
    t.wire.map (·.o) ==
      [true, false, true, true, true, false, true, true, false, false, true, true, false]) = true := by decide

theorem test_wd2_wire : gives (exec (.wd2 0x15DE#13) (sending .writeData2 .w13 .write .output 0x15DE#16)) (fun t =>
    t.wire.map (·.o) ==
      [false, true, true, true, true, false, true, true, true, false, true, false, true]) = true := by decide

/-- V-WR, `P = 0x12345678`: the parity is bit 6, the driven 0 is bit 7. -/
theorem test_wd3_wire : gives (exec (.wd3 0b000100#6 true) (sending .writeData3 .w8 .write .output 0x44#16)) (fun t =>
    t.wire.map (·.o) == [false, false, true, false, false, false, true, false] && t.wire.all (·.oe)) = true := by decide

theorem test_rst16_wire : gives (exec .rst16 { inReset 3#2 with xbusy := true }) (fun t =>
    t.wire.map (·.o) == List.replicate 16 true && t.irqp) = true := by decide +kernel

/-! ### Stored words, codes, calls (V-Q, V-MAR) -/

/-- Little-endian header at `i * BUFSTRIDE` (rules R41 to R43). -/
theorem test_h32_bytes : gives (exec (.h32 1 0x0403020E#32) (idleWith 0#32 0#32 0#32)) (fun t =>
    t.mem.read 8 == 0x0E#8 && t.mem.read 9 == 2#8 && t.mem.read 11 == 4#8 && t.mem.read 12 == 0#8) = true := by decide

theorem test_h32_busy : refuses (exec (.h32 0 1#32) (armedZero .write 0#32 0#32 0#32)) .busyBuffer = true := by decide

/-- The phase codes of rule R11. -/
theorem test_phase_codes (s : State) : gives (exec .phaseRequest s) (·.phase == 0#4) = true ∧
    gives (exec .phaseAck s) (·.phase == 1#4) = true ∧ gives (exec .phaseWriteData1 s) (·.phase == 2#4) = true ∧
    gives (exec .phaseWriteData2 s) (·.phase == 3#4) = true ∧ gives (exec .phaseWriteData3 s) (·.phase == 4#4) = true ∧
    gives (exec .phaseReadData1 s) (·.phase == 5#4) = true ∧ gives (exec .phaseReadData2 s) (·.phase == 6#4) = true ∧
    gives (exec .phaseReadData3 s) (·.phase == 7#4) = true ∧ gives (exec .phaseReset s) (·.phase == 8#4) = true :=
  ⟨rfl, rfl, rfl, rfl, rfl, rfl, rfl, rfl, rfl⟩

theorem test_resSuccess : gives (exec (.resSuccess 1) (idleWith 0#32 0#32 0#32)) (fun t => t.res 1 == .success) = true := by decide
theorem test_resParityError : gives (exec (.resParityError 1) (idleWith 0#32 0#32 0#32)) (fun t =>
    t.res 1 == .parityError && t.res 0 == .success && t.st 1 == .ready) = true := by decide
theorem test_stBusy : gives (exec (.stBusy 1) (idleWith 0#32 0#32 0#32)) (fun t =>
    t.st 1 == .busy && t.st 0 == .ready) = true := by decide
theorem test_stReady : gives (exec (.stReady 0) (armedZero .read 2#32 0#32 0#32)) (fun t =>
    t.st 0 == .ready && t.op 0 == .read) = true := by decide
theorem test_pinIn : gives (exec .pinIn (inReset 3#2)) (fun t => t.pin == .input) = true := by decide
theorem test_pinOut : gives (exec .pinOut (idleWith 0#32 0#32 0#32)) (fun t => t.pin == .output) = true := by decide

/-- Rule R136: EMPTY with a pending reset starts it, without one nothing. -/
theorem test_popstEmpty : gives (exec .popstEmpty { idleWith 0#32 0#32 0#32 with prst := true }) (fun t =>
    t.phase == 8#4 && t.ret == .popStatus .empty) = true := by decide
theorem test_popstNextArmed : gives (exec .popstNextArmed { idleWith 0#32 0#32 0#32 with prst := true }) (fun t =>
    t.phase == 0#4 && t.ret == .popStatus .nextArmed) = true := by decide
theorem test_popstNextWithheld : gives (exec .popstNextWithheld { idleWith 0#32 0#32 0#32 with prst := true, q := [1] }) (fun t =>
    t.phase == 8#4 && t.rcnt == 3#2) = true := by decide

theorem test_arm_call : gives (exec (.arm 1) { idleWith 0#32 0#32 0xE#32 with q := [1] }) (fun t =>
    t.armed && t.dir == .read && t.pin == .output && t.txr == 0xBD#16 && t.xbusy) = true := by decide
theorem test_arm_bad : faults (exec (.arm 0) (idleWith 0#32 0#32 0#32)) .badArm = true := by decide
theorem test_complete_call : gives (exec (.complete 0) (armedZero .read 2#32 0#32 0#32)) (fun t =>
    t.st 0 == .ready && t.evt == [.cpl 0 .success] && t.q == [0]) = true := by decide

/-- V-Q.2, V-Q.3. -/
theorem test_push_call : gives (exec (.push 0) { State.reset with q := [2] }) (fun t =>
    t.q == [2, 0] && t.ret == .bool false) = true := by decide
theorem test_push_twice : faults (exec (.push 2) { State.reset with q := [2, 0] }) .doublePush = true := by decide

/-- V-Q.4, V-Q.5. -/
theorem test_remove_call : gives (exec (.remove 1 false) { State.reset with q := [0, 1, 2], armed := true }) (fun t =>
    t.q == [0, 2] && t.ret == .bool true) = true := by decide
theorem test_remove_armed : gives (exec (.remove 0 false) { State.reset with q := [0, 2], armed := true }) (fun t =>
    t.q == [0, 2] && t.ret == .bool false) = true := by decide

/-- V-Q.9, V-Q.12. -/
theorem test_pop_next : gives (exec .pop (bothQueued .write 0xE#32)) (fun t =>
    t.ret == .popStatus .nextArmed && t.q == [1] && t.st 0 == .ready && t.evt == [.cpl 0 .success] && t.armed &&
    t.dir == .read && t.pin == .output && t.txr == 0xBD#16 && t.xbusy) = true := by decide
theorem test_pop_empty : faults (exec .pop (idleWith 0#32 0#32 0#32)) .popEmpty = true := by decide

/-- V-Q.13, V-Q.14. -/
theorem test_visitFirst_arm : gives (exec (.visitFirst .arm) { idleWith 0#32 0#32 1#32 with q := [1] }) (fun t =>
    t.armed && t.dir == .write && t.txr == 0xA3#16 && t.q == [1]) = true := by decide
theorem test_visitFirst_empty : gives (exec (.visitFirst .arm) (idleWith 0#32 0#32 1#32)) (fun t =>
    !t.armed && !t.xbusy) = true := by decide

/-- V-FSM.13. -/
theorem test_finish_call : gives (exec .finish { armedZero .write 0#32 0#32 0#32 with phase := 4#4, pin := .output, ackr := 1#3 })
    (fun t => t.phase == 0#4 && t.pin == .input && t.res 0 == .success && t.q == [] && !t.armed && t.st 0 == .ready &&
      t.evt == [.cpl 0 .success]) = true := by decide

/-- V-RST.6. -/
theorem test_startReset_bad : faults (exec .startReset (idleWith 0#32 0#32 0#32)) .badResetStart = true := by decide
theorem test_startReset_call : gives (exec .startReset { idleWith 0#32 0#32 0#32 with prst := true }) (fun t =>
    t.rcnt == 3#2 && t.fw == .w16 && t.txr == 0xFFFF#16 && t.phase == 8#4) = true := by decide

/-- V-MAR.1, V-MAR.2. -/
theorem test_setFW_call : gives (exec (.setFW 5#32) (idleWith 0#32 0#32 0#32)) (fun t => t.fw == .w5) = true := by decide
theorem test_setFW_bad : faults (exec (.setFW 7#32) (idleWith 0#32 0#32 0#32)) .badWidth = true ∧
    faults (exec (.setFW 0x108#32) (idleWith 0#32 0#32 0#32)) .badWidth = true := by decide

/-- V-MAR.4, V-MAR.5. -/
theorem test_writeTX_masks : gives (exec (.writeTX 0xFFFF#32) { idleWith 0#32 0#32 0#32 with fw := .w13, xcnt := 8#5 }) (fun t =>
    t.txr == 0x1FFF#16 && t.rxsh == 0#16 && t.xcnt == 0#5 && t.xbusy) = true := by decide
theorem test_writeTX_busy : faults (exec (.writeTX 0#32) (sending .request .w8 .read .output 0xA5#16)) .busyAccess = true := by decide

/-- V-MAR.6, V-MAR.7. -/
theorem test_readRX_call : gives (exec .readRX (served .ack .w5 .read .input 0x12#16 0#32)) (fun t =>
    t.ret == .rx 0x12#16 && !t.irqp) = true := by decide
theorem test_readRX_bad : faults (exec .readRX (idleWith 0#32 0#32 0#32)) .busyAccess = true := by decide

/-- V-MAR.8. -/
theorem test_setPin_call : gives (exec (.setPin .output) (sending .ack .w5 .read .input 0#16)) (fun t =>
    t.pin == .output) = true := by decide

/-! ### The step -/

/-- A command word in the script runs; the block goes on by itself when the script is empty; an idle block has no step. -/
theorem test_step_script : gives (step { idleWith 0#32 0#32 0#32 with script := [.op (bare .cmd8 1#32), .queryParity] }) (fun t =>
    t.q == [0] && t.script == [.queryParity]) = true := by decide
theorem test_step_alone : gives (step (sending .ack .w5 .write .input 0#16)) (fun t => t.xcnt == 1#5) = true := by decide
theorem test_step_idle : refuses (step State.reset) .idle = true := by decide
theorem test_step_fetchWord : gives (step (State.reset.withFetchWord 8 0x05)) (fun t =>
    t.q == [1] && t.ret == .bool true && t.script == []) = true := by decide

/-- Byte accesses of Caller (rules R42, R52). -/
theorem test_caller_byte : gives (step { idleWith 0#32 0xAABBCCDD#32 0#32 with script := [.callerRead 5] }) (fun t =>
    t.ret == .byte 0xCC#8) = true := by decide

/-! ### Witnesses: states and operands that meet the hypotheses of the statements -/

/-- An operation that goes on answers the state `after` names. -/
theorem next_after {r : Res State} (h : gives r (fun _ => true) = true) : r = .next (after r) := by
  cases r with
  | next _ => rfl
  | fault _ => cases h
  | refused _ => cases h

theorem witness_wellFormed : (Instr.reqDpR 3#2 true).wellFormed = true ∧ (Instr.startR 63).wellFormed = true ∧
    (Instr.writeTX 0xFFFFFFFF#32).wellFormed = true := by decide

theorem witness_EncodeOfDecode : decode (bare .req 0xBD#32) = .ok (.reqDpR 3#2 true) := by decide

/-- The smallest and the largest value of each clause. -/
theorem witness_UnusedEncodingsRefused :
    ((0x07#8).extractLsb' 0 2 = 3#2 ∧ 0x07#8 ≠ 3#8) ∧ ((0xFF#8).extractLsb' 0 2 = 3#2 ∧ 0xFF#8 ≠ 3#8) ∧
    9 ≤ (9#4).toNat ∧ 9 ≤ (15#4).toNat ∧
    { State.reset with script := [.op (bare .popst 3#32)] }.script = .op (bare .popst 3#32) :: [] := by decide

theorem witness_StepRunsDecodedOperation :
    { State.reset with script := [.op (bare .cmd8 0xFD#32)] }.script = .op (bare .cmd8 0xFD#32) :: [] ∧
    decode (bare .cmd8 0xFD#32) = .ok (.startR 63) := by decide

theorem witness_PlacedWordRunsNext : decodeTableWord 8 0xFD = some (.startR 63) ∧
    decodeTableWord 16 0xA3B = some (.rd1 0xA3B#12) ∧ decodeTableWord 32 0xE = some (.h32 0 0xE#32) := by decide

theorem witness_BlockMovesByItself :
    (let s := served .ack .w5 .read .input 0x12#16 0#32; s.script = [] ∧ s.irqp = true ∧ s.imask = false) ∧
    (let s := sending .ack .w5 .read .input 0#16; s.script = [] ∧ s.irqp = false ∧ s.xbusy = true) ∧
    (State.reset.script = [] ∧ State.reset.irqp = false ∧ State.reset.xbusy = false) := by decide

theorem witness_StartArmsOnIdleBlock :
    (63 : BufIdx).val < State.reset.cfg.nbuf ∧ State.reset.st 63 = .ready ∧ State.reset.q = [] ∧ State.reset.prst = false ∧
    State.reset.armed = false ∧ State.reset.phase = 0#4 ∧ State.reset.fw = .w8 ∧ idle State.reset :=
  ⟨by decide, resetWith_st _ _, rfl, rfl, rfl, rfl, rfl, rfl, rfl⟩

theorem witness_StartQueuesWithoutArming :
    (let s := armedZero .read 2#32 0#32 0#32; (1 : BufIdx).val < s.cfg.nbuf ∧ s.st 1 = .ready ∧ 1 ∉ s.q ∧ s.q ≠ []) ∧
    (let s := inReset 3#2; (0 : BufIdx).val < s.cfg.nbuf ∧ s.st 0 = .ready ∧ 0 ∉ s.q ∧ s.prst = true) := by decide

theorem witness_RejectedCommands :
    (let s := armedZero .read 2#32 0#32 0#32;
      (1 : BufIdx).val < s.cfg.nbuf ∧ s.st 0 = .busy ∧ s.st 1 = .ready ∧ s.q.head? = some 0 ∧ s.armed = true) := by decide

theorem witness_StartWritesOnlyHeaderBit :
    (idleWith 5#32 7#32 0#32).mem.wf ∧
    exec (startOf .read 0) (idleWith 5#32 7#32 0#32) = .next (after (exec (startOf .read 0) (idleWith 5#32 7#32 0#32))) ∧
    (after (exec (startOf .read 0) (idleWith 5#32 7#32 0#32))).ret = .bool true :=
  ⟨by decide, next_after (by decide), by decide⟩

theorem witness_CancelOfUnarmedBuffer :
    (let s := bothQueued .write 6#32;
      (1 : BufIdx).val < s.cfg.nbuf ∧ s.st 1 = .busy ∧ 1 ∈ s.q ∧ ¬(s.q.head? = some 1 ∧ s.armed = true)) ∧
    (let s := { bothQueued .write 6#32 with armed := false };
      s.st 0 = .busy ∧ 0 ∈ s.q ∧ ¬(s.q.head? = some 0 ∧ s.armed = true)) := by decide

theorem witness_ResetCommand :
    (inReset 3#2).prst = true ∧ ((bothQueued .write 6#32).prst = false ∧ (bothQueued .write 6#32).q ≠ []) ∧
    (State.reset.prst = false ∧ State.reset.q = [] ∧ State.reset.armed = false ∧ State.reset.phase = 0#4 ∧
      idle State.reset) :=
  ⟨rfl, ⟨rfl, by decide⟩, rfl, rfl, rfl, rfl, rfl, rfl⟩

/-- The first index that names no buffer, and the last. -/
theorem witness_IndexWithoutBufferRefused : (inReset 3#2).cfg.nbuf ≤ (2 : BufIdx).val ∧
    (inReset 3#2).cfg.nbuf ≤ (63 : BufIdx).val := by decide

theorem witness_CallerStepsOwnership : isCallerStep (.cancel 1) = true ∧
    exec (.cancel 1) (bothQueued .write 6#32) = .next (after (exec (.cancel 1) (bothQueued .write 6#32))) :=
  ⟨rfl, next_after (by decide)⟩

theorem witness_EntryRequest : entryDue .request (served .request .w8 .read .output 0#16 0#32) := ⟨rfl, rfl, rfl, rfl⟩

theorem witness_EntryAckOfRead : entryDue .ack (served .ack .w5 .read .input 0x12#16 0#32) ∧
    (served .ack .w5 .read .input 0x12#16 0#32).dir = .read := ⟨⟨rfl, rfl, rfl, rfl⟩, rfl⟩

theorem witness_EntryAckOfWrite : entryDue .ack (served .ack .w5 .write .input 2#16 1#32) ∧
    (served .ack .w5 .write .input 2#16 1#32).dir = .write ∧ (served .ack .w5 .write .input 2#16 1#32).q = 0 :: [] ∧
    (0 : BufIdx).val < (served .ack .w5 .write .input 2#16 1#32).cfg.nbuf := ⟨⟨rfl, rfl, rfl, rfl⟩, rfl, rfl, by decide⟩

theorem witness_EntryReadDataOneTwo : entryDue .readData1 (served .readData1 .w12 .read .input 1#16 0#32) ∧
    entryDue .readData2 (served .readData2 .w13 .read .input 1#16 0#32) := ⟨⟨rfl, rfl, rfl, rfl⟩, rfl, rfl, rfl, rfl⟩

/-- The head behind which another buffer waits, and the head alone. -/
theorem witness_EntryReadDataThree :
    (let s := { bothQueued .read 0#32 with phase := 7#4, irqp := true };
      entryDue .readData3 s ∧ s.q = 0 :: [1] ∧ s.armed = true ∧ s.fw = .w8 ∧ (0 : BufIdx).val < s.cfg.nbuf ∧
      ∀ n, [(1 : BufIdx)].head? = some n → n.val < s.cfg.nbuf) ∧
    (let s := served .readData3 .w8 .read .input 0#16 0#32; entryDue .readData3 s ∧ s.q = 0 :: [] ∧ s.armed = true) :=
  ⟨⟨⟨rfl, rfl, rfl, rfl⟩, rfl, rfl, rfl, by decide, fun n h => by cases h; decide⟩, ⟨rfl, rfl, rfl, rfl⟩, rfl, rfl⟩

theorem witness_ReadDataThreeStores :
    (let s := served .readData3 .w8 .read .input 0x8A#16 0#32;
      s.mem.wf ∧ s.q.head? = some 0 ∧ exec (.irqReadData3 true) s = .next (after (exec (.irqReadData3 true) s))) :=
  ⟨by decide, by decide, next_after (by decide)⟩

theorem witness_EntryWriteDataOneTwo : entryDue .writeData1 (served .writeData1 .w13 .write .output 0#16 0#32) ∧
    (served .writeData1 .w13 .write .output 0#16 0#32).fw = .w13 ∧
    entryDue .writeData2 (served .writeData2 .w13 .write .output 0#16 0#32) :=
  ⟨⟨rfl, rfl, rfl, rfl⟩, rfl, rfl, rfl, rfl, rfl⟩

theorem witness_EntryWriteDataThree :
    (let s := { bothQueued .write 0#32 with phase := 4#4, irqp := true };
      entryDue .writeData3 s ∧ s.q = 0 :: [1] ∧ s.armed = true ∧ s.fw = .w8 ∧
      ∀ n, [(1 : BufIdx)].head? = some n → n.val < s.cfg.nbuf) :=
  ⟨⟨rfl, rfl, rfl, rfl⟩, rfl, rfl, rfl, fun n h => by cases h; decide⟩

theorem witness_EntryLineReset :
    (let s := { inReset 3#2 with irqp := true }; entryDue .reset s ∧ s.armed = false ∧ s.rcnt ≠ 1#2 ∧ s.fw = .w16) ∧
    (let s := { inReset 1#2 with irqp := true }; entryDue .reset s ∧ s.armed = false ∧ s.rcnt = 1#2 ∧ s.q = []) ∧
    (let s := { inReset 1#2 with irqp := true, q := [1] };
      entryDue .reset s ∧ s.armed = false ∧ s.rcnt = 1#2 ∧ s.q = 1 :: [] ∧ (1 : BufIdx).val < s.cfg.nbuf) :=
  ⟨⟨⟨rfl, rfl, rfl, rfl⟩, rfl, by decide, rfl⟩, ⟨⟨rfl, rfl, rfl, rfl⟩, rfl, rfl, rfl⟩, ⟨rfl, rfl, rfl, rfl⟩, rfl, rfl, rfl,
    by decide⟩

/-- Every clause: a state with the flag set, in the phase of the clause. -/
theorem witness_InterruptDispatches :
    (∀ c : BitVec 4, (let s := { served .ack .w5 .read .input 0#16 0#32 with phase := c };
      s.irqp = true ∧ s.imask = false ∧ s.xbusy = false ∧ s.phase = c ∧ s.dir = .read)) ∧
    (served .ack .w5 .write .input 0#16 0#32).dir = .write ∧ 9 ≤ (9#4).toNat ∧ 9 ≤ (15#4).toNat :=
  ⟨fun _ => ⟨rfl, rfl, rfl, rfl, rfl⟩, rfl, by decide, by decide⟩

theorem witness_FalseGuardRefused : State.reset.irqp = false ∧ { inReset 1#2 with irqp := true, imask := true }.imask = true ∧
    State.reset.xbusy = false := by decide

/-- V-RD, `D = 0x2BA01477`: the four states of the chain. -/
theorem witness_ReadReassemblesWord :
    (let D := 0x2BA01477#32
     let s := served .ack .w5 .read .input 0#16 0#32
     let r1 := exec .irqAckR { s with rxr := 0#11 ++ D.extractLsb' 0 1 ++ 1#3 ++ BitVec.ofBool false }
     let r2 := exec (.irqReadData1 true) { after r1 with rxr := 0#4 ++ D.extractLsb' 1 12, irqp := true, xbusy := false }
     let r3 := exec (.irqReadData2 true) { after r2 with rxr := 0#3 ++ D.extractLsb' 13 13, irqp := true, xbusy := false }
     let r4 := exec (.irqReadData3 true)
      { after r3 with
        rxr := 0#8 ++ BitVec.ofBool true ++ BitVec.ofBool false ++ D.extractLsb' 26 6
        irqp := true
        xbusy := false }
     s.mem.wf ∧ s.q.head? = some 0 ∧ r1 = .next (after r1) ∧ r2 = .next (after r2) ∧ r3 = .next (after r3) ∧
      r4 = .next (after r4)) :=
  ⟨by decide, by decide, next_after (by decide), next_after (by decide), next_after (by decide), next_after (by decide)⟩

theorem witness_WriteSplitsWord :
    (let s := served .ack .w5 .write .input 2#16 0xAABBCCDD#32
     let r1 := exec .irqAckW s
     let r2 := exec (.irqWriteData1 false) { after r1 with irqp := true, xbusy := false }
     let r3 := exec (.irqWriteData2 false) { after r2 with irqp := true, xbusy := false }
     s.q.head? = some 0 ∧ r1 = .next (after r1) ∧ r2 = .next (after r2) ∧ r3 = .next (after r3)) :=
  ⟨by decide, next_after (by decide), next_after (by decide), next_after (by decide)⟩

/-- The first cycle and the last, with either pin direction. -/
theorem witness_BitCycle :
    (let s := sending .ack .w5 .read .input 0#16; s.xbusy = true ∧ s.xcnt.toNat < s.fw.bits ∧ s.pin = .input) ∧
    (let s := { sending .request .w8 .read .output 0xA5#16 with xcnt := 7#5 };
      s.xbusy = true ∧ s.xcnt.toNat < s.fw.bits ∧ s.pin = .output ∧ s.xcnt.toNat + 1 = s.fw.bits) := by decide

theorem witness_TargetFramesReceived :
    frameDue .ack .w5 .input (sending .ack .w5 .read .input 0#16) ∧
    frameDue .readData1 .w12 .input (sending .readData1 .w12 .read .input 0#16) ∧
    frameDue .readData2 .w13 .input (sending .readData2 .w13 .read .input 0#16) ∧
    frameDue .readData3 .w8 .input (sending .readData3 .w8 .read .input 0#16) :=
  ⟨⟨rfl, rfl, rfl, rfl, rfl, rfl⟩, ⟨rfl, rfl, rfl, rfl, rfl, rfl⟩, ⟨rfl, rfl, rfl, rfl, rfl, rfl⟩, rfl, rfl, rfl, rfl, rfl,
    rfl⟩

theorem witness_HostFramesSent :
    (let s := sending .request .w8 .read .output 0xA5#16; frameDue .request .w8 .output s ∧
      s.txr = 0#8 ++ (0b10#2 ++ BitVec.ofBool true ++ 0#2 ++ BitVec.ofBool true ++ BitVec.ofBool false ++ 1#1)) ∧
    (let s := sending .writeData1 .w13 .write .output 0x0CDD#16; frameDue .writeData1 .w13 .output s ∧
      s.txr = 0#3 ++ 0x0CDD#13) ∧
    (let s := sending .writeData2 .w13 .write .output 0x15DE#16; frameDue .writeData2 .w13 .output s ∧
      s.txr = 0#3 ++ 0x15DE#13) ∧
    (let s := sending .writeData3 .w8 .write .output 0x44#16; frameDue .writeData3 .w8 .output s ∧
      s.txr = 0#9 ++ BitVec.ofBool true ++ 4#6) ∧
    (let s := { inReset 3#2 with xbusy := true }; frameDue .reset .w16 .output s ∧ s.txr = 0xFFFF#16) :=
  ⟨⟨⟨rfl, rfl, rfl, rfl, rfl, rfl⟩, by decide⟩, ⟨⟨rfl, rfl, rfl, rfl, rfl, rfl⟩, by decide⟩,
    ⟨⟨rfl, rfl, rfl, rfl, rfl, rfl⟩, by decide⟩, ⟨⟨rfl, rfl, rfl, rfl, rfl, rfl⟩, by decide⟩,
    ⟨rfl, rfl, rfl, rfl, rfl, rfl⟩, rfl⟩

/-- Each of the four exchanges, with target bits given ahead for the whole frame and with none. -/
theorem witness_ClockOnlyFrames :
    (sending .ack .w5 .read .input 0#16).txr = 0#16 ∧ frameDue .ack .w5 .input (sending .ack .w5 .read .input 0#16) ∧
    (sending .readData1 .w12 .read .input 0#16).txr = 0#16 ∧
    frameDue .readData1 .w12 .input (sending .readData1 .w12 .read .input 0#16) ∧
    (sending .readData2 .w13 .read .input 0#16).txr = 0#16 ∧
    frameDue .readData2 .w13 .input (sending .readData2 .w13 .read .input 0#16) ∧
    (sending .readData3 .w8 .read .input 0#16).txr = 0#16 ∧
    frameDue .readData3 .w8 .input (sending .readData3 .w8 .read .input 0#16) ∧
    (let s := { sending .ack .w5 .read .input 0#16 with target := [false, true, false, false, true, true] };
      s.txr = 0#16 ∧ frameDue .ack .w5 .input s ∧ s.target = [false, true, false, false, true] ++ [true]) :=
  ⟨rfl, ⟨rfl, rfl, rfl, rfl, rfl, rfl⟩, rfl, ⟨rfl, rfl, rfl, rfl, rfl, rfl⟩, rfl, ⟨rfl, rfl, rfl, rfl, rfl, rfl⟩, rfl,
    ⟨rfl, rfl, rfl, rfl, rfl, rfl⟩, rfl, ⟨rfl, rfl, rfl, rfl, rfl, rfl⟩, rfl⟩

/-- One frame of the host and one of the target. -/
theorem witness_FrameIsItsBitCycles :
    (let s := sending .writeData1 .w13 .write .output 0x0CDD#16;
      frameRow (.wd1 0x0CDD#13) = some ⟨.writeData1, .w13, .output, .host 0x0CDD#16⟩ ∧
      frameDue .writeData1 .w13 .output s ∧ s.txr = 0x0CDD#16) ∧
    frameRow (.ackOk false true) = some ⟨.ack, .w5, .input, .target [false, true, false, false, true]⟩ ∧
    frameDue .ack .w5 .input (sending .ack .w5 .read .input 0#16) :=
  ⟨⟨by decide, ⟨rfl, rfl, rfl, rfl, rfl, rfl⟩, rfl⟩, by decide, rfl, rfl, rfl, rfl, rfl, rfl⟩

/-- Each of the six ways of not being the exchange in flight, on the request byte of a read of register 0 of the debug port. -/
theorem witness_FrameOutOfPlaceRefused :
    frameRow (.reqDpR 0#2 true) = some ⟨.request, .w8, .output, .host 0xA5#16⟩ ∧
    State.reset.xbusy = false ∧ { sending .request .w8 .read .output 0xA5#16 with xcnt := 1#5 }.xcnt ≠ 0#5 ∧
    (sending .readData3 .w8 .read .output 0xA5#16).phase ≠ Phase.request.code ∧
    (sending .request .w16 .read .output 0xA5#16).fw ≠ .w8 ∧ (sending .request .w8 .read .input 0xA5#16).pin ≠ .output ∧
    (sending .request .w8 .read .output 0x81#16).txr ≠ 0xA5#16 :=
  ⟨by decide, rfl, by decide, by decide, by decide, by decide, by decide⟩

/-- A frame in another frame's place is refused. -/
theorem test_frame_out_of_place :
    refuses (exec (.reqDpR 0#2 true) (sending .request .w8 .read .output 0x81#16)) .frameNotInFlight = true ∧
    refuses (exec (.rd3 0#6 false false) (sending .writeData3 .w8 .write .output 0#16)) .frameNotInFlight = true ∧
    refuses (exec (.wd2 0#13) (sending .writeData1 .w13 .write .output 0#16)) .frameNotInFlight = true := by decide

theorem witness_indices : (1 : BufIdx).val < two.nbuf ∧ two.nbuf ≤ (2 : BufIdx).val ∧
    (63 : BufIdx).val < Params.default.nbuf := by decide

theorem witness_PopStatusDecides : State.reset.prst = false ∧
    (let s := { idleWith 0#32 0#32 0#32 with prst := true }; s.prst = true ∧ s.armed = false ∧ s.phase = 0#4 ∧ idle s) :=
  ⟨rfl, rfl, rfl, rfl, rfl, rfl⟩

theorem witness_HeaderWrite : (let s := idleWith 0#32 0#32 0#32; (1 : BufIdx).val < s.cfg.nbuf ∧ s.st 1 = .ready ∧ s.mem.wf) ∧
    (armedZero .read 2#32 0#32 0#32).st 0 = .busy := by decide

theorem witness_ArmCall :
    (let s := { idleWith 0#32 0#32 0xE#32 with q := [1] };
      (1 : BufIdx).val < s.cfg.nbuf ∧ s.q.head? = some 1 ∧ s.armed = false ∧ s.prst = false ∧ s.phase = 0#4 ∧ s.fw = .w8 ∧
      idle s) ∧ State.reset.q.head? ≠ some (0 : BufIdx) :=
  ⟨⟨by decide, rfl, rfl, rfl, rfl, rfl, rfl, rfl⟩, by decide⟩

theorem witness_QueueCalls : (1 : BufIdx) ∉ State.reset.q ∧
    (let s := bothQueued .write 6#32; 1 ∈ s.q ∧ ¬(s.q.head? = some 1 ∧ s.armed = true) ∧ s.q.head? = some 0 ∧
      s.armed = true) := by decide

theorem witness_PopCall : State.reset.q = [] ∧
    (let s := armedZero .read 2#32 0#32 0#32; s.q = 0 :: [] ∧ s.armed = true) ∧
    (let s := bothQueued .write 6#32; s.q = 0 :: [1] ∧ s.armed = true ∧ s.prst = false ∧ (1 : BufIdx).val < s.cfg.nbuf ∧
      s.phase = 0#4 ∧ s.fw = .w8 ∧ idle s) ∧
    (let s := { bothQueued .write 6#32 with prst := true }; s.q = 0 :: [1] ∧ s.armed = true ∧ s.prst = true) :=
  ⟨rfl, ⟨rfl, rfl⟩, ⟨rfl, rfl, rfl, by decide, rfl, rfl, rfl, rfl⟩, rfl, rfl, rfl⟩

theorem witness_VisitFirstCall : State.reset.q = [] ∧
    (let s := { idleWith 0#32 0#32 1#32 with q := [1] }; s.q = 1 :: [] ∧ (1 : BufIdx).val < s.cfg.nbuf ∧ s.armed = false ∧
      s.prst = false ∧ s.phase = 0#4 ∧ s.fw = .w8 ∧ idle s) :=
  ⟨rfl, rfl, by decide, rfl, rfl, rfl, rfl, rfl, rfl⟩

theorem witness_FinishCall : (let s := bothQueued .write 6#32; s.q = 0 :: [1] ∧ s.armed = true ∧ idle s ∧ s.fw = .w8 ∧
    ∀ n, [(1 : BufIdx)].head? = some n → n.val < s.cfg.nbuf) :=
  ⟨rfl, rfl, ⟨rfl, rfl⟩, rfl, fun n h => by cases h; decide⟩

theorem witness_StartResetCall :
    (let s := { idleWith 0#32 0#32 0#32 with prst := true }; s.prst = true ∧ s.armed = false ∧ s.phase = 0#4 ∧ idle s) ∧
    State.reset.prst ≠ true := ⟨⟨rfl, rfl, rfl, rfl, rfl⟩, by decide⟩

theorem witness_MarshallerCalls : State.reset.xbusy = false ∧ idle State.reset ∧
    (sending .ack .w5 .read .input 0#16).xbusy = true ∧ ¬idle (sending .ack .w5 .read .input 0#16) ∧
    (7#32 ≠ 5#32 ∧ 7#32 ≠ 8#32 ∧ 7#32 ≠ 12#32 ∧ 7#32 ≠ 13#32 ∧ 7#32 ≠ 16#32) ∧
    (served .ack .w5 .read .input 0#16 0#32).irqp = true ∧ (served .ack .w5 .read .input 0#16 0#32).xbusy = false ∧
    State.reset.irqp = false :=
  ⟨rfl, ⟨rfl, rfl⟩, rfl, fun h => (by decide : (true : Bool) ≠ false) h.1, by decide, rfl, rfl, rfl⟩

/-- The first and the last byte of a buffer, and the first address outside buffer memory. -/
theorem witness_CallerAccesses : (let s := idleWith 0#32 0#32 0#32;
    (1 : BufIdx).val < s.cfg.nbuf ∧ 0 < 4 + s.cfg.paycap ∧ 7 < 4 + s.cfg.paycap ∧
    (8 : Nat) = (1 : BufIdx).val * (4 + s.cfg.paycap) + 0 ∧ (15 : Nat) = (1 : BufIdx).val * (4 + s.cfg.paycap) + 7 ∧
    s.st 1 = .ready ∧ s.cfg.nbuf * (4 + s.cfg.paycap) ≤ 16) ∧ (armedZero .read 2#32 0#32 0#32).st 0 = .busy := by decide

/-! ### Witnesses that meet the invariants -/

theorem inv_reset : Inv State.reset :=
  AtRest.idle (s := State.reset)
    { unarmed := rfl, phase := rfl, width := rfl, noExchange := rfl, noFlag := rfl
      busyIffQueued := fun i => by
        rw [show State.reset.st i = .ready from resetWith_st _ _]
        simp [State.reset, State.resetWith]
      queueNodup := List.nodup_nil
      queueNamesBuffers := fun i h => by cases h
      opIsHeader := fun i h => by cases h
      unmasked := rfl, memCanonical := wf_nil } rfl rfl rfl

/-- A request byte has gone out, a line reset may be pending. -/
theorem inv_served (b : Bool) : Inv { served .request .w8 .read .output 0x5A#16 0#32 with prst := b } :=
  InvAt.inv (p := .request) {
    phase := rfl
    armedHasHead := fun _ e => by cases e
    resetPhaseUnarmed := fun e => by cases e
    headIsArmed := fun _ _ => rfl
    activeIff := ⟨fun _ => .inl rfl, fun _ => .inr rfl⟩
    busyIffQueued := by cases b <;> decide
    queueNodup := by cases b <;> decide
    notBoth := fun e => by cases e
    countBelowWidth := fun e => by cases e
    widthMatches := rfl
    resetCount := fun e => by cases e
    pinOutIff := ⟨fun _ => .inl ⟨rfl, rfl⟩, fun _ => rfl⟩
    pendingReset := fun _ => .inr rfl
    dirOfHead := fun _ h e => by
      cases e
      cases b <;> decide
    readPhaseDir := fun e => by cases e
    writePhaseDir := fun e => by cases e
    phaseArmed := fun e => absurd rfl e
    queueNamesBuffers := by cases b <;> decide
    opIsHeader := by cases b <;> decide
    unmasked := rfl
    txrFits := fun e => by cases e
    rxshFits := fun e => by cases e
    rxrFits := fun _ => by change (0x5A#16).toNat < 2 ^ 8; decide
    memCanonical := by cases b <;> decide }

theorem witness_DueInterruptCompletes : Inv (served .request .w8 .read .output 0x5A#16 0#32) ∧
    (served .request .w8 .read .output 0x5A#16 0#32).irqp = true := ⟨inv_served false, rfl⟩

/-- A request byte has gone out and a line reset is pending. -/
def pendingReset : State := { served .request .w8 .read .output 0x5A#16 0#32 with prst := true }

/-- For InvariantKept, QueueIsFifo, PhaseSuccessors and HistoriesOnlyGrow: a step of the interrupt entry, and a step in which a
line reset is pending before and after. -/
theorem witness_InvariantKept :
    Inv pendingReset ∧ agentNext pendingReset ∧ step pendingReset = .next (after (step pendingReset)) ∧
    pendingReset.prst = true ∧ (after (step pendingReset)).prst = true ∧ (after (step pendingReset)).armed = true :=
  ⟨inv_served true, fun _ h => (by cases h), next_after (by decide), rfl, by decide, by decide⟩

theorem witness_NoAssertionFails :
    (let s := { State.reset with script := [.callerRead 512] };
      Inv s ∧ agentNext s ∧ step s = .fault .badAddress) :=
  ⟨inv_reset.env [.callerRead 512] [] 0 .nothing, fun _ h => (by cases h; rfl), rfl⟩

theorem witness_IdleBlockAtRest : Inv State.reset ∧ idle State.reset := ⟨inv_reset, rfl, rfl⟩

/-- A step with a cycle in which the host drives: the counter of free values moves by one. -/
theorem witness_HistoriesOnlyGrow :
    gives (step (sending .request .w8 .read .output 0xA5#16)) (fun t =>
      t.draws == 1 && t.wire.length == 1 && (drivenSamples t.wire).length == 1) = true := by decide

theorem witness_OnlyNamedRowsStore :
    exec (.irqRequest true) (served .request .w8 .read .output 0#16 0#32) =
      .next (after (exec (.irqRequest true) (served .request .w8 .read .output 0#16 0#32))) := next_after (by decide)

theorem witness_EventuallyIdle : Inv (served .request .w8 .read .output 0x5A#16 0#32) ∧
    (served .request .w8 .read .output 0x5A#16 0#32).script = [] := ⟨inv_served false, rfl⟩

end Sys2Proof.Tests
end

section
/-!
The dispatch of the interrupt entry on the key `{DIR, PHASE}` (rules R74, R125).
-/

namespace Sys2Proof.Machine

/-- The row of an entry runs that entry; bit 4 of the key changes nothing but the row's name. -/
theorem exec_entryInstr (e : Entry) (d : Bool) (s : State) : exec (e.instr d) s = runEntry e s := by
  cases e <;> rfl

/-- The entry taken is the row that the key selects (rule R74). -/
theorem exec_irqEntry_of_pendingEntry {e : Entry} {s : State} (h : pendingEntry s = some e) (d : Bool) :
    exec .irqEntry s = exec (e.instr d) s := by
  rw [exec_entryInstr]
  exact irqEntryStep_pending h

/-- A key whose phase code names no phase selects no entry, and no other key is without one (rules R11, R78). -/
theorem ofKey_eq_none_iff {d : Bool} {c : BitVec 4} : Entry.ofKey d c = none ↔ 9 ≤ c.toNat := by
  revert d c
  decide

/-- A due interrupt whose key selects no entry is fault BadPhase (rules R125, R188). -/
theorem exec_irqEntry_of_pendingEntry_none {s : State} (hi : s.irqp = true) (hm : s.imask = false)
    (hx : s.xbusy = false) (h : pendingEntry s = none) : exec .irqEntry s = .fault .badPhase := by
  change irqEntryStep s = _
  rw [irqEntryStep, takeInterrupt_eq_next.2 ⟨hi, hm, hx, rfl⟩, andThen_next]
  simp only [h]

/-- Settles O27: the keys of R74 one by one, then the codes that select no entry. -/
theorem interruptDispatches : Obligations.InterruptDispatches := by
  intro s hi hm hx
  have row {c : BitVec 4} (e : Entry) (hk : Entry.ofKey s.dir.bit c = some e) (hp : s.phase = c) :
      exec .irqEntry s = exec (e.instr s.dir.bit) s :=
    exec_irqEntry_of_pendingEntry (by rw [pendingEntry, hp, hk]) _
  refine ⟨row .request rfl, fun hp hd => ?_, fun hp hd => ?_, row .writeData1 rfl, row .writeData2 rfl,
    row .writeData3 rfl, row .readData1 rfl, row .readData2 rfl, row .readData3 rfl, row .reset rfl, fun h9 => ?_⟩
  · exact row .ackR (by rw [hd]; rfl) hp
  · exact row .ackW (by rw [hd]; rfl) hp
  · exact exec_irqEntry_of_pendingEntry_none hi hm hx (ofKey_eq_none_iff.2 h9)

end Sys2Proof.Machine
end

section
/-!
The transfer buffer's micro-operations called by name: ARM (rule R94) and COMPLETE (rule R95).
-/

namespace Sys2Proof.Machine

@[simp] theorem returning_next (r : Ret) (s : State) : returning r (.next s) = .next { s with ret := r } := rfl

@[simp] theorem returning_fault (r : Ret) (e : Fault) : returning r (.fault e) = .fault e := rfl

/-- `ARM(i)` faults at once where its precondition is false: it reads no header and starts no exchange (rules R94, R188). -/
theorem armBuffer_not_ready {i : BufIdx} {s : State} (h : ¬armReady i s = true) : armBuffer i s = .fault .badArm :=
  if_neg h

theorem exec_arm {i : BufIdx} {s : State} (hi : i.val < s.cfg.nbuf) :
    exec (.arm i) s = returning .nothing (armBuffer i s) := withBuffer_named hi _

theorem exec_complete {i : BufIdx} {s : State} (hi : i.val < s.cfg.nbuf) :
    exec (.complete i) s = returning .nothing (.next (completeBuffer i s)) := withBuffer_named hi _

/-- Settles O42: the precondition is `armReady`, which decides between the armed state and BadArm. -/
theorem armCall : Obligations.ArmCall := by
  intro s i hi
  rw [exec_arm hi]
  constructor
  · intro ready
    rw [armBuffer_ready (armReady_iff.2 ready) hi, returning_next]
  · intro notReady
    rw [armBuffer_not_ready (mt armReady_iff.1 notReady), returning_fault]

/-- Settles O43: what `completeBuffer` writes is the whole effect; only the empty answer is added. -/
theorem completeCall : Obligations.CompleteCall := by
  intro s i hi
  rw [exec_complete hi, returning_next, completeBuffer]

end Sys2Proof.Machine
end

section
/-!
The transfer queue's micro-operations called by name: PUSH and REMOVE (rules R111, R112), POP (rule R113), VISITFIRST (rule R114).
-/

namespace Sys2Proof.Machine

/-! ### PUSH and REMOVE -/

/-- `PUSH(i)` answers what the insertion answers (rule R111). -/
theorem exec_push {i : BufIdx} {s : State} (hi : i.val < s.cfg.nbuf) :
    exec (.push i) s = andThen (pushBuffer i s) fun x => .next { x.2 with ret := .bool x.1 } := withBuffer_named hi _

/-- `REMOVE(i, allow)` answers what the deletion answers (rule R112). -/
theorem exec_remove {i : BufIdx} {allow : Bool} {s : State} (hi : i.val < s.cfg.nbuf) :
    exec (.remove i allow) s = andThen (removeBuffer i allow s) fun x => .next { x.2 with ret := .bool x.1 } :=
  withBuffer_named hi _

theorem pushBuffer_queued {i : BufIdx} {s : State} (h : i ∈ s.q) : pushBuffer i s = .fault .doublePush := if_pos h

/-- The armed head is not deleted with `allow` either (rule R112, decision D29). -/
theorem removeBuffer_armedHead_allow {i : BufIdx} {s : State} (hq : i ∈ s.q) (ha : isArmedHead i s = true) :
    removeBuffer i true s = .refused .removeArmed := by
  rw [removeBuffer, if_neg (not_not.2 hq), if_pos ha, if_pos rfl]

/-- Settles O44: whether the buffer is queued decides PUSH; that and whether it is the armed head decide REMOVE. -/
theorem queueCalls : Obligations.QueueCalls := by
  intro s i hi
  refine ⟨fun notQueued => ?_, fun queued => ?_, fun notQueued allow => ?_, fun head armed => ?_,
    fun queued notArmedHead allow => ?_⟩
  · have empty : s.q.isEmpty = decide (s.q = []) := Bool.eq_iff_iff.2 (by simp)
    rw [exec_push hi, pushBuffer_eq_next.2 ⟨notQueued, rfl⟩, andThen_next, empty]
  · rw [exec_push hi, pushBuffer_queued queued, andThen_fault]
  · rw [exec_remove hi, removeBuffer_eq_next.2 (.inl ⟨notQueued, rfl⟩), andThen_next]
  · have queued : i ∈ s.q := List.mem_of_head? head
    have armedHead : isArmedHead i s = true := isArmedHead_iff.2 ⟨head, armed⟩
    constructor
    · rw [exec_remove hi, removeBuffer_eq_next.2 (.inr (.inl ⟨queued, armedHead, rfl, rfl⟩)), andThen_next]
    · rw [exec_remove hi, removeBuffer_armedHead_allow queued armedHead, andThen_refused]
  · have other : isArmedHead i s = false := Bool.eq_false_iff.2 (mt isArmedHead_iff.1 notArmedHead)
    rw [exec_remove hi, removeBuffer_eq_next.2 (.inr (.inr ⟨queued, other, rfl⟩)), andThen_next]

/-! ### POP -/

/-- `POP()` answers the status it ends with (rule R113). -/
theorem exec_pop (s : State) :
    exec .pop s = andThen (popHead s) fun x => .next { x.2 with ret := .popStatus x.1 } := rfl

/-- Without an armed head there is nothing to pop (rules R113, R188). -/
theorem popHead_without_armedHead {s : State} (h : s.q = [] ∨ s.armed = false) : popHead s = .fault .popEmpty := by
  unfold popHead
  split
  · rfl
  · next hq =>
    have unarmed : s.armed = false := h.resolve_left (by simp [hq])
    rw [unarmed, if_neg Bool.false_ne_true]

/-- Settles O45: the fault, then the three outcomes of `popHead`; the next head is armed in the state that the completed head
leaves, where the precondition of ARM holds. -/
theorem popCall : Obligations.PopCall := by
  refine ⟨fun s noArmedHead => ?_, fun s u h rest hq armed hu => ?_⟩
  · rw [exec_pop, popHead_without_armedHead noArmedHead, andThen_fault]
  obtain rfl : u = completeBuffer h { s with q := rest, armed := false } := hu
  refine ⟨fun last => ?_, fun more pending => ?_, fun n nextHead noReset hn phase width quiet => ?_⟩
  · rw [exec_pop, popHead_eq_next.2 ⟨h, rest, hq, armed, .inl ⟨last, rfl⟩⟩, andThen_next]
  · obtain ⟨n, l, hrest⟩ := List.exists_cons_of_ne_nil more
    rw [exec_pop, popHead_eq_next.2 ⟨h, rest, hq, armed, .inr (.inl ⟨n, l, hrest, pending, rfl⟩)⟩, andThen_next]
  · obtain ⟨l, hrest⟩ := List.head?_eq_some_iff.1 nextHead
    have ready : armReady n (completeBuffer h { s with q := rest, armed := false }) = true :=
      armReady_iff.2 ⟨nextHead, rfl, noReset, phase, width, quiet⟩
    rw [exec_pop, popHead_eq_next.2 ⟨h, rest, hq, armed,
      .inr (.inr ⟨n, l, _, hrest, noReset, armBuffer_ready ready hn, rfl⟩)⟩, andThen_next]

/-! ### VISITFIRST -/

/-- `VISITFIRST(f)` has an effect through its visit only (rule R114). -/
theorem exec_visitFirst (f : VisitOp) (s : State) :
    exec (.visitFirst f) s = returning .nothing (visitHead f s) := rfl

theorem visitHead_empty {s : State} (hq : s.q = []) (f : VisitOp) : visitHead f s = .next s := by
  rw [visitHead, hq]

theorem visitHead_head {s : State} {h : BufIdx} {rest : List BufIdx} (hq : s.q = h :: rest) (f : VisitOp) :
    visitHead f s = runVisit f h s := by
  rw [visitHead, hq]

/-- Visiting a head that names a buffer with ARM is ARM of that head (rules R94, R114). -/
theorem exec_visitFirst_arm {s : State} {h : BufIdx} {rest : List BufIdx} (hq : s.q = h :: rest)
    (hn : h.val < s.cfg.nbuf) : exec (.visitFirst .arm) s = exec (.arm h) s := by
  rw [exec_visitFirst, visitHead_head hq, exec_arm hn, runVisit]

/-- Visiting a head that names a buffer with COMPLETE is COMPLETE of that head (rules R95, R114). -/
theorem exec_visitFirst_complete {s : State} {h : BufIdx} {rest : List BufIdx} (hq : s.q = h :: rest)
    (hn : h.val < s.cfg.nbuf) : exec (.visitFirst .complete) s = exec (.complete h) s := by
  rw [exec_visitFirst, visitHead_head hq, exec_complete hn, runVisit]

/-- Settles O46: the visit of the head is the operation of that name on it, whose effect O42 and O43 state. -/
theorem visitFirstCall : Obligations.VisitFirstCall := by
  intro s
  refine ⟨fun hq f => ?_, fun h rest hq hn => ?_, fun h rest hq hn unarmed noReset phase width quiet => ?_,
    fun h rest hq hn => ?_⟩
  · rw [exec_visitFirst, visitHead_empty hq, returning_next]
  · exact ⟨exec_visitFirst_arm hq hn, exec_visitFirst_complete hq hn⟩
  · have head : s.q.head? = some h := by rw [hq, List.head?_cons]
    rw [exec_visitFirst_arm hq hn]
    exact (armCall s h hn).1 ⟨head, unarmed, noReset, phase, width, quiet⟩
  · rw [exec_visitFirst_complete hq hn]
    exact completeCall s h hn

end Sys2Proof.Machine
end

section
/-!
The interrupt entries of a transfer (rules R127 to R135), each as one step with its whole next state, and the common tail FINISH
(rule R136).
-/

namespace Sys2Proof.Machine

/-! ### Due entries -/

/-- A due entry is its body on the word received, with the receive flag cleared (rules R125, R126). -/
theorem exec_entryInstr_due {e : Entry} {p : Phase} {s : State} (due : entryDue p s)
    (key : Entry.ofKey s.dir.bit p.code = some e) (d : Bool) :
    exec (e.instr d) s = entryBody e s.rxr { s with irqp := false } :=
  (exec_entryInstr e d s).trans (runEntry_due due key)

/-- Taking a due entry leaves the marshaller at rest, free for the entry's own exchange (rules R167, R168). -/
theorem entryDue.idle_after_read {p : Phase} {s : State} (due : entryDue p s) : idle { s with irqp := false } := by
  obtain ⟨-, -, free, -⟩ := due
  exact ⟨free, rfl⟩

/-! ### Request and acknowledge -/

/-- Settles O18: the key selects IRQ.REQUEST in either direction. (The name `entryRequest` is the model's, for the body.) -/
theorem entryRequest_due : Obligations.EntryRequest := by
  intro s d due
  obtain ⟨free, flagClear⟩ := due.idle_after_read
  calc exec (.irqRequest d) s
    _ = entryRequest { s with irqp := false } := exec_entryInstr_due due rfl d
    _ = _ := entryRequest_eq_next.2 ⟨free, flagClear, rfl⟩

/-- Settles O19: phase ACK with DIR = read selects IRQ.ACK.R. -/
theorem entryAckOfRead : Obligations.EntryAckOfRead := by
  intro s due dir
  obtain ⟨free, flagClear⟩ := due.idle_after_read
  have key : Entry.ofKey s.dir.bit Phase.ack.code = some .ackR := by rw [dir]; rfl
  calc exec .irqAckR s
    _ = entryAckR s.rxr { s with irqp := false } := exec_entryInstr_due due key true
    _ = _ := entryAckR_eq_next.2 ⟨free, flagClear, rfl⟩

/-- Settles O20: phase ACK with DIR = write selects IRQ.ACK.W, whose payload read lies inside buffer memory. -/
theorem entryAckOfWrite : Obligations.EntryAckOfWrite := by
  intro s h rest due dir hq hn
  obtain ⟨free, flagClear⟩ := due.idle_after_read
  have key : Entry.ofKey s.dir.bit Phase.ack.code = some .ackW := by rw [dir]; rfl
  have head : s.q.head? = some h := by rw [hq, List.head?_cons]
  calc exec .irqAckW s
    _ = entryAckW s.rxr { s with irqp := false } := exec_entryInstr_due due key false
    _ = _ := entryAckW_eq_next.2 ⟨h, head, pay_inside hn, free, flagClear, rfl⟩

/-! ### Data inside a transfer -/

/-- Settles O21: the first two pieces of a read, each merged into ACC at its offset. -/
theorem entryReadDataOneTwo : Obligations.EntryReadDataOneTwo := by
  constructor
  · intro s d due
    obtain ⟨free, flagClear⟩ := due.idle_after_read
    calc exec (.irqReadData1 d) s
      _ = entryReadData1 s.rxr { s with irqp := false } := exec_entryInstr_due due rfl d
      _ = _ := entryReadData1_eq_next.2 ⟨free, flagClear, rfl⟩
  · intro s d due
    obtain ⟨free, flagClear⟩ := due.idle_after_read
    calc exec (.irqReadData2 d) s
      _ = entryReadData2 s.rxr { s with irqp := false } := exec_entryInstr_due due rfl d
      _ = _ := entryReadData2_eq_next.2 ⟨free, flagClear, rfl⟩

/-- Settles O24: IRQ.WRITE_DATA1 sets no width, so its 13 bits go out whole only because `FW` is still 13; IRQ.WRITE_DATA2 sets
its own. -/
theorem entryWriteDataOneTwo : Obligations.EntryWriteDataOneTwo := by
  constructor
  · intro s d due width
    obtain ⟨free, flagClear⟩ := due.idle_after_read
    have whole : lowBits s.fw.bits ((s.acc.extractLsb' 0 13).setWidth 32) = 0#3 ++ s.acc.extractLsb' 0 13 := by
      rw [width, FrameWidth.bits, lowBits_thirteen]
    rw [← whole]
    calc exec (.irqWriteData1 d) s
      _ = entryWriteData1 { s with irqp := false } := exec_entryInstr_due due rfl d
      _ = _ := entryWriteData1_eq_next.2 ⟨free, flagClear, rfl⟩
  · intro s d due
    obtain ⟨free, flagClear⟩ := due.idle_after_read
    calc exec (.irqWriteData2 d) s
      _ = entryWriteData2 { s with irqp := false } := exec_entryInstr_due due rfl d
      _ = _ := entryWriteData2_eq_next.2 ⟨free, flagClear, rfl⟩

/-! ### The terminal entries and FINISH -/

/-- Settles O22: the assembled word is stored inside buffer memory, and FINISH runs on the state with the word stored. -/
theorem entryReadDataThree : Obligations.EntryReadDataThree := by
  intro s d h rest due hq armed width hn nextNamed
  obtain ⟨free, flagClear⟩ := due.idle_after_read
  have head : s.q.head? = some h := by rw [hq, List.head?_cons]
  calc exec (.irqReadData3 d) s
    _ = entryReadData3 s.rxr { s with irqp := false } := exec_entryInstr_due due rfl d
    _ = finishTransfer (readStored s.rxr h { s with irqp := false }) :=
      (entryReadData3_head (s := { s with irqp := false }) head).trans (if_pos (pay_inside hn))
    _ = _ := finishTransfer_done hq armed free flagClear width nextNamed

/-- Settles O25: IRQ.WRITE_DATA3 is FINISH on the state with the received word discarded. -/
theorem entryWriteDataThree : Obligations.EntryWriteDataThree := by
  intro s d h rest due hq armed width nextNamed
  obtain ⟨free, flagClear⟩ := due.idle_after_read
  calc exec (.irqWriteData3 d) s
    _ = finishTransfer { s with irqp := false } := exec_entryInstr_due due rfl d
    _ = _ := finishTransfer_done hq armed free flagClear width nextNamed

/-- `FINISH` called by name answers nothing (rule R136). -/
theorem exec_finish (s : State) : exec .finish s = returning .nothing (finishTransfer s) := rfl

/-- Settles O47: the outcome of `finishTransfer` for an armed head on a marshaller at rest; only the empty answer is added. -/
theorem finishCall : Obligations.FinishCall := by
  intro s h rest hq armed quiet width nextNamed
  obtain ⟨free, flagClear⟩ := quiet
  rw [exec_finish, finishTransfer_done hq armed free flagClear width nextNamed, returning_next]

end Sys2Proof.Machine
end

section
/-!
The line reset: the command RESET (rule R151), STARTRESET called by name (rule R152), and the interrupt entry that counts the
words and ends the sequence (rule R153).
-/

namespace Sys2Proof.Machine

/-! ### STARTRESET -/

/-- `STARTRESET` under its precondition (rule R152). -/
theorem startLineReset_ready {s : State} (h : lineResetReady s = true) : startLineReset s = .next (lineResetStarted s) :=
  startLineReset_eq_next.2 ⟨h, rfl⟩

/-- `STARTRESET` faults at once where its precondition is false: it moves no pin and starts no exchange (rules R152, R188). -/
theorem startLineReset_not_ready {s : State} (h : ¬lineResetReady s = true) : startLineReset s = .fault .badResetStart :=
  if_neg h

/-- `STARTRESET` called by name answers nothing (rule R152). -/
theorem exec_startReset (s : State) : exec .startReset s = returning .nothing (startLineReset s) := rfl

/-- Settles O48: the precondition is `lineResetReady`, which decides between the started line reset and BadResetStart. -/
theorem startResetCall : Obligations.StartResetCall := by
  intro s
  rw [exec_startReset]
  constructor
  · intro ready
    rw [startLineReset_ready (lineResetReady_iff.2 ready), returning_next]
  · intro notReady
    rw [startLineReset_not_ready (mt lineResetReady_iff.1 notReady), returning_fault]

/-! ### The command RESET -/

/-- A line reset that is pending or running makes the command a no-op (rule R151). -/
theorem resetBody_pending {s : State} (hp : s.prst = true) : resetBody s = .next (.nothing, s) := if_pos hp

/-- Behind a queued transfer only the flag is set (rule R151). -/
theorem resetBody_deferred {s : State} (hp : s.prst = false) (hq : s.q ≠ []) :
    resetBody s = .next (.nothing, { s with prst := true }) := by
  rw [resetBody, hp, if_neg Bool.false_ne_true, if_neg (mt List.isEmpty_iff.1 hq)]

/-- On an empty queue the flag is set and STARTRESET follows at once (rules R151, R152). -/
theorem resetBody_started {s : State} (hp : s.prst = false) (hq : s.q = [])
    (ready : lineResetReady { s with prst := true } = true) :
    resetBody s = .next (.nothing, lineResetStarted { s with prst := true }) := by
  rw [resetBody, hp, if_neg Bool.false_ne_true, if_pos (List.isEmpty_iff.2 hq), startLineReset_ready ready, andThen_next]

/-- The command RESET runs its body with the interrupt masked (rules R151, R189). -/
theorem exec_reset (s : State) : exec .reset s = command resetBody s := rfl

/-- Settles O15: the flag, then the queue, decide between the three bodies; the mask ends as it was. -/
theorem resetCommand : Obligations.ResetCommand := by
  intro s
  rw [exec_reset]
  refine ⟨fun pending => ?_, fun notPending queued => ?_, fun notPending empty unarmed phase quiet => ?_⟩
  · exact command_eq_next.2 ⟨_, _, resetBody_pending pending, rfl⟩
  · exact command_eq_next.2 ⟨_, _, resetBody_deferred notPending queued, rfl⟩
  · have ready : lineResetReady { s with imask := true, prst := true } = true :=
      lineResetReady_iff.2 ⟨rfl, unarmed, phase, quiet⟩
    exact command_eq_next.2 ⟨_, _, resetBody_started notPending empty ready, rfl⟩

/-! ### The entry of phase RESET -/

/-- While the counter does not reach 0 the next word starts (rule R153). The entry sets no width for it, so it is 16
ones only because `FW` is still 16. -/
theorem entryReset_counting {s : State} (more : s.rcnt ≠ 1#2) (width : s.fw = .w16) (quiet : idle s) :
    entryReset s = .next (exchangeStarted 0xFFFF#16 { s with rcnt := s.rcnt - 1#2 }) := by
  obtain ⟨free, flagClear⟩ := quiet
  have ones : lowBits s.fw.bits Config.resetWord = 0xFFFF#16 := by rw [width]; decide
  rw [← ones]
  calc entryReset s
    _ = transmit Config.resetWord { s with rcnt := s.rcnt - 1#2 } := if_pos (sub_ne_zero.2 more)
    _ = _ := transmit_free free flagClear

/-- At 0 the line reset ends, and the head is visited in the state that its end leaves (rule R153). -/
theorem entryReset_ending {s : State} (last : s.rcnt = 1#2) (free : s.xbusy = false) :
    entryReset s = visitHead .arm (lineResetEnded s) := by
  have zero : s.rcnt - 1#2 = 0#2 := by rw [last, BitVec.sub_self]
  rw [entryReset, zero, if_neg (not_not.2 rfl), setWidthTo_free (by exact free), andThen_next]
  rfl

theorem entryReset_ending_empty {s : State} (last : s.rcnt = 1#2) (hq : s.q = []) (quiet : idle s) :
    entryReset s = .next (lineResetEnded s) := by
  obtain ⟨free, -⟩ := quiet
  rw [entryReset_ending last free, visitHead_empty (by exact hq)]

/-- The end of a line reset meets the precondition of ARM for an unarmed head (rules R94, R153). -/
theorem armReady_lineResetEnded {s : State} {h : BufIdx} {rest : List BufIdx} (hq : s.q = h :: rest)
    (unarmed : s.armed = false) (quiet : idle s) : armReady h (lineResetEnded s) = true :=
  armReady_iff.2 ⟨List.head?_eq_some_iff.2 ⟨rest, hq⟩, unarmed, rfl, rfl, rfl, quiet⟩

theorem entryReset_ending_head {s : State} {h : BufIdx} {rest : List BufIdx} (last : s.rcnt = 1#2) (hq : s.q = h :: rest)
    (hn : h.val < s.cfg.nbuf) (unarmed : s.armed = false) (quiet : idle s) :
    entryReset s = .next (armedWith h (lineResetEnded s)) := by
  have ready := armReady_lineResetEnded hq unarmed quiet
  obtain ⟨free, -⟩ := quiet
  rw [entryReset_ending last free, visitHead_head (by exact hq), runVisit, armBuffer_ready ready hn]

/-- Settles O26: the counter decides between another word and the end, the queue what follows the end. -/
theorem entryLineReset : Obligations.EntryLineReset := by
  intro s d due unarmed
  have quiet : idle { s with irqp := false } := due.idle_after_read
  have body : exec (.irqReset d) s = entryReset { s with irqp := false } := exec_entryInstr_due due rfl d
  rw [body]
  refine ⟨fun more width => ?_, fun last empty => ?_, fun h rest last hq hn => ?_⟩
  · exact entryReset_counting more width quiet
  · exact entryReset_ending_empty last empty quiet
  · exact entryReset_ending_head last hq hn unarmed quiet

end Sys2Proof.Machine
end

section
/-!
The marshaller: one bit cycle (rules R171 to R173), and the primitives SetFW, WriteTX, ReadRX and SetPin called by name (rules R166
to R169).
-/

namespace Sys2Proof.Machine

/-! ### The bit cycle -/

/-- Setting a bit inside the register changes that bit alone. -/
theorem setBit_getLsbD_inside {v : BitVec 16} {k : Nat} (inside : k < 16) (b : Bool) (j : Nat) :
    (setBit v k b).getLsbD j = if j = k then b else v.getLsbD j := by
  simp only [setBit_getLsbD, inside, and_true]

/-- One cycle of an exchange, the last or not: `RXSH`, `WIRE` and `XCNT` move in each, `RXR`, `XBUSY` and `IRQP` in the last one
alone (rules R171, R173). -/
theorem shiftBit_spec {s : State} (below : s.xcnt.toNat < s.fw.bits) (b : Bool) :
    ∃ rx busy flag, shiftBit b s = { s with
        rxsh := setBit s.rxsh s.xcnt.toNat b
        wire := s.wire ++ [{ oe := s.pin.code, o := s.txr.getLsbD s.xcnt.toNat, s := b }]
        xcnt := s.xcnt + 1#5
        rxr := rx
        xbusy := busy
        irqp := flag } ∧
      (s.xcnt.toNat + 1 = s.fw.bits → rx = setBit s.rxsh s.xcnt.toNat b ∧ busy = false ∧ flag = true) ∧
      (s.xcnt.toNat + 1 < s.fw.bits → rx = s.rxr ∧ busy = s.xbusy ∧ flag = s.irqp) := by
  obtain last | more := (Nat.succ_le_of_lt below).eq_or_lt
  · exact ⟨_, _, _, shiftBit_last last, fun _ => ⟨rfl, rfl, rfl⟩, fun more => absurd last more.ne⟩
  · exact ⟨_, _, _, shiftBit_more more, fun last => absurd last more.ne, fun _ => ⟨rfl, rfl, rfl⟩⟩

/-- `BIT` is a bit cycle with the bit that its source gives, which is taken from it (rules R171, R172). -/
theorem exec_bit_sampled {s : State} {b : Bool} {tgt : List Bool} {d : Nat} (busy : s.xbusy = true)
    (hs : sample s = (b, { s with target := tgt, draws := d })) :
    exec .bit s = .next (shiftBit b { s with target := tgt, draws := d }) := by
  have cycle : exec .bit s = .next (shiftBit (sample s).1 (sample s).2) := if_pos busy
  rw [cycle, hs]

/-- `BIT` without an exchange in flight is no step (rule R171). -/
theorem exec_bit_free {s : State} (free : s.xbusy = false) : exec .bit s = .refused .notEnabled :=
  if_neg (by rw [free]; exact Bool.false_ne_true)

/-- Settles O32: `sample_spec` says where the sampled bit comes from, `shiftBit_spec` what the cycle does with it. (The name
`bitCycle` is the model's.) -/
theorem oneBitCycle : Obligations.BitCycle := by
  intro s
  refine ⟨exec_bit_free, fun busy below => ?_⟩
  obtain ⟨b, tgt, d, hs, driven, sampled⟩ := sample_spec s
  obtain ⟨rx, busy', flag, cycle, last, more⟩ := shiftBit_spec (s := { s with target := tgt, draws := d }) below b
  have position : s.xcnt.toNat < 16 := below.trans_le (fw_bits_le s.fw)
  refine ⟨b, _, (exec_bit_sampled busy hs).trans (congrArg _ cycle), rfl, setBit_getLsbD_inside position b, xcnt_succ below,
    last, fun h => ?_, fun output => ?_, sampled, rfl⟩
  · obtain ⟨kept, inFlight, sameFlag⟩ := more h
    exact ⟨kept, inFlight.trans busy, sameFlag⟩
  · obtain ⟨freeValue, kept, counted⟩ := driven output
    exact ⟨freeValue, counted, kept⟩

/-! ### The primitives -/

/-- A legal width is the width of its own number of bits (rule R166). -/
theorem ofBits_bits (w : FrameWidth) : FrameWidth.ofBits (BitVec.ofNat 32 w.bits).toNat = some w := by
  cases w <;> rfl

theorem setWidthBits_legal {n : Nat} {w : FrameWidth} (h : FrameWidth.ofBits n = some w) (s : State) :
    setWidthBits n s = setWidthTo w s := by rw [setWidthBits, h]

/-- A number of bits that is no width is fault BadWidth, with an exchange in flight too (rule R166; log entry 13). -/
theorem setWidthBits_illegal {n : Nat} (h : FrameWidth.ofBits n = none) (s : State) :
    setWidthBits n s = .fault .badWidth := by rw [setWidthBits, h]

/-- The width does not change under an exchange (rule R166). -/
theorem setWidthTo_busy {s : State} (busy : s.xbusy = true) (w : FrameWidth) : setWidthTo w s = .fault .busyAccess :=
  if_pos busy

/-- No exchange starts while one is in flight or its receive flag is pending (rule R167). -/
theorem transmit_not_idle {s : State} (h : ¬idle s) (v : Word32) : transmit v s = .fault .busyAccess := by
  refine if_pos ?_
  by_contra hn
  exact h (by simpa [idle] using hn)

/-- `ReadRX` without the receive flag, or while an exchange is in flight, is fault BusyAccess (rule R168; log entry 14). -/
theorem receive_not_ready {s : State} (h : ¬(s.irqp = true ∧ s.xbusy = false)) : receive s = .fault .busyAccess :=
  if_neg (by simpa using h)

/-- Bit `k` of a transmit value: the width lies inside the register, so only the width cuts the value off (rule R167). -/
theorem lowBits_width_getLsbD (w : FrameWidth) (v : Word32) (k : Nat) :
    (lowBits w.bits v).getLsbD k = (decide (k < w.bits) && v.getLsbD k) := by
  rw [lowBits_getLsbD]
  by_cases inside : k < w.bits
  · simp [inside, inside.trans_le (fw_bits_le w)]
  · simp [inside]

theorem exec_setFW (w : Word32) (s : State) : exec (.setFW w) s = returning .nothing (setWidthBits w.toNat s) := rfl

theorem exec_setFW_legal (w : FrameWidth) (s : State) :
    exec (.setFW (BitVec.ofNat 32 w.bits)) s = returning .nothing (setWidthTo w s) := by
  rw [exec_setFW, setWidthBits_legal (ofBits_bits w)]

theorem exec_writeTX (v : Word32) (s : State) : exec (.writeTX v) s = returning .nothing (transmit v s) := rfl

theorem exec_readRX (s : State) :
    exec .readRX s = andThen (receive s) fun x => .next { x.2 with ret := .rx x.1 } := rfl

/-- `SetPin` has no precondition: it runs during an exchange too (rule R169; log entry 14). -/
theorem exec_setPin (d : Pin) (s : State) : exec (.setPin d) s = .next { s with pin := d, ret := .nothing } := rfl

/-- Settles O49: legality of the operand, then the state of the marshaller, decide between the effect and the fault. -/
theorem marshallerCalls : Obligations.MarshallerCalls := by
  refine ⟨fun s w free => ?_, fun s w _ h5 h8 h12 h13 h16 => ?_, fun s w busy => ?_, fun s v quiet => ?_,
    fun s v notQuiet => ?_, fun s flag free => ?_, fun s noFlag => ?_, fun s d => exec_setPin d s⟩
  · rw [exec_setFW_legal, setWidthTo_free free, returning_next]
  · rw [exec_setFW, setWidthBits_illegal (ofBits_none h5 h8 h12 h13 h16), returning_fault]
  · rw [exec_setFW_legal, setWidthTo_busy busy, returning_fault]
  · obtain ⟨free, flagClear⟩ := quiet
    refine ⟨lowBits s.fw.bits v, ?_, lowBits_width_getLsbD s.fw v⟩
    rw [exec_writeTX, transmit_free free flagClear, returning_next]
  · rw [exec_writeTX, transmit_not_idle notQuiet, returning_fault]
  · rw [exec_readRX, receive_eq_next.2 ⟨flag, free, rfl⟩, andThen_next]
  · rw [exec_readRX, receive_not_ready (by simp [noFlag]), andThen_fault]

end Sys2Proof.Machine
end

section
/-!
Rejected host commands (rules R185, R186): a rejected body answers false on the state it was given, and so does the command around
it.
-/

namespace Sys2Proof.Machine

/-- A command whose body rejects answers false and changes nothing: the mask that the command sets for its body is restored
(rule R189). -/
theorem command_rejected {body : State → Res (Ret × State)} {s : State}
    (h : body { s with imask := true } = .next (.bool false, { s with imask := true })) :
    command body s = .next { s with ret := .bool false } :=
  command_eq_next.2 ⟨_, _, h, rfl⟩

/-- A start of a buffer that is not READY is rejected before it writes anything (rule R185). -/
theorem startBody_rejected {s : State} {i : BufIdx} {d : Dir} (hi : i.val < s.cfg.nbuf) (notReady : s.st i ≠ .ready) :
    startBody d i s = .next (.bool false, s) :=
  withBuffer_eq_next.2 ⟨hi, if_pos notReady⟩

/-- A cancel of a buffer that is not BUSY is rejected without a look at the queue (rule R186). -/
theorem cancelBody_notBusy {s : State} {i : BufIdx} (hi : i.val < s.cfg.nbuf) (notBusy : s.st i ≠ .busy) :
    cancelBody i s = .next (.bool false, s) :=
  withBuffer_eq_next.2 ⟨hi, if_pos notBusy⟩

/-- A cancel of the armed head is rejected in either lifecycle state: of a BUSY buffer by REMOVE, which does not delete the armed
head (rules R112, R186). -/
theorem cancelBody_armedHead {s : State} {i : BufIdx} (hi : i.val < s.cfg.nbuf) (head : s.q.head? = some i)
    (armed : s.armed = true) : cancelBody i s = .next (.bool false, s) := by
  by_cases busy : s.st i = .busy
  · have kept : removeBuffer i false s = .next (false, s) :=
      removeBuffer_eq_next.2 (.inr (.inl ⟨List.mem_of_head? head, isArmedHead_iff.2 ⟨head, armed⟩, rfl, rfl⟩))
    rw [cancelBody, withBuffer_named hi, if_neg (not_not.2 busy), kept, andThen_next]
    rfl
  · exact cancelBody_notBusy hi busy

/-- The command CANCEL runs its body with the interrupt masked (rules R93, R189). -/
theorem exec_cancel (i : BufIdx) (s : State) : exec (.cancel i) s = command (cancelBody i) s := rfl

/-- Settles O12: `command_rejected` reduces each command to its body, which rejects on the lifecycle state or on the armed
head. -/
theorem rejectedCommands : Obligations.RejectedCommands := by
  intro s i hi
  refine ⟨fun busy d => ?_, fun reason => ?_⟩
  · have notReady : s.st i ≠ .ready := by simp [busy]
    rw [startOf_exec]
    exact command_rejected (startBody_rejected hi notReady)
  · rw [exec_cancel]
    refine command_rejected ?_
    obtain ready | ⟨head, armed⟩ := reason
    · have notBusy : s.st i ≠ .busy := by simp [ready]
      exact cancelBody_notBusy hi notBusy
    · exact cancelBody_armedHead hi head armed

end Sys2Proof.Machine
end

section
/-!
The rows that are frames (rules R60, R72, R170): each row of `frameRow` is run as its exchange, in one form for all of them.
-/

namespace Sys2Proof.Machine

/-! ### Frame words and their bits -/

/-- A word in a wider register is the word below zeros. -/
theorem setWidth_eq_zero_append {n : Nat} (m : Nat) (v : BitVec n) : v.setWidth (m + n) = 0#m ++ v := by
  apply BitVec.eq_of_getLsbD_eq
  intro k hk
  rw [BitVec.getLsbD_setWidth, BitVec.getLsbD_append]
  by_cases low : k < n
  · simp [low, hk]
  · simp [low, BitVec.getLsbD_of_ge v k (by omega)]

/-- The acknowledge frame `daaat` in wire order (rule R65). -/
theorem wireBits_ackWord (t : Bool) (a : BitVec 3) (d : Bool) :
    wireBits (ackWord t a d) = [t, a.getLsbD 0, a.getLsbD 1, a.getLsbD 2, d] := by
  revert t a d; decide

/-- The third read frame `tpdddddd` in wire order (rule R67). -/
theorem wireBits_rd3Word (d : BitVec 6) (p t : Bool) : wireBits (rd3Word d p t) = wireBits d ++ [p, t] := by
  revert d p t; decide

/-- The third write frame `0pdddddd` as a transmit value (rule R69). -/
theorem setWidth_wd3Word (d : BitVec 6) (p : Bool) : (wd3Word d p).setWidth 16 = 0#9 ++ BitVec.ofBool p ++ d := by
  revert d p; decide

/-! ### The exchange of a row -/

/-- The exchange of a frame (rule R170; log entry 6): a frame of the host is the one in the transmit register, the bits of a frame
of the target come before what the target answers. -/
def runFrame (f : FrameRow) (s : State) : Res State :=
  match f.bits with
  | .host v => sendFrame f.phase f.width f.pin v s
  | .target b =>
    if frameStarts f.phase f.width f.pin s then .next (bitCycles f.width.bits { s with target := b ++ s.target })
    else .refused .frameNotInFlight

/-- Every row that is a frame is run as its exchange. -/
theorem exec_frameRow {i : Instr} {f : FrameRow} (row : frameRow i = some f) (s : State) : exec i s = runFrame f s := by
  cases i with
  | req8 | reqDpW | reqApW | reqDpR | reqApR =>
    cases row
    exact congrArg (sendFrame .request .w8 .output · s) (setWidth_eq_zero_append 8 _)
  | ack5 | ackOk | ackWait | ackFault =>
    cases row
    exact congrArg (fun b => runFrame ⟨.ack, .w5, .input, .target b⟩ s) (wireBits_ackWord _ _ _)
  | rd3 =>
    cases row
    exact congrArg (fun b => runFrame ⟨.readData3, .w8, .input, .target b⟩ s) (wireBits_rd3Word _ _ _)
  | wd1 =>
    cases row
    exact congrArg (sendFrame .writeData1 .w13 .output · s) (setWidth_eq_zero_append 3 _)
  | wd2 =>
    cases row
    exact congrArg (sendFrame .writeData2 .w13 .output · s) (setWidth_eq_zero_append 3 _)
  | wd3 =>
    cases row
    exact congrArg (sendFrame .writeData3 .w8 .output · s) (setWidth_wd3Word _ _)
  | ackTx5 | rd1 | rd2 | clk0w12 | clk0w13 | clk0w8 | rst16 =>
    cases row
    rfl
  | _ => cases row

/-- The place of a frame: its exchange is in flight, in its phase, width and pin direction, and at its first cycle. -/
theorem frameStarts_iff {p : Phase} {w : FrameWidth} {d : Pin} {s : State} :
    frameStarts p w d s = true ↔
      s.xbusy = true ∧ s.xcnt = 0#5 ∧ s.phase = p.code ∧ s.fw = w ∧ s.pin = d := by
  simp [frameStarts, and_assoc]

theorem frameDue.starts {p : Phase} {w : FrameWidth} {d : Pin} {s : State} (due : frameDue p w d s) :
    frameStarts p w d s = true := by
  obtain ⟨busy, count, -, phase, width, pin⟩ := due
  exact frameStarts_iff.2 ⟨busy, count, phase, width, pin⟩

/-- A frame of the host goes on as the bit cycles of its exchange, when it is the one in the transmit register. -/
theorem runFrame_host {f : FrameRow} {v : BitVec 16} {s : State} (bits : f.bits = .host v)
    (starts : frameStarts f.phase f.width f.pin s = true) (tx : s.txr = v) :
    runFrame f s = .next (bitCycles f.width.bits s) := by
  rw [runFrame, bits]
  exact if_pos (by rw [starts, tx, beq_self_eq_true]; rfl)

/-- A frame of the target goes on as the bit cycles of its exchange, with its bits to be answered next. -/
theorem runFrame_target {f : FrameRow} {b : List Bool} {s : State} (bits : f.bits = .target b)
    (starts : frameStarts f.phase f.width f.pin s = true) :
    runFrame f s = .next (bitCycles f.width.bits { s with target := b ++ s.target }) := by
  rw [runFrame, bits]
  exact if_pos starts

theorem runFrame_not_started {f : FrameRow} {s : State} (h : ¬frameStarts f.phase f.width f.pin s = true) :
    runFrame f s = .refused .frameNotInFlight := by
  obtain ⟨p, w, d, v | b⟩ := f
  · exact if_neg fun e => h (Bool.and_eq_true_iff.1 e).1
  · exact if_neg h

/-- A frame of the host that is not the one in the transmit register has no place (rule R72). -/
theorem runFrame_other_value {f : FrameRow} {v : BitVec 16} {s : State} (bits : f.bits = .host v) (other : s.txr ≠ v) :
    runFrame f s = .refused .frameNotInFlight := by
  rw [runFrame, bits]
  exact if_neg (by simp [other])

/-- A frame goes on in its place, as the bit cycles of the exchange in flight with some bits to be answered, or it is refused
(rules R72, R80); it never faults. -/
theorem runFrame_cases (f : FrameRow) (s : State) :
    (frameStarts f.phase f.width f.pin s = true ∧
      ∃ tgt, runFrame f s = .next (bitCycles f.width.bits { s with target := tgt })) ∨
    runFrame f s = .refused .frameNotInFlight := by
  by_cases starts : frameStarts f.phase f.width f.pin s = true
  · cases bits : f.bits with
    | host v =>
      by_cases tx : s.txr = v
      · exact .inl ⟨starts, s.target, runFrame_host bits starts tx⟩
      · exact .inr (runFrame_other_value bits tx)
    | target b => exact .inl ⟨starts, _, runFrame_target bits starts⟩
  · exact .inr (runFrame_not_started starts)

/-! ### Exchanges and bit cycles -/

/-- Before the last cycle of its exchange a bit cycle leaves the exchange in flight, one cycle further (rule R171). -/
theorem bitCycle_more {s : State} (more : s.xcnt.toNat + 1 < s.fw.bits) :
    (bitCycle s).xbusy = s.xbusy ∧ (bitCycle s).fw = s.fw ∧ (bitCycle s).xcnt.toNat = s.xcnt.toNat + 1 := by
  obtain ⟨b, tgt, d, hs, -, -⟩ := sample_spec s
  rw [bitCycle, hs, shiftBit_more (by exact more)]
  exact ⟨rfl, rfl, xcnt_succ (Nat.lt_of_succ_lt more)⟩

theorem exec_bit_busy {s : State} (busy : s.xbusy = true) : exec .bit s = .next (bitCycle s) := if_pos busy

/-- The steps of BIT that an exchange still has are its bit cycles (rule R170): each finds the exchange in flight. -/
theorem bitRun_eq_bitCycles (n : Nat) :
    ∀ {s : State}, s.xbusy = true → s.xcnt.toNat + n ≤ s.fw.bits → bitRun n s = .next (bitCycles n s) := by
  induction n with
  | zero => intro s _ _; rfl
  | succ n ih =>
    intro s busy room
    rw [bitRun, exec_bit_busy busy, andThen_next, bitCycles]
    obtain rfl | more := Nat.eq_zero_or_pos n
    · rfl
    · obtain ⟨busy', width, count⟩ := bitCycle_more (s := s) (by omega)
      exact ih (busy'.trans busy) (by rw [count, width]; omega)

/-- Settles O36: in its place a row of a frame runs the bit cycles of the whole exchange, and so do as many steps of BIT. -/
theorem frameIsItsBitCycles : Obligations.FrameIsItsBitCycles := by
  intro s i f row due
  obtain ⟨busy, count, -, -, width, -⟩ := id due
  have room : s.xcnt.toNat + f.width.bits ≤ s.fw.bits := by simp [count, width]
  rw [exec_frameRow row]
  constructor
  · intro v bits tx
    rw [runFrame_host bits due.starts tx, bitRun_eq_bitCycles _ busy room]
  · intro b bits
    rw [runFrame_target bits due.starts, bitRun_eq_bitCycles _ (by exact busy) (by exact room)]

/-- Settles O37: each of the six ways out of place makes the guard of the row's exchange false. -/
theorem frameOutOfPlaceRefused : Obligations.FrameOutOfPlaceRefused := by
  intro s i f row outOfPlace
  rw [exec_frameRow row]
  by_cases starts : frameStarts f.phase f.width f.pin s = true
  · obtain ⟨busy, count, phase, width, pin⟩ := frameStarts_iff.1 starts
    obtain ⟨v, bits, other⟩ : ∃ v, f.bits = .host v ∧ s.txr ≠ v := by
      simpa [busy, count, phase, width, pin] using outOfPlace
    exact runFrame_other_value bits other
  · exact runFrame_not_started starts

end Sys2Proof.Machine
end

section
/-!
What a step can do. `AgentRow` sorts the operations that are steps of an agent (rule R5); `CallerMove` says what a step of Caller can
do when it goes on, `EntryMove` what an interrupt entry can do, `AgentMove` what a step of any agent can do. What every step keeps is
derived from these.
-/

namespace Sys2Proof.Machine

/-! ### The rows of the agents -/

/-- The operations that are steps of an agent, by the way they are run: commands and the header write of Caller, interrupt entries,
the bit cycle, frames. -/
inductive AgentRow : Instr → Prop
  | start (d : Dir) (i : BufIdx) : AgentRow (startOf d i)
  | cancel (i : BufIdx) : AgentRow (.cancel i)
  | reset : AgentRow .reset
  | entry (e : Entry) (d : Bool) : AgentRow (e.instr d)
  | irqEntry : AgentRow .irqEntry
  | bit : AgentRow .bit
  | header (i : BufIdx) (h : Word32) : AgentRow (.h32 i h)
  | frame {i : Instr} {f : FrameRow} (row : frameRow i = some f) : AgentRow i

theorem agentRow_of_isAgentStep : ∀ {i : Instr}, isAgentStep i = true → AgentRow i
  | .startW i, _ => .start .write i
  | .startR i, _ => .start .read i
  | .cancel i, _ => .cancel i
  | .reset, _ => .reset
  | .irqRequest d, _ => .entry .request d
  | .irqAckR, _ => .entry .ackR true
  | .irqAckW, _ => .entry .ackW false
  | .irqWriteData1 d, _ => .entry .writeData1 d
  | .irqWriteData2 d, _ => .entry .writeData2 d
  | .irqWriteData3 d, _ => .entry .writeData3 d
  | .irqReadData1 d, _ => .entry .readData1 d
  | .irqReadData2 d, _ => .entry .readData2 d
  | .irqReadData3 d, _ => .entry .readData3 d
  | .irqReset d, _ => .entry .reset d
  | .irqEntry, _ => .irqEntry
  | .bit, _ => .bit
  | .req8 _ _ _ _, _ | .reqDpW _ _, _ | .reqApW _ _, _ | .reqDpR _ _, _ | .reqApR _ _, _
  | .ackTx5, _ | .ack5 _ _ _, _ | .ackOk _ _, _ | .ackWait _ _, _ | .ackFault _ _, _
  | .rd1 _, _ | .rd2 _, _ | .rd3 _ _ _, _ | .clk0w12, _ | .clk0w13, _ | .clk0w8, _
  | .wd1 _, _ | .wd2 _, _ | .wd3 _ _, _ | .rst16, _ => .frame rfl
  | .h32 i h, _ => .header i h

theorem exec_irqEntry (s : State) : exec .irqEntry s = irqEntryStep s := rfl

theorem exec_h32 {i : BufIdx} {s : State} (hi : i.val < s.cfg.nbuf) (h : Word32) :
    exec (.h32 i h) s =
      if s.st i ≠ .ready then .refused .busyBuffer else returning .nothing (memWrite (hdrAddr s.cfg i) h s) :=
  withBuffer_named hi _

/-- The header write of a READY buffer lies inside buffer memory, so it goes on (rules R43, R52). -/
theorem exec_h32_ready {i : BufIdx} {s : State} (hi : i.val < s.cfg.nbuf) (ready : s.st i = .ready) (h : Word32) :
    exec (.h32 i h) s = .next { s with mem := s.mem.writeWord (hdrAddr s.cfg i) h, ret := .nothing } := by
  rw [exec_h32 hi, if_neg (by simp [ready]), memWrite_inside (hdr_inside hi), returning_next]

theorem exec_h32_busy {i : BufIdx} {s : State} (hi : i.val < s.cfg.nbuf) (busy : s.st i = .busy) (h : Word32) :
    exec (.h32 i h) s = .refused .busyBuffer := by
  rw [exec_h32 hi, if_pos (by simp [busy])]

theorem exec_bit_eq_next {s t : State} : exec .bit s = .next t ↔ s.xbusy = true ∧ t = bitCycle s := by
  cases busy : s.xbusy
  · simp [exec_bit_free busy]
  · simp [exec_bit_busy busy, eq_comm]

/-! ### Interrupt entries -/

/-- The successors of a phase inside a transfer (rule R137). -/
inductive Continues : Phase → Phase → Prop
  | request : Continues .request .ack
  | ackRead : Continues .ack .readData1
  | ackWrite : Continues .ack .writeData1
  | readData1 : Continues .readData1 .readData2
  | readData2 : Continues .readData2 .readData3
  | writeData1 : Continues .writeData1 .writeData2
  | writeData2 : Continues .writeData2 .writeData3

/-- What an interrupt entry can do when it goes on, from the state in which it was taken. -/
inductive EntryMove (s : State) : State → Prop
  /-- inside a transfer: the next exchange is started, in the next phase (rules R127 to R131, R133, R134) -/
  | onward (p p' : Phase) (v : BitVec 16) (acc : Word32) (ackr : BitVec 3) (pin : Pin) (fw : FrameWidth)
      (phase : s.phase = p.code) (follows : Continues p p') :
      EntryMove s (exchangeStarted v
        { s with irqp := false, acc := acc, ackr := ackr, pin := pin, fw := fw, phase := p'.code })
  /-- at its end: the head is finished and what is due is started (rules R132, R135, R136) -/
  | finished (p : Phase) (h : BufIdx) (rest : List BufIdx) (acc : Word32) (rpar : Bool) (m : Memory)
      (phase : s.phase = p.code) (terminal : p = .readData3 ∨ p = .writeData3) (queue : s.q = h :: rest)
      (armed : s.armed = true) (stores : m = s.mem ∨ p = .readData3 ∧ m = s.mem.writeWord (payAddr s.cfg h) acc) :
      EntryMove s (nextStarted rest (headFinished h rest { s with irqp := false, acc := acc, rpar := rpar, mem := m }))
  /-- in a line reset: another word (rule R153) -/
  | resetWord (v : BitVec 16) (phase : s.phase = Phase.reset.code) (more : s.rcnt ≠ 1#2) :
      EntryMove s (exchangeStarted v { s with irqp := false, rcnt := s.rcnt - 1#2 })
  /-- the end of a line reset with an empty queue (rule R153) -/
  | resetEnded (phase : s.phase = Phase.reset.code) (empty : s.q = []) :
      EntryMove s (lineResetEnded { s with irqp := false })
  /-- the end of a line reset with the head armed (rules R114, R153) -/
  | resetEndedArmed (h : BufIdx) (rest : List BufIdx) (phase : s.phase = Phase.reset.code) (queue : s.q = h :: rest) :
      EntryMove s (armedWith h (lineResetEnded { s with irqp := false }))

/-- A terminal entry, which finishes the head of a state that differs in what the entry has read and stored. -/
theorem EntryMove.of_finish {s t : State} {p : Phase} {acc : Word32} {rpar : Bool} {m : Memory}
    (phase : s.phase = p.code) (terminal : p = .readData3 ∨ p = .writeData3)
    (stores : ∀ h, s.q.head? = some h → m = s.mem ∨ p = .readData3 ∧ m = s.mem.writeWord (payAddr s.cfg h) acc)
    (ht : finishTransfer { s with irqp := false, acc := acc, rpar := rpar, mem := m } = .next t) : EntryMove s t := by
  obtain ⟨h, rest, queue, armed, rfl, -⟩ := finishTransfer_cases ht
  have head : s.q.head? = some h := List.head?_eq_some_iff.2 ⟨rest, queue⟩
  exact .finished p h rest acc rpar m phase terminal queue armed (stores h head)

/-- Every entry that goes on is one of these moves. -/
theorem entryMove_of_runEntry {e : Entry} {s t : State} (h : runEntry e s = .next t) : EntryMove s t := by
  obtain ⟨key, -, -, -, body⟩ := runEntry_eq_next.1 h
  have phase := ofKey_selects key
  cases e with
  | request =>
    obtain ⟨-, -, rfl⟩ := entryRequest_eq_next.1 body
    exact .onward .request .ack _ _ _ _ _ phase .request
  | ackR =>
    obtain ⟨-, -, rfl⟩ := entryAckR_eq_next.1 body
    exact .onward .ack .readData1 _ _ _ _ _ phase.1 .ackRead
  | ackW =>
    obtain ⟨_, -, -, -, -, rfl⟩ := entryAckW_eq_next.1 body
    exact .onward .ack .writeData1 _ _ _ _ _ phase.1 .ackWrite
  | writeData1 =>
    obtain ⟨-, -, rfl⟩ := entryWriteData1_eq_next.1 body
    exact .onward .writeData1 .writeData2 _ _ _ _ _ phase .writeData1
  | writeData2 =>
    obtain ⟨-, -, rfl⟩ := entryWriteData2_eq_next.1 body
    exact .onward .writeData2 .writeData3 _ _ _ _ _ phase .writeData2
  | readData1 =>
    obtain ⟨-, -, rfl⟩ := entryReadData1_eq_next.1 body
    exact .onward .readData1 .readData2 _ _ _ _ _ phase .readData1
  | readData2 =>
    obtain ⟨-, -, rfl⟩ := entryReadData2_eq_next.1 body
    exact .onward .readData2 .readData3 _ _ _ _ _ phase .readData2
  | writeData3 => exact .of_finish phase (.inr rfl) (fun _ _ => .inl rfl) body
  | readData3 =>
    change entryReadData3 _ _ = _ at body
    cases queue : s.q with
    | nil => simp [entryReadData3, queue] at body
    | cons x rest =>
      rw [entryReadData3_head (h := x) (by simp [queue])] at body
      split at body
      · refine .of_finish phase (.inl rfl) (fun y head => .inr ⟨rfl, ?_⟩) body
        obtain rfl : x = y := by simpa [queue] using head
        rfl
      · cases body
  | reset =>
    obtain ⟨more, -, -, rfl⟩ | ⟨-, -, empty, rfl⟩ | ⟨x, rest, -, -, queue, -, -, rfl⟩ := entryReset_cases body
    · exact .resetWord _ phase more
    · exact .resetEnded phase empty
    · exact .resetEndedArmed x rest phase queue

/-! ### Steps of Caller -/

/-- What a step of Caller can do when it goes on. -/
inductive CallerMove (s : State) : State → Prop
  /-- a query, a read, or a command that is rejected or a no-op: only the answer is new -/
  | answered (r : Ret) : CallerMove s { s with ret := r }
  /-- a byte of a READY buffer is written (rule R52) -/
  | byteWritten (a : Nat) (b : Byte) (ready : s.st (ownerIdx s.cfg a) = .ready) (inside : a < s.cfg.memSize) :
      CallerMove s { s with mem := s.mem.write a b, ret := .nothing }
  /-- the header of a READY buffer is written (rules R20, R52) -/
  | headerWritten (i : BufIdx) (h : Word32) (ready : s.st i = .ready) :
      CallerMove s { s with mem := s.mem.writeWord (hdrAddr s.cfg i) h, ret := .nothing }
  /-- a start that arms nothing (rules R91, R92) -/
  | queued (d : Dir) (i : BufIdx) (named : i.val < s.cfg.nbuf) (new : i ∉ s.q) (behind : s.q ≠ [] ∨ s.prst = true) :
      CallerMove s { queuedWith d i s with ret := .bool true }
  /-- a start on an empty queue (rules R91, R92, R94) -/
  | started (d : Dir) (i : BufIdx) (named : i.val < s.cfg.nbuf) (empty : s.q = []) (noReset : s.prst = false) :
      CallerMove s { armedWith i (queuedWith d i s) with ret := .bool true }
  /-- a successful cancel (rule R93) -/
  | cancelled (i : BufIdx) (queued : i ∈ s.q) (other : ¬(s.q.head? = some i ∧ s.armed = true)) :
      CallerMove s { s.setSt i .ready with q := s.q.erase i, evt := s.evt ++ [.cancelled i], ret := .bool true }
  /-- a line reset behind the head (rule R151) -/
  | resetDeferred (noReset : s.prst = false) (busy : s.q ≠ []) : CallerMove s { s with prst := true, ret := .nothing }
  /-- a line reset on an empty queue (rules R151, R152) -/
  | resetStarted (noReset : s.prst = false) (empty : s.q = []) :
      CallerMove s { lineResetStarted { s with prst := true } with ret := .nothing }

theorem CallerMove.of_start {s t : State} {d : Dir} {i : BufIdx} (h : command (startBody d i) s = .next t) :
    CallerMove s t := by
  obtain ⟨r, u, body, rfl⟩ := command_eq_next.1 h
  obtain ⟨named, ⟨-, rfl, rfl⟩ | ⟨-, new, rfl, ⟨empty, noReset, -, rfl⟩ | ⟨behind, rfl⟩⟩⟩ := startBody_cases body
  · exact .answered _
  · exact .started d i named empty noReset
  · exact .queued d i named new behind

theorem CallerMove.of_cancel {s t : State} {i : BufIdx} (h : command (cancelBody i) s = .next t) : CallerMove s t := by
  obtain ⟨r, u, body, rfl⟩ := command_eq_next.1 h
  obtain ⟨-, ⟨rfl, rfl⟩ | ⟨-, queued, notArmedHead, rfl, rfl⟩⟩ := cancelBody_cases body
  · exact .answered _
  · have other : ¬(s.q.head? = some i ∧ s.armed = true) := fun h =>
      Bool.false_ne_true (notArmedHead.symm.trans (isArmedHead_iff.2 h))
    exact .cancelled i queued other

theorem CallerMove.of_reset {s t : State} (h : command resetBody s = .next t) : CallerMove s t := by
  obtain ⟨r, u, body, rfl⟩ := command_eq_next.1 h
  obtain ⟨rfl, ⟨-, rfl⟩ | ⟨noReset, busy, rfl⟩ | ⟨noReset, empty, -, rfl⟩⟩ := resetBody_cases body
  · exact .answered _
  · exact .resetDeferred noReset busy
  · exact .resetStarted noReset empty

theorem CallerMove.of_header {s t : State} {i : BufIdx} {h : Word32} (ht : exec (.h32 i h) s = .next t) :
    CallerMove s t := by
  obtain ⟨named, -⟩ := withBuffer_eq_next.1 ht
  cases ready : s.st i with
  | ready =>
    rw [exec_h32_ready named ready] at ht
    cases ht
    exact .headerWritten i h ready
  | busy =>
    rw [exec_h32_busy named ready] at ht
    cases ht

/-! ### Steps of agents -/

/-- What a step of an agent can do when it goes on. -/
inductive AgentMove (s : State) : State → Prop
  /-- a step of Caller -/
  | caller {t : State} (move : CallerMove s t) : AgentMove s t
  /-- an interrupt entry (rule R125) -/
  | entry (e : Entry) {t : State} (runs : runEntry e s = .next t) : AgentMove s t
  /-- a bit cycle (rule R171) -/
  | bit (busy : s.xbusy = true) : AgentMove s (bitCycle s)
  /-- the whole exchange in flight, as a frame (rule R170) -/
  | frame (f : FrameRow) (tgt : List Bool) (starts : frameStarts f.phase f.width f.pin s = true) :
      AgentMove s (bitCycles f.width.bits { s with target := tgt })

theorem AgentMove.of_exec {i : Instr} {s t : State} (row : AgentRow i) (h : exec i s = .next t) : AgentMove s t := by
  cases row with
  | start d i => exact .caller (.of_start (startOf_exec d i s ▸ h))
  | cancel i => exact .caller (.of_cancel h)
  | reset => exact .caller (.of_reset h)
  | entry e d => exact .entry e (exec_entryInstr e d s ▸ h)
  | irqEntry =>
    obtain ⟨e, runs⟩ := irqEntryStep_eq_next h
    exact .entry e runs
  | bit =>
    obtain ⟨busy, rfl⟩ := exec_bit_eq_next.1 h
    exact .bit busy
  | header i h' => exact .caller (.of_header h)
  | @frame i f row =>
    rw [exec_frameRow row] at h
    obtain ⟨starts, tgt, next⟩ | refused := runFrame_cases f s
    · rw [next] at h
      cases h
      exact .frame f tgt starts
    · rw [refused] at h
      cases h

theorem runSlot_decoded {w : Slot} {i : Instr} (h : decode w = .ok i) (s : State) : runSlot w s = exec i s := by
  rw [runSlot, h]

/-- Bits that are no operation are refused under the decoder's reason (rules R78, R80). -/
theorem runSlot_undecodable {w : Slot} {e : DecodeError} (h : decode w = .error e) (s : State) :
    runSlot w s = .refused (.undecodable e) := by
  rw [runSlot, h]

theorem agentRow_of_isAgentInput {w : Slot} {i : Instr} (decoded : decode w = .ok i)
    (agent : isAgentInput (.op w) = true) : AgentRow i := by
  rw [isAgentInput, decoded] at agent
  exact agentRow_of_isAgentStep agent

theorem callerAccess_eq_next {a : Nat} {s t : State} {k : Res State} :
    callerAccess a s k = .next t ↔ a < s.cfg.memSize ∧ s.st (ownerIdx s.cfg a) = .ready ∧ k = .next t := by
  unfold callerAccess
  by_cases inside : a < s.cfg.memSize <;> by_cases ready : s.st (ownerIdx s.cfg a) = .ready <;> simp [inside, ready]

theorem AgentMove.of_runInput {x : Input} {s t : State} (agent : isAgentInput x = true) (h : runInput x s = .next t) :
    AgentMove s t := by
  cases x with
  | op w =>
    change runSlot w s = .next t at h
    cases decoded : decode w with
    | ok i =>
      rw [runSlot_decoded decoded] at h
      exact .of_exec (agentRow_of_isAgentInput decoded agent) h
    | error e =>
      rw [runSlot_undecodable decoded] at h
      cases h
  | callerWrite a b =>
    obtain ⟨inside, ready, next⟩ := callerAccess_eq_next.1 h
    cases next
    exact .caller (.byteWritten a b ready inside)
  | callerRead a =>
    obtain ⟨-, -, next⟩ := callerAccess_eq_next.1 h
    cases next
    exact .caller (.answered _)
  | queryReady i =>
    obtain ⟨-, next⟩ := withBuffer_eq_next.1 h
    cases next
    exact .caller (.answered _)
  | queryResult i =>
    obtain ⟨-, next⟩ := withBuffer_eq_next.1 h
    cases next
    exact .caller (.answered _)
  | queryParity =>
    cases h
    exact .caller (.answered _)

theorem AgentMove.of_hardwareStep {s t : State} (h : hardwareStep s = .next t) : AgentMove s t := by
  unfold hardwareStep at h
  split at h
  · exact .of_exec .irqEntry h
  · split at h
    · exact .of_exec .bit h
    · cases h

/-- A step of an agent that goes on is one of these moves, at the state without the entry of the script that it runs. -/
theorem AgentMove.of_step {s t : State} (agent : agentNext s) (h : step s = .next t) :
    AgentMove { s with script := s.script.tail } t := by
  unfold step at h
  cases script : s.script with
  | nil =>
    rw [script] at h
    have same : { s with script := [] } = s := by rw [← script]
    rw [List.tail_nil, same]
    exact .of_hardwareStep h
  | cons x rest =>
    rw [script] at h
    exact .of_runInput (agent x (by rw [script]; rfl)) h

end Sys2Proof.Machine
end

section
/-!
The invariants of rule R35: they hold after block reset, every step of an agent keeps them, and what they say of an idle block.
-/

namespace Sys2Proof.Machine

/-! ### Every step keeps the invariants -/

theorem Inv.withRet {s : State} (hI : Inv s) (r : Ret) : Inv { s with ret := r } :=
  hI.env s.script s.target s.draws r

theorem Inv.withTarget {s : State} (hI : Inv s) (tgt : List Bool) : Inv { s with target := tgt } :=
  hI.env s.script tgt s.draws s.ret

theorem Inv.withScript {s : State} (hI : Inv s) (sc : List Input) : Inv { s with script := sc } :=
  hI.env sc s.target s.draws s.ret

/-- A READY buffer is not queued (rule R35 item 6). -/
theorem Inv.not_queued_of_ready {s : State} (hI : Inv s) {i : BufIdx} (ready : s.st i = .ready) : i ∉ s.q := by
  intro queued
  have busy : s.st i = .busy := (hI.busyIffQueued i).2 queued
  rw [ready] at busy
  cases busy

/-- An address inside buffer memory lies in a buffer of the machine (rules R41, R43). -/
theorem ownerIdx_val {c : Params} {a : Nat} (inside : a < c.memSize) : (ownerIdx c a).val = ownerOf c a := by
  have owner : ownerOf c a < c.nbuf := Nat.div_lt_of_lt_mul (by rwa [Nat.mul_comm])
  have few : c.nbuf ≤ 64 := c.nbufPred.isLt
  exact Nat.mod_eq_of_lt (owner.trans_le few)

/-- A byte of a READY buffer lies in no header of a queued buffer (rules R43, R52). -/
theorem Inv.byteWritten {s : State} (hI : Inv s) {a : Nat} (ready : s.st (ownerIdx s.cfg a) = .ready)
    (inside : a < s.cfg.memSize) (b : Byte) : Inv { s with mem := s.mem.write a b } := by
  refine hI.written (write_wf hI.memCanonical a b) fun i queued => ?_
  have other : ownerOf s.cfg a ≠ i.val := by
    intro same
    have owner : ownerIdx s.cfg a = i := Fin.ext ((ownerIdx_val inside).trans same)
    exact hI.not_queued_of_ready (owner ▸ ready) queued
  exact readWord_write_disjoint hI.memCanonical b (hdr_byte_apart s.cfg other)

/-- The header of a READY buffer is no header of a queued buffer (rule R52). -/
theorem Inv.headerWritten {s : State} (hI : Inv s) {i : BufIdx} (ready : s.st i = .ready) (h : Word32) :
    Inv { s with mem := s.mem.writeWord (hdrAddr s.cfg i) h } := by
  refine hI.written (writeWord_wf hI.memCanonical _ h) fun j queued => ?_
  have other : i ≠ j := fun same => hI.not_queued_of_ready ready (same ▸ queued)
  exact readWord_writeWord_disjoint hI.memCanonical h (hdr_apart s.cfg other)

/-- A start on an empty queue with no line reset pending finds the block at rest, so it arms (rules R34, R94). -/
theorem Inv.started {s : State} (hI : Inv s) {d : Dir} {i : BufIdx} (named : i.val < s.cfg.nbuf) (empty : s.q = [])
    (noReset : s.prst = false) : Inv (armedWith i (queuedWith d i s)) := by
  have new : i ∉ s.q := by simp [empty]
  have head : (queuedWith d i s).q.head? = some i := by
    change (s.q ++ [i]).head? = some i
    rw [empty]; rfl
  exact ((hI.atRest empty noReset).queued named new).armed head

/-- The state at rest is not about the flag of a pending line reset. -/
theorem AtRest.withReset {s : State} (hr : AtRest s) : AtRest { s with prst := true } :=
  { hr with busyIffQueued := hr.busyIffQueued, opIsHeader := hr.opIsHeader }

theorem CallerMove.inv {s t : State} (hI : Inv s) (move : CallerMove s t) : Inv t := by
  cases move with
  | answered r => exact hI.withRet r
  | byteWritten a b ready inside => exact (hI.byteWritten ready inside b).withRet _
  | headerWritten i h ready => exact (hI.headerWritten ready h).withRet _
  | queued d i named new behind => exact (hI.queued named new behind).withRet _
  | started d i named empty noReset => exact (hI.started named empty noReset).withRet _
  | cancelled i queued other => exact (hI.cancelled queued other).withRet _
  | resetDeferred noReset busy => exact (hI.deferred noReset busy).withRet _
  | resetStarted noReset empty => exact ((hI.atRest empty noReset).withReset.lineReset rfl).withRet _

theorem AgentMove.inv {s t : State} (hI : Inv s) (move : AgentMove s t) : Inv t := by
  cases move with
  | caller move => exact move.inv hI
  | entry e runs => exact hI.runEntry runs
  | bit busy => exact hI.bitCycle busy
  | frame f tgt starts => exact (hI.withTarget tgt).frame starts

/-- Settles O53: each move of an agent keeps the invariants, which do not speak of the script. -/
theorem invariantKept : Obligations.InvariantKept :=
  fun s _ hI agent next => AgentMove.inv (hI.withScript s.script.tail) (.of_step agent next)

/-! ### Block reset -/

theorem atRest_resetWith (c : Params) : AtRest (State.resetWith c) where
  unarmed := rfl
  phase := rfl
  width := rfl
  noExchange := rfl
  noFlag := rfl
  busyIffQueued i := by
    rw [resetWith_st]
    exact iff_of_false (by simp) List.not_mem_nil
  queueNodup := List.nodup_nil
  queueNamesBuffers _ queued := absurd queued List.not_mem_nil
  opIsHeader _ queued := absurd queued List.not_mem_nil
  unmasked := rfl
  memCanonical := wf_nil

/-- Settles O52: after block reset the block is at rest, with nothing queued or pending. -/
theorem resetMeetsInvariants : Obligations.ResetMeetsInvariants :=
  fun c => (atRest_resetWith c).idle rfl rfl rfl

/-- Settles O51: every value but the lifecycle states stands in the definition of the reset state. -/
theorem resetState : Obligations.ResetState := by
  intro c
  exact ⟨rfl, rfl, rfl, rfl, rfl, resetWith_st c, rfl, rfl, rfl, rfl, rfl, rfl, rfl, rfl, ⟨rfl, rfl⟩, rfl⟩

/-! ### The idle block -/

/-- An idle block has no transfer armed and runs no line reset (rule R35 item 5). -/
theorem Inv.idle_inactive {s : State} (hI : Inv s) (quiet : idle s) :
    ¬(s.armed = true ∨ s.phase = Phase.reset.code) := by
  obtain ⟨free, noFlag⟩ := quiet
  rw [← hI.activeIff, free, noFlag]
  simp

/-- An idle block has nothing queued and no line reset pending (rule R35 items 4, 5, 10). -/
theorem Inv.idle_empty {s : State} (hI : Inv s) (quiet : idle s) : s.q = [] ∧ s.prst = false := by
  have inactive := hI.idle_inactive quiet
  have noReset : s.prst = false := Bool.eq_false_iff.2 fun pending => inactive (hI.pendingReset pending).symm
  refine ⟨?_, noReset⟩
  by_contra queued
  exact inactive (.inl (hI.headIsArmed queued noReset))

/-- Settles O55: an empty queue without a pending line reset is the state at rest, whose pin is an input since nothing is armed. -/
theorem idleBlockAtRest : Obligations.IdleBlockAtRest := by
  intro s hI quiet
  obtain ⟨empty, noReset⟩ := hI.idle_empty quiet
  have hr := hI.atRest empty noReset
  have input : s.pin = .input := by
    cases pin : s.pin with
    | input => rfl
    | output =>
      have drives := (hI.at hr.phase).pinOutIff.1 pin
      simp [hr.unarmed, isWritePhase] at drives
  exact ⟨hr.unarmed, hr.phase, noReset, empty, hr.width, input⟩

end Sys2Proof.Machine
end

section
/-!
Host commands that are accepted (rules R91 to R93), that name no buffer (rule R78), and what no step of Caller writes (rule R36).
-/

namespace Sys2Proof.Machine

/-! ### Accepted commands -/

/-- A start on an empty queue with no line reset pending arms, when the block is ready for it (rules R91, R92, R94). -/
theorem startBody_arms {s : State} {i : BufIdx} {d : Dir} (named : i.val < s.cfg.nbuf) (ready : s.st i = .ready)
    (empty : s.q = []) (noReset : s.prst = false) (armReady : armReady i (queuedWith d i s) = true) :
    startBody d i s = .next (.bool true, armedWith i (queuedWith d i s)) := by
  have new : i ∉ s.q := by simp [empty]
  rw [startBody_accepted named ready new, if_pos (by simp [empty, noReset]), armBuffer_ready armReady (by exact named),
    andThen_next]

/-- A start behind other buffers or during a line reset arms nothing (rules R91, R92). -/
theorem startBody_queues {s : State} {i : BufIdx} {d : Dir} (named : i.val < s.cfg.nbuf) (ready : s.st i = .ready)
    (new : i ∉ s.q) (behind : s.q ≠ [] ∨ s.prst = true) :
    startBody d i s = .next (.bool true, queuedWith d i s) := by
  rw [startBody_accepted named ready new, if_neg]
  simpa [imp_iff_not_or] using behind

/-- Settles O10: on an idle block the state that the start leaves meets the precondition of ARM for the new head. -/
theorem startArmsOnIdleBlock : Obligations.StartArmsOnIdleBlock := by
  intro s i d named ready empty noReset unarmed phase width quiet
  have head : (queuedWith d i s).q.head? = some i := by
    change (s.q ++ [i]).head? = some i
    rw [empty, List.nil_append, List.head?_cons]
  have armReady : armReady i (queuedWith d i { s with imask := true }) = true :=
    armReady_iff.2 ⟨head, unarmed, noReset, phase, width, quiet⟩
  rw [startOf_exec]
  exact command_eq_next.2 ⟨_, _, startBody_arms named ready empty noReset armReady, rfl⟩

/-- Settles O11: the queue or the pending line reset keeps the start from arming. -/
theorem startQueuesWithoutArming : Obligations.StartQueuesWithoutArming := by
  intro s i d named ready new behind
  rw [startOf_exec]
  exact command_eq_next.2 ⟨_, _, startBody_queues (by exact named) ready new behind, rfl⟩

/-- A cancel of a BUSY queued buffer that is not the armed head removes it (rules R93, R112). -/
theorem cancelBody_removes {s : State} {i : BufIdx} (named : i.val < s.cfg.nbuf) (busy : s.st i = .busy)
    (queued : i ∈ s.q) (other : ¬(s.q.head? = some i ∧ s.armed = true)) :
    cancelBody i s =
      .next (.bool true, { s.setSt i .ready with q := s.q.erase i, evt := s.evt ++ [.cancelled i] }) := by
  have notArmedHead : isArmedHead i s = false := Bool.eq_false_iff.2 (mt isArmedHead_iff.1 other)
  rw [cancelBody, withBuffer_named named, if_neg (not_not.2 busy),
    removeBuffer_eq_next.2 (.inr (.inr ⟨queued, notArmedHead, rfl⟩)), andThen_next]
  rfl

/-- Settles O14: REMOVE deletes the buffer, and the mask ends as it was. -/
theorem cancelOfUnarmedBuffer : Obligations.CancelOfUnarmedBuffer := by
  intro s i named busy queued other
  rw [exec_cancel]
  exact command_eq_next.2 ⟨_, _, cancelBody_removes named busy queued other, rfl⟩

/-! ### An index that names no buffer -/

theorem withBuffer_unnamed {α : Type} {i : BufIdx} {s : State} (h : s.cfg.nbuf ≤ i.val) (k : Res α) :
    withBuffer i s k = .refused .noSuchBuffer :=
  if_neg (by simpa [isBuffer] using h)

/-- A command whose body is refused is refused. -/
theorem command_refused {body : State → Res (Ret × State)} {s : State} {r : Refusal}
    (h : body { s with imask := true } = .refused r) : command body s = .refused r := by
  rw [command, h, andThen_refused]

/-- Settles O16: the bodies look at the index before anything else. -/
theorem indexWithoutBufferRefused : Obligations.IndexWithoutBufferRefused := by
  intro s i unnamed
  refine ⟨fun d => ?_, ?_⟩
  · rw [startOf_exec]
    exact command_refused (withBuffer_unnamed unnamed _)
  · rw [exec_cancel]
    exact command_refused (withBuffer_unnamed unnamed _)

/-! ### What a start writes to buffer memory -/

/-- Header bit 1 is the direction, the other bits stay (rule R73, corner case d of START). -/
theorem hdrWithDir_getLsbD (h : Word32) (d : Dir) (k : Nat) :
    (hdrWithDir h d).getLsbD k = if k = 1 then d.bit else h.getLsbD k := by
  have set : 0x00000002#32 = BitVec.twoPow 32 1 := by decide
  have clear : 0xFFFFFFFD#32 = ~~~BitVec.twoPow 32 1 := by decide
  by_cases inside : k < 32
  · by_cases bit : k = 1
    · cases d <;> simp [hdrWithDir, set, clear, bit, Dir.bit]
    · cases d <;> simp [hdrWithDir, set, clear, bit, inside]
  · rw [BitVec.getLsbD_of_ge _ _ (by omega), BitVec.getLsbD_of_ge _ _ (by omega), if_neg (by omega)]

/-- A start that returned true has queued the buffer, and it writes no memory besides: arming reads the header only. -/
theorem start_accepted_memory {s t : State} {i : BufIdx} {d : Dir} (h : exec (startOf d i) s = .next t)
    (accepted : t.ret = .bool true) : t.mem = (queuedWith d i s).mem ∧ t.cfg = s.cfg := by
  rw [startOf_exec] at h
  obtain ⟨r, u, body, rfl⟩ := command_eq_next.1 h
  obtain ⟨-, ⟨-, rfl, -⟩ | ⟨-, -, -, ⟨-, -, -, rfl⟩ | ⟨-, rfl⟩⟩⟩ := startBody_cases body
  · cases accepted
  · exact ⟨rfl, rfl⟩
  · exact ⟨rfl, rfl⟩

/-- Settles O13: the one store of an accepted start is the header word with bit 1 rewritten. -/
theorem startWritesOnlyHeaderBit : Obligations.StartWritesOnlyHeaderBit := by
  intro s t i d canonical next accepted
  obtain ⟨mem, cfg⟩ := start_accepted_memory next accepted
  have stored : header t i = hdrWithDir (header s i) d := by
    rw [header, mem, cfg]
    exact (queuedWith_header canonical i).trans (if_pos rfl)
  refine ⟨?_, fun k other => ?_, fun a outside => ?_⟩
  · rw [stored, hdrWithDir_getLsbD, if_pos rfl]
  · rw [stored, hdrWithDir_getLsbD, if_neg other]
  · rw [mem, queuedWith_mem]
    exact read_writeWord_outside canonical _ outside

/-! ### What no step of Caller writes -/

theorem CallerMove.of_exec {i : Instr} {s t : State} (caller : isCallerStep i = true) (next : exec i s = .next t) :
    CallerMove s t := by
  cases i with
  | startW | startR => exact .of_start next
  | cancel => exact .of_cancel next
  | reset => exact .of_reset next
  | h32 => exact .of_header next
  | _ => cases caller

theorem queuedWith_res (d : Dir) (i : BufIdx) (s : State) (j : BufIdx) : (queuedWith d i s).res j = s.res j :=
  (setSt_res (s.setOp i d) i j .busy).trans (setOp_res s i j d)

/-- Settles O17: read off each move of Caller; the one event is that of a cancel. -/
theorem callerStepsOwnership : Obligations.CallerStepsOwnership := by
  intro i s t caller next
  cases CallerMove.of_exec caller next with
  | queued d i =>
    exact ⟨rfl, rfl, rfl, rfl, rfl, rfl, rfl, queuedWith_res d i s, .inl rfl⟩
  | started d i =>
    exact ⟨rfl, rfl, rfl, rfl, rfl, rfl, rfl, queuedWith_res d i s, .inl rfl⟩
  | cancelled i =>
    exact ⟨rfl, rfl, rfl, rfl, rfl, rfl, rfl, fun j => setSt_res s i j .ready, .inr ⟨i, rfl⟩⟩
  | answered | byteWritten | headerWritten | resetDeferred | resetStarted =>
    exact ⟨rfl, rfl, rfl, rfl, rfl, rfl, rfl, fun _ => rfl, .inl rfl⟩

end Sys2Proof.Machine
end

section
/-!
Safety: a false guard is a refusal (rules R171, R190), under the invariants a due interrupt entry completes (rules R125, R194), and no
assertion of rule R188 fails in a step of an agent.
-/

namespace Sys2Proof.Machine

/-! ### False guards -/

/-- The interrupt is taken only with the flag set and the mask clear (rule R190). -/
theorem takeInterrupt_not_enabled {s : State} (h : s.irqp = false ∨ s.imask = true) :
    takeInterrupt s = .refused .notEnabled :=
  if_neg (by obtain noFlag | masked := h <;> simp [irqEnabled, *])

theorem runEntry_not_enabled {s : State} (h : s.irqp = false ∨ s.imask = true) (e : Entry) :
    runEntry e s = .refused .notEnabled := by
  rw [runEntry, takeInterrupt_not_enabled h, andThen_refused, ite_self]

theorem exec_irqEntry_not_enabled {s : State} (h : s.irqp = false ∨ s.imask = true) :
    exec .irqEntry s = .refused .notEnabled := by
  rw [exec_irqEntry, irqEntryStep, takeInterrupt_not_enabled h, andThen_refused]

/-- Settles O29: the guards are looked at first, and so is the width by SetFW; ReadRX asks for no exchange in flight. -/
theorem falseGuardRefused : Obligations.FalseGuardRefused := by
  intro s
  refine ⟨fun disabled e d => ⟨?_, exec_irqEntry_not_enabled disabled⟩, exec_bit_free, fun busy => ?_,
    fun _ w h5 h8 h12 h13 h16 => ?_⟩
  · rw [exec_entryInstr, runEntry_not_enabled disabled]
  · rw [exec_readRX, receive_not_ready (by simp [busy]), andThen_fault]
  · rw [exec_setFW, setWidthBits_illegal (ofBits_none h5 h8 h12 h13 h16), returning_fault]

/-! ### A due interrupt entry completes -/

/-- Under the invariants a set receive flag makes the entry of the phase due (rule R35 item 7, rule R30). -/
theorem Inv.entryDue {s : State} (hI : Inv s) (flag : s.irqp = true) {p : Phase} (phase : s.phase = p.code) :
    entryDue p s := by
  have free : s.xbusy = false := Bool.eq_false_iff.2 fun busy => by simp [hI.notBoth busy] at flag
  exact ⟨flag, hI.unmasked, free, phase⟩

/-- Inside a transfer there is an armed head, which names a buffer (rule R35 items 1 and 12). -/
theorem Inv.armedHead {s : State} (hI : Inv s) (armed : s.armed = true) :
    ∃ h rest, s.q = h :: rest ∧ h.val < s.cfg.nbuf ∧ ∀ n, rest.head? = some n → n.val < s.cfg.nbuf := by
  obtain ⟨h, rest, queue⟩ := List.exists_cons_of_ne_nil (hI.armedHasHead armed)
  have named : ∀ i ∈ h :: rest, i.val < s.cfg.nbuf := queue ▸ hI.queueNamesBuffers
  exact ⟨h, rest, queue, named h List.mem_cons_self,
    fun n next => named n (List.mem_cons_of_mem h (List.mem_of_head? next))⟩

/-- The entry of each phase has its outcome under the invariants (rules R127 to R136, R153). -/
theorem Inv.irqEntry_completes {s : State} (hI : Inv s) (flag : s.irqp = true) : ∃ t, exec .irqEntry s = .next t := by
  obtain ⟨p, phase⟩ := hI.phaseNamed
  have due := hI.entryDue flag phase
  have width := hI.widthMatches p phase
  have armedIn := hI.phaseArmed p phase
  obtain ⟨request, ackRead, ackWrite, writeData1, writeData2, writeData3, readData1, readData2, readData3, reset, -⟩ :=
    interruptDispatches s due.1 due.2.1 due.2.2.1
  cases p with
  | request => exact ⟨_, (request phase).trans (entryRequest_due s _ due)⟩
  | ack =>
    cases dir : s.dir with
    | read => exact ⟨_, (ackRead phase dir).trans (entryAckOfRead s due dir)⟩
    | write =>
      obtain ⟨h, rest, queue, named, -⟩ := hI.armedHead (armedIn (by decide) (by decide))
      exact ⟨_, (ackWrite phase dir).trans (entryAckOfWrite s h rest due dir queue named)⟩
  | writeData1 => exact ⟨_, (writeData1 phase).trans (entryWriteDataOneTwo.1 s _ due width)⟩
  | writeData2 => exact ⟨_, (writeData2 phase).trans (entryWriteDataOneTwo.2 s _ due)⟩
  | writeData3 =>
    have armed := armedIn (by decide) (by decide)
    obtain ⟨h, rest, queue, -, nextNamed⟩ := hI.armedHead armed
    exact ⟨_, (writeData3 phase).trans (entryWriteDataThree s _ h rest due queue armed width nextNamed)⟩
  | readData1 => exact ⟨_, (readData1 phase).trans (entryReadDataOneTwo.1 s _ due)⟩
  | readData2 => exact ⟨_, (readData2 phase).trans (entryReadDataOneTwo.2 s _ due)⟩
  | readData3 =>
    have armed := armedIn (by decide) (by decide)
    obtain ⟨h, rest, queue, named, nextNamed⟩ := hI.armedHead armed
    exact ⟨_, (readData3 phase).trans (entryReadDataThree s _ h rest due queue armed width named nextNamed)⟩
  | reset =>
    obtain ⟨more, endEmpty, endHead⟩ := entryLineReset s s.dir.bit due (hI.resetPhaseUnarmed phase).2
    by_cases last : s.rcnt = 1#2
    · cases queue : s.q with
      | nil => exact ⟨_, (reset phase).trans (endEmpty last queue)⟩
      | cons h rest =>
        have named := hI.queueNamesBuffers h (by simp [queue])
        exact ⟨_, (reset phase).trans (endHead h rest last queue named)⟩
    · exact ⟨_, (reset phase).trans (more last width)⟩

/-- What a terminal entry starts next, when the head has been finished (rule R136). -/
theorem nextStarted_cases (rest : List BufIdx) (s : State) :
    (s.prst = true ∧ nextStarted rest s = lineResetStarted s) ∨
    (s.prst = false ∧ rest = [] ∧ nextStarted rest s = s) ∨
    (∃ n l, s.prst = false ∧ rest = n :: l ∧ nextStarted rest s = armedWith n s) := by
  cases reset : s.prst with
  | true => exact .inl ⟨rfl, if_pos reset⟩
  | false =>
    have notReset : ¬s.prst = true := by simp [reset]
    cases rest with
    | nil => exact .inr (.inl ⟨rfl, rfl, if_neg notReset⟩)
    | cons n l => exact .inr (.inr ⟨n, l, rfl, rfl, if_neg notReset⟩)

/-- What a terminal entry starts next writes registers of the protocol and the marshaller, and nothing else (rules R94, R152). -/
theorem nextStarted_frame (rest : List BufIdx) (s : State) : ∃ phase dir rcnt armed fw txr rxsh xbusy xcnt pin,
    nextStarted rest s = { s with
      phase := phase, dir := dir, rcnt := rcnt, armed := armed, fw := fw, txr := txr, rxsh := rxsh, xbusy := xbusy,
      xcnt := xcnt, pin := pin } := by
  obtain ⟨-, e⟩ | ⟨-, -, e⟩ | ⟨n, l, -, -, e⟩ := nextStarted_cases rest s
  all_goals exact ⟨_, _, _, _, _, _, _, _, _, _, e⟩

section
variable (rest : List BufIdx) (s : State)

@[simp] theorem nextStarted_q : (nextStarted rest s).q = s.q := by
  obtain ⟨_, _, _, _, _, _, _, _, _, _, e⟩ := nextStarted_frame rest s; rw [e]

@[simp] theorem nextStarted_evt : (nextStarted rest s).evt = s.evt := by
  obtain ⟨_, _, _, _, _, _, _, _, _, _, e⟩ := nextStarted_frame rest s; rw [e]

@[simp] theorem nextStarted_irqp : (nextStarted rest s).irqp = s.irqp := by
  obtain ⟨_, _, _, _, _, _, _, _, _, _, e⟩ := nextStarted_frame rest s; rw [e]

@[simp] theorem nextStarted_wire : (nextStarted rest s).wire = s.wire := by
  obtain ⟨_, _, _, _, _, _, _, _, _, _, e⟩ := nextStarted_frame rest s; rw [e]

@[simp] theorem nextStarted_mem : (nextStarted rest s).mem = s.mem := by
  obtain ⟨_, _, _, _, _, _, _, _, _, _, e⟩ := nextStarted_frame rest s; rw [e]

@[simp] theorem nextStarted_cfg : (nextStarted rest s).cfg = s.cfg := by
  obtain ⟨_, _, _, _, _, _, _, _, _, _, e⟩ := nextStarted_frame rest s; rw [e]

@[simp] theorem nextStarted_imask : (nextStarted rest s).imask = s.imask := by
  obtain ⟨_, _, _, _, _, _, _, _, _, _, e⟩ := nextStarted_frame rest s; rw [e]

@[simp] theorem nextStarted_draws : (nextStarted rest s).draws = s.draws := by
  obtain ⟨_, _, _, _, _, _, _, _, _, _, e⟩ := nextStarted_frame rest s; rw [e]

@[simp] theorem nextStarted_script : (nextStarted rest s).script = s.script := by
  obtain ⟨_, _, _, _, _, _, _, _, _, _, e⟩ := nextStarted_frame rest s; rw [e]

@[simp] theorem nextStarted_acc : (nextStarted rest s).acc = s.acc := by
  obtain ⟨_, _, _, _, _, _, _, _, _, _, e⟩ := nextStarted_frame rest s; rw [e]

@[simp] theorem nextStarted_ackr : (nextStarted rest s).ackr = s.ackr := by
  obtain ⟨_, _, _, _, _, _, _, _, _, _, e⟩ := nextStarted_frame rest s; rw [e]

@[simp] theorem nextStarted_rpar : (nextStarted rest s).rpar = s.rpar := by
  obtain ⟨_, _, _, _, _, _, _, _, _, _, e⟩ := nextStarted_frame rest s; rw [e]

@[simp] theorem nextStarted_res (i : BufIdx) : (nextStarted rest s).res i = s.res i := by
  obtain ⟨_, _, _, _, _, _, _, _, _, _, e⟩ := nextStarted_frame rest s; rw [e]; rfl

end

/-- An entry that goes on clears the flag it was taken for, and no bit cycle happens in it (rules R168, R170). -/
theorem EntryMove.flag_cleared {s t : State} (move : EntryMove s t) : t.irqp = false ∧ t.wire = s.wire := by
  cases move with
  | finished => exact ⟨nextStarted_irqp _ _, nextStarted_wire _ _⟩
  | onward | resetWord | resetEnded | resetEndedArmed => exact ⟨rfl, rfl⟩

/-- Settles O28: the entry of the phase goes on, and each move of an entry clears the flag. -/
theorem dueInterruptCompletes : Obligations.DueInterruptCompletes := by
  intro s hI flag
  obtain ⟨t, next⟩ := hI.irqEntry_completes flag
  obtain ⟨e, runs⟩ := irqEntryStep_eq_next next
  exact ⟨t, next, (entryMove_of_runEntry runs).flag_cleared⟩

/-! ### No assertion fails -/

theorem ne_fault_of_next {α : Type} {x : Res α} {a : α} (h : x = .next a) (e : Fault) : x ≠ .fault e := by
  rw [h]; exact nofun

theorem ne_fault_of_refused {α : Type} {x : Res α} {r : Refusal} (h : x = .refused r) (e : Fault) : x ≠ .fault e := by
  rw [h]; exact nofun

/-- A start is refused, rejected or accepted (rules R78, R91, R92, R185). -/
theorem Inv.start_ne_fault {s : State} (hI : Inv s) (d : Dir) (i : BufIdx) (e : Fault) :
    exec (startOf d i) s ≠ .fault e := by
  by_cases named : i.val < s.cfg.nbuf
  · cases life : s.st i with
    | busy => exact ne_fault_of_next ((rejectedCommands s i named).1 life d) e
    | ready =>
      by_cases rest : s.q = [] ∧ s.prst = false
      · obtain ⟨empty, noReset⟩ := rest
        have hr := hI.atRest empty noReset
        exact ne_fault_of_next (startArmsOnIdleBlock s i d named life empty noReset hr.unarmed hr.phase hr.width
          ⟨hr.noExchange, hr.noFlag⟩) e
      · have behind : s.q ≠ [] ∨ s.prst = true := by simpa [imp_iff_not_or] using rest
        exact ne_fault_of_next (startQueuesWithoutArming s i d named life (hI.not_queued_of_ready life) behind) e
  · exact ne_fault_of_refused ((indexWithoutBufferRefused s i (Nat.le_of_not_lt named)).1 d) e

/-- A cancel is refused, rejected or accepted (rules R78, R93, R186). -/
theorem Inv.cancel_ne_fault {s : State} (hI : Inv s) (i : BufIdx) (e : Fault) : exec (.cancel i) s ≠ .fault e := by
  by_cases named : i.val < s.cfg.nbuf
  · by_cases rejected : s.st i = .ready ∨ (s.q.head? = some i ∧ s.armed = true)
    · exact ne_fault_of_next ((rejectedCommands s i named).2 rejected) e
    · obtain ⟨notReady, other⟩ := not_or.1 rejected
      have busy : s.st i = .busy := by
        cases life : s.st i with
        | ready => exact absurd life notReady
        | busy => rfl
      exact ne_fault_of_next (cancelOfUnarmedBuffer s i named busy ((hI.busyIffQueued i).1 busy) other) e
  · exact ne_fault_of_refused (indexWithoutBufferRefused s i (Nat.le_of_not_lt named)).2 e

/-- The command RESET starts the sequence only on a block at rest (rules R151, R152). -/
theorem Inv.reset_ne_fault {s : State} (hI : Inv s) (e : Fault) : exec .reset s ≠ .fault e := by
  obtain ⟨pending, deferred, started⟩ := resetCommand s
  cases reset : s.prst with
  | true => exact ne_fault_of_next (pending reset) e
  | false =>
    by_cases empty : s.q = []
    · have hr := hI.atRest empty reset
      exact ne_fault_of_next (started reset empty hr.unarmed hr.phase ⟨hr.noExchange, hr.noFlag⟩) e
    · exact ne_fault_of_next (deferred reset empty) e

theorem Inv.irqEntry_ne_fault {s : State} (hI : Inv s) (e : Fault) : exec .irqEntry s ≠ .fault e := by
  cases flag : s.irqp with
  | true =>
    obtain ⟨t, next⟩ := hI.irqEntry_completes flag
    exact ne_fault_of_next next e
  | false => exact ne_fault_of_refused (exec_irqEntry_not_enabled (.inl flag)) e

/-- A row of an entry is the interrupt entry when its key is pending, else it is refused (rule R74). -/
theorem Inv.entry_ne_fault {s : State} (hI : Inv s) (x : Entry) (d : Bool) (e : Fault) :
    exec (x.instr d) s ≠ .fault e := by
  by_cases pending : pendingEntry s = some x
  · rw [← exec_irqEntry_of_pendingEntry pending]
    exact hI.irqEntry_ne_fault e
  · rw [exec_entryInstr]
    exact ne_fault_of_refused (if_neg pending) e

theorem exec_bit_ne_fault (s : State) (e : Fault) : exec .bit s ≠ .fault e := by
  cases busy : s.xbusy with
  | true => exact ne_fault_of_next (exec_bit_busy busy) e
  | false => exact ne_fault_of_refused (exec_bit_free busy) e

theorem exec_h32_ne_fault (i : BufIdx) (h : Word32) (s : State) (e : Fault) : exec (.h32 i h) s ≠ .fault e := by
  by_cases named : i.val < s.cfg.nbuf
  · cases life : s.st i with
    | ready => exact ne_fault_of_next (exec_h32_ready named life h) e
    | busy => exact ne_fault_of_refused (exec_h32_busy named life h) e
  · exact ne_fault_of_refused (withBuffer_unnamed (Nat.le_of_not_lt named) _) e

/-- No assertion of rule R188 fails in an operation that is a step of an agent. -/
theorem Inv.exec_ne_fault {s : State} (hI : Inv s) {i : Instr} (row : AgentRow i) (e : Fault) : exec i s ≠ .fault e := by
  cases row with
  | start d i => exact hI.start_ne_fault d i e
  | cancel i => exact hI.cancel_ne_fault i e
  | reset => exact hI.reset_ne_fault e
  | entry x d => exact hI.entry_ne_fault x d e
  | irqEntry => exact hI.irqEntry_ne_fault e
  | bit => exact exec_bit_ne_fault s e
  | header i h => exact exec_h32_ne_fault i h s e
  | frame row =>
    rw [exec_frameRow row]
    obtain ⟨-, tgt, next⟩ | refused := runFrame_cases _ s
    · exact ne_fault_of_next next e
    · exact ne_fault_of_refused refused e

theorem Inv.hardwareStep_ne_fault {s : State} (hI : Inv s) (e : Fault) : hardwareStep s ≠ .fault e := by
  unfold hardwareStep
  split
  · exact hI.irqEntry_ne_fault e
  · split
    · exact exec_bit_ne_fault s e
    · exact nofun

theorem withBuffer_ne_fault {α : Type} {i : BufIdx} {s : State} {k : Res α} {e : Fault} (h : k ≠ .fault e) :
    withBuffer i s k ≠ .fault e := by
  by_cases named : i.val < s.cfg.nbuf
  · rwa [withBuffer_named named]
  · exact ne_fault_of_refused (withBuffer_unnamed (Nat.le_of_not_lt named) k) e

/-- A byte access of Caller faults only outside buffer memory (log entry 16). -/
theorem callerAccess_eq_fault {a : Nat} {s u : State} {e : Fault} (h : callerAccess a s (.next u) = .fault e) :
    s.cfg.memSize ≤ a := by
  by_contra outside
  rw [callerAccess, if_pos (Nat.lt_of_not_le outside)] at h
  split at h <;> cases h

/-- Settles O54: the operations and the queries end in no fault, and a byte access only outside buffer memory. -/
theorem noAssertionFails : Obligations.NoAssertionFails := by
  intro s e hI agent fault
  unfold step at fault
  cases script : s.script with
  | nil =>
    rw [script] at fault
    exact absurd fault (hI.hardwareStep_ne_fault e)
  | cons x rest =>
    rw [script] at fault
    have hI' : Inv { s with script := rest } := hI.withScript rest
    cases x with
    | op w =>
      change runSlot w { s with script := rest } = .fault e at fault
      cases decoded : decode w with
      | ok i =>
        have row := agentRow_of_isAgentInput decoded (agent (.op w) (by rw [script]; rfl))
        rw [runSlot_decoded decoded] at fault
        exact absurd fault (hI'.exec_ne_fault row e)
      | error r =>
        rw [runSlot_undecodable decoded] at fault
        cases fault
    | callerWrite a b => exact ⟨a, rest, .inr ⟨b, rfl⟩, callerAccess_eq_fault fault⟩
    | callerRead a => exact ⟨a, rest, .inl rfl, callerAccess_eq_fault fault⟩
    | queryReady i => exact absurd fault (withBuffer_ne_fault nofun)
    | queryResult i => exact absurd fault (withBuffer_ne_fault nofun)
    | queryParity => cases fault

end Sys2Proof.Machine
end

section
/-!
The step: an entry of the script, or the block on its own (rule R192; log entry 1).
-/

namespace Sys2Proof.Machine

theorem step_placed {s : State} {x : Input} {rest : List Input} (script : s.script = x :: rest) :
    step s = runInput x { s with script := rest } := by
  rw [step, script]

theorem step_alone {s : State} (script : s.script = []) : step s = hardwareStep s := by
  rw [step, script]

/-- Settles O7: the step takes the first entry of the script and runs what its slot decodes to. -/
theorem stepRunsDecodedOperation : Obligations.StepRunsDecodedOperation := by
  intro s w rest i script decoded
  rw [step_placed script]
  exact runSlot_decoded decoded _

/-- A word that reads as an operation has a slot that decodes to it (log entry 8). -/
theorem decodeTableWord_eq_some {nbits w : Nat} {i : Instr} (h : decodeTableWord nbits w = some i) :
    ∃ x, bareSlot nbits w = some x ∧ decode x = .ok i := by
  unfold decodeTableWord at h
  cases bare : bareSlot nbits w with
  | none =>
    rw [bare] at h
    cases h
  | some x =>
    rw [bare] at h
    cases decoded : decode x with
    | error e =>
      simp only [decoded] at h
      cases h
    | ok j =>
      simp only [decoded] at h
      cases h
      exact ⟨x, rfl, decoded⟩

/-- Settles O8: the slot that the word is read through is the one placed in front of the script. -/
theorem placedWordRunsNext : Obligations.PlacedWordRunsNext := by
  intro s nbits w i word
  obtain ⟨x, bare, decoded⟩ := decodeTableWord_eq_some word
  have placed : s.withFetchWord nbits w = { s with script := .op x :: s.script } := by
    rw [State.withFetchWord, placeWord, bare]
  rw [placed]
  exact stepRunsDecodedOperation _ x s.script i rfl decoded

/-- Settles O9: the interrupt comes first, then the exchange in flight. -/
theorem blockMovesByItself : Obligations.BlockMovesByItself := by
  intro s script
  rw [step_alone script, hardwareStep]
  refine ⟨fun flag unmasked => ?_, fun noFlag busy => ?_, fun noFlag free => ?_⟩
  · rw [if_pos (by simp [irqEnabled, flag, unmasked])]
  · rw [if_neg (by simp [irqEnabled, noFlag]), if_pos busy]
  · rw [if_neg (by simp [irqEnabled, noFlag]), if_neg (by simp [free])]

end Sys2Proof.Machine
end

section
/-!
What the steps of agents do to the queue (rules R50, R111 to R113), to the phase (rule R137), and to what is armed in a line reset
(rule R154).
-/

namespace Sys2Proof.Machine

/-! ### The shifter leaves the rest of the block -/

/-- A cycle writes registers of the marshaller and the wire, and nothing else (rule R171). -/
theorem shiftBit_frame (b : Bool) (s : State) : ∃ rxr rxsh xcnt xbusy irqp wire,
    shiftBit b s = { s with rxr := rxr, rxsh := rxsh, xcnt := xcnt, xbusy := xbusy, irqp := irqp, wire := wire } := by
  by_cases last : (s.xcnt + 1#5).toNat = s.fw.bits
  · exact ⟨_, _, _, _, _, _, if_pos last⟩
  · exact ⟨_, _, _, _, _, _, if_neg last⟩

/-- A bit cycle writes these and the sources of sampled bits (rules R171, R172). -/
theorem bitCycle_frame (s : State) : ∃ rxr rxsh xcnt xbusy irqp wire tgt d,
    bitCycle s = { s with
      rxr := rxr, rxsh := rxsh, xcnt := xcnt, xbusy := xbusy, irqp := irqp, wire := wire, target := tgt, draws := d } := by
  obtain ⟨b, tgt, d, hs, -, -⟩ := sample_spec s
  obtain ⟨_, _, _, _, _, _, e⟩ := shiftBit_frame b { s with target := tgt, draws := d }
  rw [bitCycle, hs, e]
  exact ⟨_, _, _, _, _, _, _, _, rfl⟩

theorem bitCycles_frame (n : Nat) : ∀ s : State, ∃ rxr rxsh xcnt xbusy irqp wire tgt d,
    bitCycles n s = { s with
      rxr := rxr, rxsh := rxsh, xcnt := xcnt, xbusy := xbusy, irqp := irqp, wire := wire, target := tgt, draws := d } := by
  induction n with
  | zero => intro s; exact ⟨_, _, _, _, _, _, _, _, rfl⟩
  | succ n ih =>
    intro s
    obtain ⟨_, _, _, _, _, _, _, _, first⟩ := bitCycle_frame s
    obtain ⟨_, _, _, _, _, _, _, _, others⟩ := ih (bitCycle s)
    rw [bitCycles, others, first]
    exact ⟨_, _, _, _, _, _, _, _, rfl⟩

/-! ### First in, first out -/

/-- What a move does to the queue and the events (rules R98, R111 to R113, R115). -/
def fifoMove (s t : State) : Prop :=
  (t.q = s.q ∧ t.evt = s.evt) ∨
  (∃ i, i ∉ s.q ∧ t.q = s.q ++ [i] ∧ t.evt = s.evt) ∨
  (∃ i, i ∈ s.q ∧ ¬(s.q.head? = some i ∧ s.armed = true) ∧ t.q = s.q.erase i ∧ t.evt = s.evt ++ [.cancelled i]) ∨
  (∃ h r, s.armed = true ∧ s.q = h :: t.q ∧ t.evt = s.evt ++ [.cpl h r] ∧ r = t.res h)

theorem headFinished_res (h : BufIdx) (rest : List BufIdx) (s : State) :
    (headFinished h rest s).res h = if s.ackr = 1#3 then .success else .parityError := by
  refine (setSt_res (s.setRes h _) h h .ready).trans ((setRes_res s h h _).trans ?_)
  exact if_pos rfl

theorem CallerMove.fifo {s t : State} (move : CallerMove s t) : fifoMove s t := by
  cases move with
  | queued d i _ new => exact .inr (.inl ⟨i, new, rfl, rfl⟩)
  | started d i _ empty => exact .inr (.inl ⟨i, by simp [empty], rfl, rfl⟩)
  | cancelled i queued other => exact .inr (.inr (.inl ⟨i, queued, other, rfl, rfl⟩))
  | answered | byteWritten | headerWritten | resetDeferred | resetStarted => exact .inl ⟨rfl, rfl⟩

/-- An entry takes a buffer off the queue only where it finishes the armed head. -/
theorem EntryMove.fifo {s t : State} (move : EntryMove s t) : fifoMove s t := by
  cases move with
  | finished p h rest acc rpar m _ _ queue armed =>
    refine .inr (.inr (.inr ⟨h, _, armed, ?_, nextStarted_evt _ _, ?_⟩))
    · rw [nextStarted_q]
      exact queue
    · rw [nextStarted_res, headFinished_res]
  | onward | resetWord | resetEnded | resetEndedArmed => exact .inl ⟨rfl, rfl⟩

theorem AgentMove.fifo {s t : State} (move : AgentMove s t) : fifoMove s t := by
  cases move with
  | caller move => exact move.fifo
  | entry e runs => exact (entryMove_of_runEntry runs).fifo
  | bit =>
    obtain ⟨_, _, _, _, _, _, _, _, e⟩ := bitCycle_frame s
    rw [e]
    exact .inl ⟨rfl, rfl⟩
  | frame f tgt =>
    obtain ⟨_, _, _, _, _, _, _, _, e⟩ := bitCycles_frame f.width.bits { s with target := tgt }
    rw [e]
    exact .inl ⟨rfl, rfl⟩

/-- Settles O58: read off each move of an agent; the queue and the events of a state do not depend on the script. -/
theorem queueIsFifo : Obligations.QueueIsFifo :=
  fun _ _ _ agent next => (AgentMove.of_step agent next).fifo

/-! ### The successors of PHASE -/

/-- A phase code that is left for a successor, or kept (rule R137). -/
def phaseFollows (c c' : BitVec 4) : Prop :=
  ∀ p p' : Phase, c = p.code → c' = p'.code → phaseSuccessor p p' = true

theorem phaseFollows_codes {p p' : Phase} (h : phaseSuccessor p p' = true) : phaseFollows p.code p'.code := by
  intro x x' e e'
  rwa [← phase_code_inj e, ← phase_code_inj e']

theorem phaseFollows_refl (c : BitVec 4) : phaseFollows c c := by
  intro p p' e e'
  obtain rfl := phase_code_inj (e.symm.trans e')
  simp [phaseSuccessor]

theorem phaseSuccessor_of_continues {p p' : Phase} (h : Continues p p') : phaseSuccessor p p' = true := by
  cases h <;> rfl

theorem CallerMove.phaseFollows {s t : State} (hI : Inv s) (move : CallerMove s t) : phaseFollows s.phase t.phase := by
  cases move with
  | resetStarted noReset empty =>
    rw [(hI.atRest empty noReset).phase]
    exact phaseFollows_codes (p := .request) (p' := .reset) rfl
  | queued | started | cancelled | answered | byteWritten | headerWritten | resetDeferred => exact phaseFollows_refl _

theorem EntryMove.phaseFollows {s t : State} (move : EntryMove s t) : phaseFollows s.phase t.phase := by
  cases move with
  | onward p p' v acc ackr pin fw phase follows =>
    rw [phase]
    exact phaseFollows_codes (phaseSuccessor_of_continues follows)
  | finished p h rest acc rpar m phase terminal =>
    have ends : phaseSuccessor p .request = true ∧ phaseSuccessor p .reset = true := by
      obtain rfl | rfl := terminal <;> exact ⟨rfl, rfl⟩
    obtain ⟨-, e⟩ | ⟨-, -, e⟩ | ⟨n, l, -, -, e⟩ :=
      nextStarted_cases rest (headFinished h rest { s with irqp := false, acc := acc, rpar := rpar, mem := m })
    · rw [e, phase]; exact phaseFollows_codes ends.2
    · rw [e, phase]; exact phaseFollows_codes ends.1
    · rw [e, phase]; exact phaseFollows_codes ends.1
  | resetWord => exact phaseFollows_refl _
  | resetEnded phase =>
    rw [phase]
    exact phaseFollows_codes (p := .reset) (p' := .request) rfl
  | resetEndedArmed h rest phase =>
    rw [phase]
    exact phaseFollows_codes (p := .reset) (p' := .request) rfl

theorem AgentMove.phaseFollows {s t : State} (hI : Inv s) (move : AgentMove s t) : phaseFollows s.phase t.phase := by
  cases move with
  | caller move => exact move.phaseFollows hI
  | entry e runs => exact (entryMove_of_runEntry runs).phaseFollows
  | bit =>
    obtain ⟨_, _, _, _, _, _, _, _, e⟩ := bitCycle_frame s
    rw [e]
    exact phaseFollows_refl _
  | frame f tgt =>
    obtain ⟨_, _, _, _, _, _, _, _, e⟩ := bitCycles_frame f.width.bits { s with target := tgt }
    rw [e]
    exact phaseFollows_refl _

/-! ### No arming during a line reset -/

/-- What is armed after a step that leaves a line reset pending was armed before it (rule R154). -/
def armsNothing (s t : State) : Prop :=
  s.prst = true → t.prst = true → t.armed = true → s.armed = true ∧ t.q.head? = s.q.head?

theorem armsNothing_of_same {s t : State} (armed : t.armed = s.armed) (head : t.q.head? = s.q.head?) : armsNothing s t :=
  fun _ _ isArmed => ⟨armed ▸ isArmed, head⟩

theorem CallerMove.armsNothing {s t : State} (hI : Inv s) (move : CallerMove s t) : armsNothing s t := by
  cases move with
  | queued d i =>
    intro _ _ armed
    obtain ⟨h, rest, queue, -⟩ := hI.armedHead armed
    refine ⟨armed, ?_⟩
    change (s.q ++ [i]).head? = _
    rw [queue, List.cons_append, List.head?_cons, List.head?_cons]
  | started d i _ _ noReset =>
    intro reset
    simp [noReset] at reset
  | cancelled i queued other =>
    intro _ _ armed
    obtain ⟨h, rest, queue, -⟩ := hI.armedHead armed
    refine ⟨armed, ?_⟩
    have kept : h ≠ i := fun same => other ⟨by rw [queue, same, List.head?_cons], armed⟩
    change (s.q.erase i).head? = _
    rw [queue, List.erase_cons_tail (by simpa using kept), List.head?_cons, List.head?_cons]
  | answered | byteWritten | headerWritten | resetDeferred | resetStarted => exact armsNothing_of_same rfl rfl

theorem EntryMove.armsNothing {s t : State} (move : EntryMove s t) : armsNothing s t := by
  cases move with
  | onward | resetWord => exact armsNothing_of_same rfl rfl
  | finished p h rest acc rpar m =>
    intro reset _ armed
    have startsReset : nextStarted rest (headFinished h rest { s with irqp := false, acc := acc, rpar := rpar, mem := m }) =
        lineResetStarted (headFinished h rest { s with irqp := false, acc := acc, rpar := rpar, mem := m }) := if_pos reset
    rw [startsReset] at armed
    cases armed
  | resetEnded | resetEndedArmed => exact fun _ ended => nomatch ended

theorem AgentMove.armsNothing {s t : State} (hI : Inv s) (move : AgentMove s t) : armsNothing s t := by
  cases move with
  | caller move => exact move.armsNothing hI
  | entry e runs => exact (entryMove_of_runEntry runs).armsNothing
  | bit =>
    obtain ⟨_, _, _, _, _, _, _, _, e⟩ := bitCycle_frame s
    rw [e]
    exact armsNothing_of_same rfl rfl
  | frame f tgt =>
    obtain ⟨_, _, _, _, _, _, _, _, e⟩ := bitCycles_frame f.width.bits { s with target := tgt }
    rw [e]
    exact armsNothing_of_same rfl rfl

/-- Settles O59: both parts are read off each move of an agent. -/
theorem phaseSuccessors : Obligations.PhaseSuccessors := by
  intro s t hI agent next
  have hI' := hI.withScript s.script.tail
  have move := AgentMove.of_step agent next
  have follows := move.phaseFollows hI'
  have unarmed := move.armsNothing hI'
  exact ⟨follows, unarmed⟩

end Sys2Proof.Machine
end

section
/-!
Progress (rule R232): a block left alone serves its interrupts and its exchanges until it is idle. The bit cycles still to come are
counted by `workLeft`, which a bit cycle lowers and no interrupt entry raises.
-/

namespace Sys2Proof.Machine

/-! ### The bit cycles still to come -/

/-- What is left of the exchange in flight. -/
def cyclesInFlight (s : State) : Nat := if s.xbusy then s.fw.bits - s.xcnt.toNat else 0

/-- The exchanges that follow the present one, of the armed transfer or of the line reset: the longer, that is a write, where the
direction is not yet looked at (rules R72, R141, R142, R230). -/
def cyclesToFollow (s : State) : Phase → Nat
  | .request => if s.armed then 39 else 0
  | .ack => 34
  | .writeData1 | .readData1 => 21
  | .writeData2 | .readData2 => 8
  | .writeData3 | .readData3 => 0
  | .reset => 16 * (s.rcnt.toNat - 1)

/-- The transfers behind the armed one, and the line reset that is pending behind it (rule R232). -/
def cyclesWaiting (s : State) : Phase → Nat
  | .reset => 47 * s.q.length
  | _ => 47 * (s.q.length - 1) + if s.prst then 48 else 0

/-- A bound on the bit cycles that a block left alone in phase `p` still has. -/
def workIn (p : Phase) (s : State) : Nat := cyclesInFlight s + cyclesToFollow s p + cyclesWaiting s p

/-- The bound in the phase of the state. -/
def workLeft (s : State) : Nat := ((Phase.ofCode s.phase).map (workIn · s)).getD 0

theorem ofCode_code (p : Phase) : Phase.ofCode p.code = some p := by cases p <;> rfl

theorem workLeft_eq {p : Phase} {s : State} (phase : s.phase = p.code) : workLeft s = workIn p s := by
  rw [workLeft, phase, ofCode_code, Option.map_some, Option.getD_some]

theorem cyclesInFlight_free {s : State} (free : s.xbusy = false) : cyclesInFlight s = 0 :=
  if_neg (by simp [free])

theorem cyclesInFlight_started (v : BitVec 16) (s : State) : cyclesInFlight (exchangeStarted v s) = s.fw.bits := rfl

/-- The armed transfer of a queue has 47 cycles, less what it has done; a line reset has 48 (rule R232). -/
theorem Inv.workLeft_le {s : State} (hI : Inv s) : workLeft s ≤ 47 * s.q.length + if s.prst then 48 else 0 := by
  obtain ⟨p, phase⟩ := hI.phaseNamed
  have ha := hI.at phase
  have inFlight : cyclesInFlight s ≤ (widthOf p).bits := by
    rw [cyclesInFlight, ← ha.widthMatches]
    split <;> omega
  rw [workLeft_eq phase, workIn]
  by_cases reset : p = .reset
  · obtain rfl := reset
    have pending := (ha.resetPhaseUnarmed rfl).1
    have count := ha.resetCount rfl
    simp only [cyclesToFollow, cyclesWaiting, widthOf, FrameWidth.bits, pending, if_true] at inFlight ⊢
    omega
  · have waiting : cyclesWaiting s p = 47 * (s.q.length - 1) + if s.prst then 48 else 0 := by
      cases p with
      | reset => exact absurd rfl reset
      | _ => rfl
    rw [waiting]
    cases armed : s.armed with
    | true =>
      have queued := List.length_pos_iff.2 (ha.armedHasHead armed)
      have transfer : (widthOf p).bits + cyclesToFollow s p ≤ 47 := by
        cases p <;> simp_all [widthOf, FrameWidth.bits, cyclesToFollow]
      omega
    | false =>
      have inactive : ¬(s.xbusy = true ∨ s.irqp = true) := by simp [ha.activeIff, armed, reset]
      have free : s.xbusy = false := by simpa using (not_or.1 inactive).1
      have nothing : cyclesToFollow s p = 0 := by
        obtain rfl : p = .request := by
          by_contra other
          simp [ha.phaseArmed other reset] at armed
        simp [cyclesToFollow, armed]
      rw [cyclesInFlight_free free, nothing]
      omega

/-! ### What the moves of the block do to the bound -/

/-- A bit cycle is one of those still to come. -/
theorem Inv.workLeft_bitCycle {s : State} (hI : Inv s) (busy : s.xbusy = true) :
    workLeft (Machine.bitCycle s) + 1 = workLeft s ∧ (Machine.bitCycle s).wire.length = s.wire.length + 1 := by
  obtain ⟨p, phase⟩ := hI.phaseNamed
  obtain ⟨b, tgt, d, hs, -, -⟩ := sample_spec s
  have below := hI.countBelowWidth busy
  have before : cyclesInFlight s = s.fw.bits - s.xcnt.toNat := if_pos busy
  rw [Machine.bitCycle, hs]
  obtain last | more := (Nat.succ_le_of_lt below).eq_or_lt
  · rw [shiftBit_last (by exact last), workLeft_eq phase, workLeft_eq (p := p) (by exact phase)]
    refine ⟨?_, by simp⟩
    rw [workIn, workIn, before, cyclesInFlight_free rfl]
    change 0 + cyclesToFollow s p + cyclesWaiting s p + 1 = _
    omega
  · rw [shiftBit_more (by exact more), workLeft_eq phase, workLeft_eq (p := p) (by exact phase)]
    refine ⟨?_, by simp⟩
    have count := xcnt_succ below
    rw [workIn, workIn, before, cyclesInFlight, if_pos (by exact busy)]
    change s.fw.bits - (s.xcnt + 1#5).toNat + cyclesToFollow s p + cyclesWaiting s p + 1 = _
    omega

/-- The next exchange of a transfer is one of those to follow (rule R72). -/
theorem cyclesToFollow_continues {p p' : Phase} {s : State} (t : State) (armed : s.armed = true)
    (follows : Continues p p') : (widthOf p').bits + cyclesToFollow t p' ≤ cyclesToFollow s p := by
  cases follows <;> simp [cyclesToFollow, widthOf, FrameWidth.bits, armed]

theorem cyclesWaiting_continues {p p' : Phase} (s : State) (follows : Continues p p') :
    cyclesWaiting s p' = cyclesWaiting s p := by
  cases follows <;> rfl

/-- A transfer that has been armed has 47 cycles at most, and the others of the queue wait (rule R230). -/
theorem workLeft_armedWith {n : BufIdx} {s : State} (phase : s.phase = Phase.request.code) (width : s.fw = .w8)
    (noReset : s.prst = false) : workLeft (armedWith n s) = 47 + 47 * (s.q.length - 1) := by
  rw [workLeft_eq (p := .request) (by exact phase), workIn]
  have inFlight : cyclesInFlight (armedWith n s) = 8 := by
    change s.fw.bits = 8
    rw [width]; rfl
  have waiting : cyclesWaiting (armedWith n s) .request = 47 * (s.q.length - 1) := by
    change 47 * (s.q.length - 1) + (if s.prst then 48 else 0) = _
    simp [noReset]
  rw [inFlight, waiting]
  rfl

/-- A line reset that has been started has 48 cycles, and the queue waits (rules R70, R230). -/
theorem workLeft_lineResetStarted (s : State) : workLeft (lineResetStarted s) = 48 + 47 * s.q.length :=
  workLeft_eq (p := .reset) rfl

theorem workLeft_at_rest {s : State} (free : s.xbusy = false) (phase : s.phase = Phase.request.code)
    (unarmed : s.armed = false) (empty : s.q = []) (noReset : s.prst = false) : workLeft s = 0 := by
  rw [workLeft_eq phase, workIn, cyclesInFlight_free free]
  simp [cyclesToFollow, cyclesWaiting, unarmed, empty, noReset]

/-- What a terminal entry starts was waiting (rule R136). -/
theorem workLeft_nextStarted {h : BufIdx} {rest : List BufIdx} {s : State} (free : s.xbusy = false) (width : s.fw = .w8) :
    workLeft (nextStarted rest (headFinished h rest s)) ≤ 47 * rest.length + if s.prst then 48 else 0 := by
  obtain ⟨reset, e⟩ | ⟨noReset, empty, e⟩ | ⟨n, l, noReset, queue, e⟩ :=
    nextStarted_cases rest (headFinished h rest s)
  · have pending : s.prst = true := reset
    rw [e, workLeft_lineResetStarted, headFinished_q, if_pos pending, Nat.add_comm]
  · rw [e, workLeft_at_rest (s := headFinished h rest s) free rfl rfl empty noReset]
    exact Nat.zero_le _
  · rw [e, workLeft_armedWith (s := headFinished h rest s) rfl width noReset, headFinished_q, queue, List.length_cons]
    omega

/-- An interrupt entry adds no work: what it starts was to follow or waiting. -/
theorem EntryMove.workLeft_le {s t : State} (hI : Inv s) (hI' : Inv t) (flag : s.irqp = true) (move : EntryMove s t) :
    workLeft t ≤ workLeft s := by
  have free : s.xbusy = false := Bool.eq_false_iff.2 fun busy => by simp [hI.notBoth busy] at flag
  have active := hI.activeIff.1 (.inr flag)
  cases move with
  | onward p p' v acc ackr pin fw phase follows =>
    have armed : s.armed = true := active.resolve_right fun reset => by
      obtain rfl := phase_code_inj (phase.symm.trans reset)
      cases follows
    have width : fw = widthOf p' := hI'.widthMatches p' rfl
    rw [workLeft_eq phase, workLeft_eq (p := p') rfl, workIn, workIn, cyclesInFlight_free free,
      cyclesInFlight_started, ← cyclesWaiting_continues s follows, width, Nat.zero_add]
    exact Nat.add_le_add_right (cyclesToFollow_continues _ armed follows) _
  | finished p h rest acc rpar m phase terminal queue =>
    have width : s.fw = .w8 := by
      rw [hI.widthMatches p phase]
      obtain rfl | rfl := terminal <;> rfl
    have before : workIn p s = 47 * rest.length + if s.prst then 48 else 0 := by
      obtain rfl | rfl := terminal <;>
        simp [workIn, cyclesInFlight_free free, cyclesToFollow, cyclesWaiting, queue]
    rw [workLeft_eq phase, before]
    exact workLeft_nextStarted free width
  | resetWord v phase more =>
    have width : s.fw = .w16 := hI.widthMatches .reset phase
    have count : (s.rcnt - 1#2).toNat + 1 = s.rcnt.toNat ∧ 2 ≤ s.rcnt.toNat := by
      have low := (hI.resetCount phase).1
      revert low more
      generalize s.rcnt = c
      revert c; decide
    rw [workLeft_eq phase, workLeft_eq (p := .reset) (by exact phase), workIn, workIn, cyclesInFlight_free free,
      cyclesInFlight_started]
    change s.fw.bits + 16 * ((s.rcnt - 1#2).toNat - 1) + 47 * s.q.length ≤
      0 + 16 * (s.rcnt.toNat - 1) + 47 * s.q.length
    rw [width, FrameWidth.bits]
    omega
  | resetEnded phase empty =>
    have unarmed := (hI.resetPhaseUnarmed phase).2
    rw [workLeft_at_rest (s := lineResetEnded { s with irqp := false }) free rfl unarmed empty rfl]
    exact Nat.zero_le _
  | resetEndedArmed h rest phase queue =>
    have ended : (lineResetEnded { s with irqp := false }).q = h :: rest := queue
    rw [workLeft_armedWith rfl rfl rfl, ended, workLeft_eq phase, workIn]
    simp only [cyclesWaiting, queue, List.length_cons]
    omega

/-! ### The run to the idle block -/

/-- What bounds the steps of a block left alone: two for each bit cycle still to come, and a due entry. -/
def stepsLeft (s : State) : Nat := 2 * workLeft s + if s.irqp then 1 else 0

/-- A step of a block left alone: the invariants are kept, nothing is placed, no work is added, the run comes closer to its end. -/
structure Progress (s t : State) : Prop where
  inv : Inv t
  alone : t.script = []
  work : t.wire.length + workLeft t ≤ s.wire.length + workLeft s
  closer : stepsLeft t < stepsLeft s

theorem EntryMove.script_kept {s t : State} (move : EntryMove s t) : t.script = s.script := by
  cases move with
  | finished => exact nextStarted_script _ _
  | onward | resetWord | resetEnded | resetEndedArmed => rfl

/-- A due interrupt entry of a block left alone. -/
theorem Inv.entry_progress {s : State} (hI : Inv s) (alone : s.script = []) (flag : s.irqp = true) :
    ∃ t, step s = .next t ∧ Progress s t := by
  obtain ⟨t, next⟩ := hI.irqEntry_completes flag
  obtain ⟨e, runs⟩ := irqEntryStep_eq_next next
  have move := entryMove_of_runEntry runs
  have inv := hI.runEntry runs
  have work := move.workLeft_le hI inv flag
  obtain ⟨cleared, wire⟩ := move.flag_cleared
  refine ⟨t, ((blockMovesByItself s alone).1 flag hI.unmasked).trans next, inv, move.script_kept.trans alone, ?_, ?_⟩
  · rw [wire]
    omega
  · rw [stepsLeft, stepsLeft, cleared, flag]
    simp only [Bool.false_eq_true, if_false, if_true]
    omega

/-- A bit cycle of a block left alone. -/
theorem Inv.bit_progress {s : State} (hI : Inv s) (alone : s.script = []) (busy : s.xbusy = true) :
    ∃ t, step s = .next t ∧ Progress s t := by
  obtain ⟨work, wire⟩ := hI.workLeft_bitCycle busy
  have kept : (Machine.bitCycle s).script = s.script := by
    obtain ⟨_, _, _, _, _, _, _, _, e⟩ := bitCycle_frame s
    rw [e]
  refine ⟨Machine.bitCycle s, ((blockMovesByItself s alone).2.1 (hI.notBoth busy) busy).trans (exec_bit_busy busy),
    hI.bitCycle busy, kept.trans alone, by omega, ?_⟩
  rw [stepsLeft, stepsLeft]
  split <;> omega

theorem Inv.progress {s : State} (hI : Inv s) (alone : s.script = []) (active : ¬idle s) :
    ∃ t, step s = .next t ∧ Progress s t := by
  cases flag : s.irqp with
  | true => exact hI.entry_progress alone flag
  | false =>
    have busy : s.xbusy = true := by
      by_contra free
      exact active ⟨by simpa using free, flag⟩
    exact hI.bit_progress alone busy

theorem run_succ (M : Host.Core) {s t : M.State} (next : M.step s = .next t) (n : Nat) :
    M.run (n + 1) s = M.run n t := by
  rw [Host.Core.run, next]

/-- A block left alone runs until it is idle, within the bit cycles it still has. -/
theorem Inv.runs_to_idle (k : Nat) : ∀ {s : State}, Inv s → s.script = [] → stepsLeft s ≤ k →
    ∃ (n : Nat) (t : State), Sys2Proof.core.run n s = .next t ∧ idle t ∧ Inv t ∧ t.script = [] ∧
      t.wire.length ≤ s.wire.length + workLeft s := by
  induction k with
  | zero =>
    intro s hI alone bound
    by_cases quiet : idle s
    · exact ⟨0, s, rfl, quiet, hI, alone, Nat.le_add_right _ _⟩
    · obtain ⟨t, -, progress⟩ := hI.progress alone quiet
      exact absurd (progress.closer.trans_le bound) (Nat.not_lt_zero _)
  | succ k ih =>
    intro s hI alone bound
    by_cases quiet : idle s
    · exact ⟨0, s, rfl, quiet, hI, alone, Nat.le_add_right _ _⟩
    · obtain ⟨t, next, progress⟩ := hI.progress alone quiet
      obtain ⟨n, u, run, rest⟩ := ih progress.inv progress.alone (Nat.le_of_lt_succ (progress.closer.trans_le bound))
      obtain ⟨idleAtEnd, inv, aloneAtEnd, wire⟩ := rest
      exact ⟨n + 1, u, (run_succ Sys2Proof.core next n).trans run, idleAtEnd, inv, aloneAtEnd, wire.trans progress.work⟩

/-- Settles O60: the run ends in an idle block, where nothing is queued or pending and no step is left; `Inv.workLeft_le` is the
bound on its bit cycles. -/
theorem eventuallyIdle : Obligations.EventuallyIdle := by
  intro s hI alone
  obtain ⟨n, t, run, quiet, inv, aloneAtEnd, wire⟩ := hI.runs_to_idle (stepsLeft s) alone le_rfl
  obtain ⟨empty, noReset⟩ := inv.idle_empty quiet
  obtain ⟨free, noFlag⟩ := quiet
  have stops := (blockMovesByItself t aloneAtEnd).2.2 noFlag free
  exact ⟨n, t, run, ⟨free, noFlag⟩, empty, noReset, stops, wire.trans (Nat.add_le_add_left hI.workLeft_le _)⟩

end Sys2Proof.Machine
end

section
/-!
Encodings (30_encoding.md): for each part of the decoder, which words it reads and as what; the round trips of the encoder and the
decoder follow in both directions.
-/

namespace Sys2Proof

/-! ### Narrow words in a slot -/

/-- What fits `n` bits is a word of `n` bits. -/
theorem exists_setWidth_of_fits {n : Nat} {w : Word32} (h : fits n w = true) : ∃ v : BitVec n, w = v.setWidth 32 := by
  have below : w.toNat < 2 ^ n := of_decide_eq_true h
  refine ⟨w.setWidth n, BitVec.eq_of_toNat_eq ?_⟩
  rw [BitVec.toNat_setWidth, BitVec.toNat_setWidth, Nat.mod_eq_of_lt below, Nat.mod_eq_of_lt w.isLt]

theorem fits_setWidth {n : Nat} (v : BitVec n) : fits n (v.setWidth 32) = true := Laws.EncodeFits.fits_setWidth v

/-! ### Fields of the frame words -/

theorem reqWord_fields : ∀ (n r : Bool) (a : BitVec 2) (p : Bool),
    reqFixed ((reqWord n r a p).setWidth 32) = true ∧ ((reqWord n r a p).setWidth 32).getLsbD 1 = n ∧
    ((reqWord n r a p).setWidth 32).getLsbD 2 = r ∧ ((reqWord n r a p).setWidth 32).extractLsb' 3 2 = a ∧
    ((reqWord n r a p).setWidth 32).getLsbD 5 = p := by decide

theorem reqWord_of_fields : ∀ v : BitVec 8, reqFixed (v.setWidth 32) = true →
    reqWord ((v.setWidth 32).getLsbD 1) ((v.setWidth 32).getLsbD 2) ((v.setWidth 32).extractLsb' 3 2)
      ((v.setWidth 32).getLsbD 5) = v := by decide

theorem ackWord_fields : ∀ (t : Bool) (a : BitVec 3) (d : Bool),
    ((ackWord t a d).setWidth 32).getLsbD 0 = t ∧ ((ackWord t a d).setWidth 32).extractLsb' 1 3 = a ∧
    ((ackWord t a d).setWidth 32).getLsbD 4 = d := by decide

theorem ackWord_of_fields : ∀ v : BitVec 5,
    ackWord ((v.setWidth 32).getLsbD 0) ((v.setWidth 32).extractLsb' 1 3) ((v.setWidth 32).getLsbD 4) = v := by decide

theorem rd3Word_fields : ∀ (d : BitVec 6) (p t : Bool),
    ((rd3Word d p t).setWidth 32).extractLsb' 0 6 = d ∧ ((rd3Word d p t).setWidth 32).getLsbD 6 = p ∧
    ((rd3Word d p t).setWidth 32).getLsbD 7 = t := by decide

theorem rd3Word_of_fields : ∀ v : BitVec 8,
    rd3Word ((v.setWidth 32).extractLsb' 0 6) ((v.setWidth 32).getLsbD 6) ((v.setWidth 32).getLsbD 7) = v := by decide

theorem wd3Word_fields : ∀ (d : BitVec 6) (p : Bool),
    ((wd3Word d p).setWidth 32).extractLsb' 0 6 = d ∧ ((wd3Word d p).setWidth 32).getLsbD 6 = p ∧
    ((wd3Word d p).setWidth 32).getLsbD 7 = false := by decide

theorem wd3Word_of_fields : ∀ v : BitVec 8, (v.setWidth 32).getLsbD 7 = false →
    wd3Word ((v.setWidth 32).extractLsb' 0 6) ((v.setWidth 32).getLsbD 6) = v := by decide

theorem keyWord_fields : ∀ (d : Bool) (c : BitVec 4),
    ((BitVec.ofBool d ++ c).setWidth 32 : Word32).getLsbD 4 = d ∧
    ((BitVec.ofBool d ++ c).setWidth 32 : Word32).extractLsb' 0 4 = c := by decide

theorem keyWord_of_fields : ∀ v : BitVec 5,
    BitVec.ofBool ((v.setWidth 32 : Word32).getLsbD 4) ++ (v.setWidth 32 : Word32).extractLsb' 0 4 = v := by decide

theorem extractLsb'_setWidth_four : ∀ v : BitVec 4, (v.setWidth 32 : Word32).extractLsb' 0 4 = v := by decide

/-- The codes of the phases are the codes that name a phase (rule R11). -/
theorem ofCode_eq_some {c : BitVec 4} {p : Phase} : Phase.ofCode c = some p ↔ c = p.code := by
  revert c; cases p <;> decide

/-! ### Rows read from a word alone -/

theorem ite_ok_eq_ok {c : Prop} [Decidable c] {i j : Instr} {e : DecodeError} :
    (if c then (.ok i : Except DecodeError Instr) else .error e) = .ok j ↔ c ∧ j = i := by
  by_cases h : c <;> simp [h, eq_comm]

theorem ite_bit_eq_ok {w : Word32} {i0 i1 j : Instr} {e : DecodeError} :
    (if w = 0#32 then (.ok i0 : Except DecodeError Instr) else if w = 1#32 then .ok i1 else .error e) = .ok j ↔
      w = 0#32 ∧ j = i0 ∨ w = 1#32 ∧ j = i1 := by
  by_cases h0 : w = 0#32
  · simp [h0, eq_comm]
  · by_cases h1 : w = 1#32 <;> simp [h0, h1, eq_comm]

theorem decodeConst_eq_ok {w k : Word32} {e : DecodeError} {i j : Instr} :
    decodeConst w k e i = .ok j ↔ w = k ∧ j = i := ite_ok_eq_ok

/-- The index and the operation of a command word below `2 ^ 8` (rule R76). -/
theorem cmdWord_eq_iff {w : Word32} (small : w.toNat < 256) {i : BufIdx} {oo : Nat} (low : oo < 4) :
    w = cmdWord i oo ↔ w.toNat % 4 = oo ∧ cmdIdx w = i := by
  have index := i.isLt
  have value : (cmdWord i oo).toNat = i.val * 4 + oo := by
    rw [cmdWord, BitVec.toNat_ofNat]
    omega
  have idx : cmdIdx w = i ↔ w.toNat / 4 = i.val := by
    rw [Fin.ext_iff]
    change w.toNat / 4 % 64 = i.val ↔ _
    omega
  rw [← BitVec.toNat_inj, value, idx]
  omega

theorem cmdWord_fields (i : BufIdx) {oo : Nat} (low : oo < 4) :
    fits 8 (cmdWord i oo) = true ∧ (cmdWord i oo).toNat % 4 = oo ∧ cmdIdx (cmdWord i oo) = i := by
  have index := i.isLt
  have small : (cmdWord i oo).toNat < 256 := by
    rw [cmdWord, BitVec.toNat_ofNat]
    omega
  exact ⟨decide_eq_true small, (cmdWord_eq_iff small low).1 rfl⟩

/-- The command words (rule R76). -/
theorem decodeCmd8_eq_ok {w : Word32} {j : Instr} :
    decodeCmd8 w = .ok j ↔
      (∃ i, w = cmdWord i 0 ∧ j = .startW i) ∨ (∃ i, w = cmdWord i 1 ∧ j = .startR i) ∨
      (∃ i, w = cmdWord i 2 ∧ j = .cancel i) ∨ (w = 3#32 ∧ j = .reset) := by
  constructor
  · intro h
    unfold decodeCmd8 at h
    split at h
    · next inside =>
      have small : w.toNat < 256 := of_decide_eq_true inside
      split at h
      · next low =>
        cases h
        exact .inl ⟨_, (cmdWord_eq_iff small (by decide)).2 ⟨low, rfl⟩, rfl⟩
      · next low =>
        cases h
        exact .inr (.inl ⟨_, (cmdWord_eq_iff small (by decide)).2 ⟨low, rfl⟩, rfl⟩)
      · next low =>
        cases h
        exact .inr (.inr (.inl ⟨_, (cmdWord_eq_iff small (by decide)).2 ⟨low, rfl⟩, rfl⟩))
      · next n0 n1 n2 =>
        obtain ⟨zero, rfl⟩ := ite_ok_eq_ok.1 h
        have value : w.toNat = (3#32).toNat := by
          have n0 : w.toNat % 4 ≠ 0 := n0
          have n1 : w.toNat % 4 ≠ 1 := n1
          have n2 : w.toNat % 4 ≠ 2 := n2
          change w.toNat = 3
          omega
        exact .inr (.inr (.inr ⟨BitVec.eq_of_toNat_eq value, rfl⟩))
    · cases h
  · rintro (⟨i, rfl, rfl⟩ | ⟨i, rfl, rfl⟩ | ⟨i, rfl, rfl⟩ | ⟨rfl, rfl⟩)
    · obtain ⟨inside, low, index⟩ := cmdWord_fields i (oo := 0) (by decide)
      rw [decodeCmd8, if_pos inside, low, index]
      rfl
    · obtain ⟨inside, low, index⟩ := cmdWord_fields i (oo := 1) (by decide)
      rw [decodeCmd8, if_pos inside, low, index]
      rfl
    · obtain ⟨inside, low, index⟩ := cmdWord_fields i (oo := 2) (by decide)
      rw [decodeCmd8, if_pos inside, low, index]
      rfl
    · rfl

/-- The dispatch keys (rule R74). -/
theorem decodeKey5_eq_ok {w : Word32} {j : Instr} :
    decodeKey5 w = .ok j ↔
      ∃ d c e, w = (BitVec.ofBool d ++ c).setWidth 32 ∧ Entry.ofKey d c = some e ∧ j = e.instr d := by
  constructor
  · intro h
    unfold decodeKey5 at h
    split at h
    · next inside =>
      obtain ⟨v, rfl⟩ := exists_setWidth_of_fits inside
      split at h
      · next e key =>
        cases h
        exact ⟨_, _, e, by rw [keyWord_of_fields], key, rfl⟩
      · cases h
    · cases h
  · rintro ⟨d, c, e, rfl, key, rfl⟩
    obtain ⟨dir, code⟩ := keyWord_fields d c
    rw [decodeKey5, if_pos (fits_setWidth _), dir, code, key]

/-- The request bytes: the parity is that of the variable bits (rules R61, R63). -/
theorem decodeReq_eq_ok {w : Word32} {f : Bool → Bool → BitVec 2 → Bool → Instr} {j : Instr} :
    decodeReq w f = .ok j ↔
      ∃ n r a p, w = (reqWord n r a p).setWidth 32 ∧ p = reqParity n r a ∧ j = f n r a p := by
  constructor
  · intro h
    unfold decodeReq at h
    split at h
    · next inside =>
      obtain ⟨v, rfl⟩ := exists_setWidth_of_fits inside
      split at h
      · next fixed =>
        obtain ⟨parity, rfl⟩ := ite_ok_eq_ok.1 h
        exact ⟨_, _, _, _, by rw [reqWord_of_fields v fixed], beq_iff_eq.1 parity, rfl⟩
      · cases h
    · cases h
  · rintro ⟨n, r, a, p, rfl, rfl, rfl⟩
    obtain ⟨fixed, hn, hr, ha, hp⟩ := reqWord_fields n r a (reqParity n r a)
    rw [decodeReq, if_pos (fits_setWidth _), if_pos fixed, hn, hr, ha, hp, if_pos (beq_self_eq_true _)]

/-- The named acknowledge words (rule R66). -/
theorem decodeAck_eq_ok {w : Word32} {j : Instr} :
    decodeAck w = .ok j ↔ ∃ t d,
      (w = (ackWord t Config.ackOk d).setWidth 32 ∧ j = .ackOk t d) ∨
      (w = (ackWord t ackCodeWait d).setWidth 32 ∧ j = .ackWait t d) ∨
      (w = (ackWord t ackCodeFault d).setWidth 32 ∧ j = .ackFault t d) := by
  constructor
  · intro h
    unfold decodeAck at h
    split at h
    · next inside =>
      obtain ⟨v, rfl⟩ := exists_setWidth_of_fits inside
      have word := ackWord_of_fields v
      refine ⟨(v.setWidth 32).getLsbD 0, (v.setWidth 32).getLsbD 4, ?_⟩
      split at h
      · next code =>
        cases h
        rw [code] at word
        exact .inl ⟨by rw [word], rfl⟩
      · split at h
        · next code =>
          cases h
          rw [code] at word
          exact .inr (.inl ⟨by rw [word], rfl⟩)
        · obtain ⟨code, rfl⟩ := ite_ok_eq_ok.1 h
          rw [code] at word
          exact .inr (.inr ⟨by rw [word], rfl⟩)
    · cases h
  · rintro ⟨t, d, ⟨rfl, rfl⟩ | ⟨rfl, rfl⟩ | ⟨rfl, rfl⟩⟩
    all_goals
      obtain ⟨ht, ha, hd⟩ := ackWord_fields t _ d
      rw [decodeAck, if_pos (fits_setWidth _), ha, ht, hd]
      rfl

/-- The row that assigns a phase (rule R11). -/
def phaseInstr : Phase → Instr
  | .request => .phaseRequest
  | .ack => .phaseAck
  | .writeData1 => .phaseWriteData1
  | .writeData2 => .phaseWriteData2
  | .writeData3 => .phaseWriteData3
  | .readData1 => .phaseReadData1
  | .readData2 => .phaseReadData2
  | .readData3 => .phaseReadData3
  | .reset => .phaseReset

/-- The phase codes (rule R11). -/
theorem decodePhase_eq_ok {w : Word32} {j : Instr} :
    decodePhase w = .ok j ↔ ∃ p : Phase, w = p.code.setWidth 32 ∧ j = phaseInstr p := by
  constructor
  · intro h
    unfold decodePhase at h
    split at h
    · next inside =>
      obtain ⟨v, rfl⟩ := exists_setWidth_of_fits inside
      rw [extractLsb'_setWidth_four] at h
      cases named : Phase.ofCode v with
      | none =>
        rw [named] at h
        cases h
      | some p =>
        refine ⟨p, by rw [ofCode_eq_some.1 named], ?_⟩
        rw [named] at h
        cases p <;> exact (Except.ok.inj h).symm
    · cases h
  · rintro ⟨p, rfl, rfl⟩
    rw [decodePhase, if_pos (fits_setWidth _), extractLsb'_setWidth_four, ofCode_eq_some.2 rfl]
    cases p <;> rfl

/-- The pop status codes (rule R77). -/
theorem decodePopst_eq_ok {w : Word32} {j : Instr} :
    decodePopst w = .ok j ↔ (w = 0#32 ∧ j = .popstEmpty) ∨ (w = 1#32 ∧ j = .popstNextArmed) ∨
      (w = 2#32 ∧ j = .popstNextWithheld) := by
  constructor
  · intro h
    unfold decodePopst at h
    split at h
    · next e => cases h; exact .inl ⟨BitVec.eq_of_toNat_eq e, rfl⟩
    · next e => cases h; exact .inr (.inl ⟨BitVec.eq_of_toNat_eq e, rfl⟩)
    · next e => cases h; exact .inr (.inr ⟨BitVec.eq_of_toNat_eq e, rfl⟩)
    · cases h
    · cases h
  · rintro (⟨rfl, rfl⟩ | ⟨rfl, rfl⟩ | ⟨rfl, rfl⟩) <;> rfl

/-! ### Rows with an operand byte -/

theorem decodeNoOper_eq_ok {w : Slot} {d : Except DecodeError Instr} {j : Instr} :
    decodeNoOper w d = .ok j ↔ w.oper = 0#8 ∧ d = .ok j := by
  by_cases h : w.oper = 0#8 <;> simp [decodeNoOper, h]

theorem operIdx_eq_some {b : Byte} {i : BufIdx} : operIdx b = some i ↔ b = BitVec.ofNat 8 i.val := by
  have index := i.isLt
  have value : (BitVec.ofNat 8 i.val).toNat = i.val := by
    rw [BitVec.toNat_ofNat]
    omega
  rw [← BitVec.toNat_inj, value, operIdx]
  by_cases h : b.toNat < 64
  · simp [h, Fin.ext_iff]
  · simp [h]
    omega

theorem decodeIdx_eq_ok {w : Slot} {f : BufIdx → Instr} {j : Instr} :
    decodeIdx w f = .ok j ↔ ∃ i, w = slotAt w.fmt i 0#32 ∧ j = f i := by
  obtain ⟨word, oper, fmt⟩ := w
  have same (i : BufIdx) : (⟨word, oper, fmt⟩ : Slot) = slotAt fmt i 0#32 ↔ word = 0#32 ∧ operIdx oper = some i := by
    rw [slotAt, Slot.mk.injEq, operIdx_eq_some]
    simp
  simp only [same]
  unfold decodeIdx
  by_cases zero : word = 0#32
  · cases index : operIdx oper <;> simp [zero, eq_comm]
  · simp [zero]

theorem decodeBit_eq_ok {w : Slot} {f0 f1 : BufIdx → Instr} {j : Instr} :
    decodeBit w f0 f1 = .ok j ↔ ∃ i, (w = slotAt w.fmt i 0#32 ∧ j = f0 i) ∨ (w = slotAt w.fmt i 1#32 ∧ j = f1 i) := by
  obtain ⟨word, oper, fmt⟩ := w
  have same (i : BufIdx) (k : Word32) :
      (⟨word, oper, fmt⟩ : Slot) = slotAt fmt i k ↔ word = k ∧ operIdx oper = some i := by
    rw [slotAt, Slot.mk.injEq, operIdx_eq_some]
    simp
  simp only [same]
  unfold decodeBit
  cases index : operIdx oper with
  | none => simp
  | some i =>
    simp only [Option.some.injEq, ite_bit_eq_ok]
    constructor
    · exact fun read => ⟨i, by simpa using read⟩
    · rintro ⟨_, ⟨⟨zero, rfl⟩, row⟩ | ⟨⟨one, rfl⟩, row⟩⟩
      · exact .inl ⟨zero, row⟩
      · exact .inr ⟨one, row⟩

/-- The clock-only frames are told apart by their width (rule R71). -/
theorem decodeClk0_eq_ok {w : Slot} {j : Instr} :
    decodeClk0 w = .ok j ↔ w.word = 0#32 ∧
      ((w.oper = 12#8 ∧ j = .clk0w12) ∨ (w.oper = 13#8 ∧ j = .clk0w13) ∨ (w.oper = 8#8 ∧ j = .clk0w8)) := by
  constructor
  · intro h
    unfold decodeClk0 at h
    split at h
    · next zero =>
      refine ⟨zero, ?_⟩
      split at h
      · next e => cases h; exact .inl ⟨BitVec.eq_of_toNat_eq e, rfl⟩
      · next e => cases h; exact .inr (.inl ⟨BitVec.eq_of_toNat_eq e, rfl⟩)
      · next e => cases h; exact .inr (.inr ⟨BitVec.eq_of_toNat_eq e, rfl⟩)
      · cases h
    · cases h
  · obtain ⟨word, oper, fmt⟩ := w
    rintro ⟨rfl, ⟨rfl, rfl⟩ | ⟨rfl, rfl⟩ | ⟨rfl, rfl⟩⟩ <;> rfl

end Sys2Proof
end

section
/-!
The obligations about encodings: the round trips of slots and of bytes, the table's words, and the unused encodings.
-/

namespace Sys2Proof

/-! ### From the operation to its slot and back -/

theorem decodeNoOper_slotOf {n : Nat} (f : Format) (v : BitVec n) (d : Except DecodeError Instr) :
    decodeNoOper (slotOf f v) d = d := if_pos rfl

/-- A word of the slot's own width stands in it as it is. -/
theorem slotOf_word (f : Format) (v : Word32) : (slotOf f v).word = v := BitVec.setWidth_eq v

/-- A row without an operand byte is read from its word alone. -/
theorem decode_slotOf {n : Nat} {f : Format} {v : BitVec n} {d : Except DecodeError Instr} {i : Instr}
    (row : decode (slotOf f v) = decodeNoOper (slotOf f v) d) (word : d = .ok i) : decode (slotOf f v) = .ok i := by
  rw [row, decodeNoOper_slotOf, word]

/-- A word of `n` bits comes back out of the wider register (rules R67, R69). -/
theorem setWidth_setWidth_thirtyTwo {n : Nat} (v : BitVec n) (narrow : n ≤ 32) : (v.setWidth 32).setWidth n = v := by
  rw [BitVec.setWidth_setWidth_of_le v narrow, BitVec.setWidth_eq]

/-- A row whose one operand fills the word is read back (rules R67, R69). -/
theorem decode_wholeWord {n : Nat} {f : Format} {v : BitVec n} {g : BitVec n → Instr} {e : DecodeError} (narrow : n ≤ 32)
    (row : decode (slotOf f v) = decodeNoOper (slotOf f v)
      (if fits n (v.setWidth 32) then .ok (g ((v.setWidth 32).setWidth n)) else .error e)) :
    decode (slotOf f v) = .ok (g v) := by
  refine decode_slotOf row ((if_pos (fits_setWidth v)).trans ?_)
  rw [setWidth_setWidth_thirtyTwo v narrow]

/-- Settles O1: one line for each shape of encoding; the shapes are those of the decoder's parts. -/
theorem decodeOfEncode : Obligations.DecodeOfEncode := by
  intro i wf
  cases i with
  | startW i => exact decode_slotOf rfl (decodeCmd8_eq_ok.2 (.inl ⟨i, slotOf_word _ _, rfl⟩))
  | startR i => exact decode_slotOf rfl (decodeCmd8_eq_ok.2 (.inr (.inl ⟨i, slotOf_word _ _, rfl⟩)))
  | cancel i => exact decode_slotOf rfl (decodeCmd8_eq_ok.2 (.inr (.inr (.inl ⟨i, slotOf_word _ _, rfl⟩))))
  | irqRequest | irqAckR | irqAckW | irqWriteData1 | irqWriteData2 | irqWriteData3 | irqReadData1 | irqReadData2
  | irqReadData3 | irqReset => exact decode_slotOf rfl (decodeKey5_eq_ok.2 ⟨_, _, _, rfl, rfl, rfl⟩)
  | req8 | reqDpW | reqApW | reqDpR | reqApR =>
    exact decode_slotOf rfl (decodeReq_eq_ok.2 ⟨_, _, _, _, rfl, beq_iff_eq.1 wf, rfl⟩)
  | ack5 t a d =>
    obtain ⟨ht, ha, hd⟩ := ackWord_fields t a d
    refine decode_slotOf rfl (ite_ok_eq_ok.2 ⟨fits_setWidth _, ?_⟩)
    rw [slotOf, ht, ha, hd]
  | ackOk t d => exact decode_slotOf rfl (decodeAck_eq_ok.2 ⟨t, d, .inl ⟨rfl, rfl⟩⟩)
  | ackWait t d => exact decode_slotOf rfl (decodeAck_eq_ok.2 ⟨t, d, .inr (.inl ⟨rfl, rfl⟩)⟩)
  | ackFault t d => exact decode_slotOf rfl (decodeAck_eq_ok.2 ⟨t, d, .inr (.inr ⟨rfl, rfl⟩)⟩)
  | rd1 | rd2 | wd1 | wd2 => exact decode_wholeWord (by decide) rfl
  | rd3 d p t =>
    obtain ⟨hd, hp, ht⟩ := rd3Word_fields d p t
    refine decode_slotOf rfl (ite_ok_eq_ok.2 ⟨fits_setWidth _, ?_⟩)
    rw [slotOf, hd, hp, ht]
  | wd3 d p =>
    obtain ⟨hd, hp, top⟩ := wd3Word_fields d p
    refine decode_slotOf rfl ((if_pos (fits_setWidth _)).trans ?_)
    rw [slotOf, top, hd, hp]
    rfl
  | h32 i h =>
    rw [decode, encode, slotAt, operIdx_eq_some.2 rfl]
  | phaseRequest | phaseAck | phaseWriteData1 | phaseWriteData2 | phaseWriteData3 | phaseReadData1 | phaseReadData2
  | phaseReadData3 | phaseReset => exact decode_slotOf rfl (decodePhase_eq_ok.2 ⟨_, rfl, rfl⟩)
  | resSuccess i | stReady i => exact decodeBit_eq_ok.2 ⟨i, .inl ⟨rfl, rfl⟩⟩
  | resParityError i | stBusy i => exact decodeBit_eq_ok.2 ⟨i, .inr ⟨rfl, rfl⟩⟩
  | arm i | complete i | push i => exact decodeIdx_eq_ok.2 ⟨i, rfl, rfl⟩
  | remove i allow =>
    cases allow
    · exact decodeBit_eq_ok.2 ⟨i, .inl ⟨rfl, rfl⟩⟩
    · exact decodeBit_eq_ok.2 ⟨i, .inr ⟨rfl, rfl⟩⟩
  | visitFirst f => cases f <;> rfl
  | setPin d => cases d <;> rfl
  | setFW w => exact decode_slotOf rfl (congrArg (Except.ok <| Instr.setFW ·) (slotOf_word .setFW w))
  | writeTX v => exact decode_slotOf rfl (congrArg (Except.ok <| Instr.writeTX ·) (slotOf_word .writeTX v))
  | reset | irqEntry | bit | ackTx5 | clk0w12 | clk0w13 | clk0w8 | rst16 | popstEmpty | popstNextArmed
  | popstNextWithheld | pinIn | pinOut | pop | finish | startReset | readRX => rfl

/-! ### From a slot to its operation and back -/

/-- What is read is well formed, and its encoding is the slot it is read from. -/
def readsBack (w : Slot) (i : Instr) : Prop := i.wellFormed = true ∧ encode i = w

theorem readsBack_of_noOper {w : Slot} {d : Except DecodeError Instr} {i : Instr} (h : decodeNoOper w d = .ok i)
    (word : d = .ok i → readsBack ⟨w.word, 0#8, w.fmt⟩ i) : readsBack w i := by
  obtain ⟨noOper, read⟩ := decodeNoOper_eq_ok.1 h
  rw [← noOper] at word
  exact word read

theorem slotOf_eq (f : Format) (v : Word32) : slotOf f v = ⟨v, 0#8, f⟩ := by rw [slotOf, BitVec.setWidth_eq]

theorem readsBack_cmd8 {w : Word32} {i : Instr} (h : decodeCmd8 w = .ok i) : readsBack ⟨w, 0#8, .cmd8⟩ i := by
  obtain ⟨i, rfl, rfl⟩ | ⟨i, rfl, rfl⟩ | ⟨i, rfl, rfl⟩ | ⟨rfl, rfl⟩ := decodeCmd8_eq_ok.1 h
  · exact ⟨rfl, slotOf_eq _ _⟩
  · exact ⟨rfl, slotOf_eq _ _⟩
  · exact ⟨rfl, slotOf_eq _ _⟩
  · exact ⟨rfl, rfl⟩

/-- A key that selects an entry is the key of that entry's row. -/
theorem readsBack_key5 {w : Word32} {i : Instr} (h : decodeKey5 w = .ok i) : readsBack ⟨w, 0#8, .irqKey5⟩ i := by
  obtain ⟨d, c, e, rfl, key, rfl⟩ := decodeKey5_eq_ok.1 h
  have selected := Machine.ofKey_selects key
  cases e with
  | ackR | ackW =>
    obtain ⟨rfl, rfl⟩ := selected
    exact ⟨rfl, rfl⟩
  | request | writeData1 | writeData2 | writeData3 | readData1 | readData2 | readData3 | reset =>
    cases selected
    exact ⟨rfl, rfl⟩

theorem readsBack_req8 {w : Word32} {i : Instr} (h : decodeReq w .req8 = .ok i) : readsBack ⟨w, 0#8, .req8⟩ i := by
  obtain ⟨n, r, a, p, rfl, parity, rfl⟩ := decodeReq_eq_ok.1 h
  exact ⟨beq_iff_eq.2 parity, rfl⟩

theorem readsBack_req {w : Word32} {i : Instr} (h : decodeReq w namedReq = .ok i) : readsBack ⟨w, 0#8, .req⟩ i := by
  obtain ⟨n, r, a, p, rfl, parity, rfl⟩ := decodeReq_eq_ok.1 h
  cases n <;> cases r <;> exact ⟨beq_iff_eq.2 parity, rfl⟩

theorem readsBack_ack {w : Word32} {i : Instr} (h : decodeAck w = .ok i) : readsBack ⟨w, 0#8, .ack⟩ i := by
  obtain ⟨t, d, ⟨rfl, rfl⟩ | ⟨rfl, rfl⟩ | ⟨rfl, rfl⟩⟩ := decodeAck_eq_ok.1 h <;> exact ⟨rfl, rfl⟩

theorem readsBack_phase4 {w : Word32} {i : Instr} (h : decodePhase w = .ok i) : readsBack ⟨w, 0#8, .phase4⟩ i := by
  obtain ⟨p, rfl, rfl⟩ := decodePhase_eq_ok.1 h
  cases p <;> exact ⟨rfl, rfl⟩

theorem readsBack_popst {w : Word32} {i : Instr} (h : decodePopst w = .ok i) : readsBack ⟨w, 0#8, .popst⟩ i := by
  obtain ⟨rfl, rfl⟩ | ⟨rfl, rfl⟩ | ⟨rfl, rfl⟩ := decodePopst_eq_ok.1 h <;> exact ⟨rfl, rfl⟩

theorem readsBack_const {w k : Word32} {e : DecodeError} {f : Format} {i j : Instr} (h : decodeConst w k e i = .ok j)
    (row : readsBack ⟨k, 0#8, f⟩ i) : readsBack ⟨w, 0#8, f⟩ j := by
  obtain ⟨rfl, rfl⟩ := decodeConst_eq_ok.1 h
  exact row

theorem readsBack_bit {w : Word32} {e : DecodeError} {f : Format} {i0 i1 j : Instr}
    (h : (if w = 0#32 then (.ok i0 : Except DecodeError Instr) else if w = 1#32 then .ok i1 else .error e) = .ok j)
    (row0 : readsBack ⟨0#32, 0#8, f⟩ i0) (row1 : readsBack ⟨1#32, 0#8, f⟩ i1) : readsBack ⟨w, 0#8, f⟩ j := by
  obtain ⟨rfl, rfl⟩ | ⟨rfl, rfl⟩ := ite_bit_eq_ok.1 h
  · exact row0
  · exact row1

/-- A row whose operands are the fields of a word of `n` bits. -/
theorem readsBack_fits {n : Nat} {w : Word32} {e : DecodeError} {f : Format} {i j : Instr}
    (h : (if fits n w then (.ok i : Except DecodeError Instr) else .error e) = .ok j)
    (row : ∀ v : BitVec n, w = v.setWidth 32 → readsBack ⟨v.setWidth 32, 0#8, f⟩ i) : readsBack ⟨w, 0#8, f⟩ j := by
  obtain ⟨inside, rfl⟩ := ite_ok_eq_ok.1 h
  obtain ⟨v, e⟩ := exists_setWidth_of_fits inside
  rw [e] at row ⊢
  exact row v rfl

/-- The third write frame, whose bit 7 is a driven 0 (rule R69). -/
theorem readsBack_wd3 {w : Word32} {i : Instr}
    (h : (if fits 8 w then
        if w.getLsbD 7 then (.error .fixedBits : Except DecodeError Instr)
        else .ok (.wd3 (w.extractLsb' 0 6) (w.getLsbD 6))
      else .error .strayBits) = .ok i) : readsBack ⟨w, 0#8, .wd3⟩ i := by
  split at h
  · next inside =>
    obtain ⟨v, rfl⟩ := exists_setWidth_of_fits inside
    split at h
    · cases h
    · next top =>
      cases h
      exact ⟨rfl, congrArg (slotOf .wd3) (wd3Word_of_fields v (by simpa using top))⟩
  · cases h

theorem readsBack_idx {w : Slot} {f : BufIdx → Instr} {i : Instr} (h : decodeIdx w f = .ok i)
    (row : ∀ b, readsBack (slotAt w.fmt b 0#32) (f b)) : readsBack w i := by
  obtain ⟨b, e, rfl⟩ := decodeIdx_eq_ok.1 h
  rw [e]
  exact row b

theorem readsBack_idxBit {w : Slot} {f0 f1 : BufIdx → Instr} {i : Instr} (h : decodeBit w f0 f1 = .ok i)
    (row0 : ∀ b, readsBack (slotAt w.fmt b 0#32) (f0 b)) (row1 : ∀ b, readsBack (slotAt w.fmt b 1#32) (f1 b)) :
    readsBack w i := by
  obtain ⟨b, ⟨e, rfl⟩ | ⟨e, rfl⟩⟩ := decodeBit_eq_ok.1 h
  · rw [e]
    exact row0 b
  · rw [e]
    exact row1 b

theorem readsBack_clk0 {w : Slot} {i : Instr} (clk0 : w.fmt = .clk0) (h : decodeClk0 w = .ok i) : readsBack w i := by
  obtain ⟨word, oper, fmt⟩ := w
  obtain rfl : fmt = .clk0 := clk0
  obtain ⟨zero, width⟩ := decodeClk0_eq_ok.1 h
  obtain rfl : word = 0#32 := zero
  obtain ⟨e, rfl⟩ | ⟨e, rfl⟩ | ⟨e, rfl⟩ := width
  · obtain rfl : oper = 12#8 := e
    exact ⟨rfl, rfl⟩
  · obtain rfl : oper = 13#8 := e
    exact ⟨rfl, rfl⟩
  · obtain rfl : oper = 8#8 := e
    exact ⟨rfl, rfl⟩

theorem readsBack_h32 {w : Slot} {i : Instr} (h32 : w.fmt = .h32) (h : decode w = .ok i) : readsBack w i := by
  obtain ⟨word, oper, fmt⟩ := w
  obtain rfl : fmt = .h32 := h32
  unfold decode at h
  cases index : operIdx oper with
  | none =>
    simp only [index] at h
    cases h
  | some b =>
    simp only [index] at h
    cases h
    exact ⟨rfl, by rw [encode, slotAt, operIdx_eq_some.1 index]⟩

/-- Settles O2: the slot of each format that is read as an operation is the encoding of that operation. -/
theorem encodeOfDecode : Obligations.EncodeOfDecode := by
  intro w i h
  obtain ⟨word, oper, fmt⟩ := w
  cases fmt with
  | cmd8 => exact readsBack_of_noOper h readsBack_cmd8
  | irqKey5 => exact readsBack_of_noOper h readsBack_key5
  | guard2 | guard1 | ackTx5 | rst16 | pop | finish | startReset | readRX =>
    exact readsBack_of_noOper h (readsBack_const · ⟨rfl, rfl⟩)
  | req8 => exact readsBack_of_noOper h readsBack_req8
  | req => exact readsBack_of_noOper h readsBack_req
  | ack5 =>
    refine readsBack_of_noOper h (readsBack_fits · fun v e => ⟨rfl, ?_⟩)
    rw [e]
    exact congrArg (slotOf .ack5) (ackWord_of_fields v)
  | ack => exact readsBack_of_noOper h readsBack_ack
  | rd1 =>
    refine readsBack_of_noOper h (readsBack_fits · fun v e => ⟨rfl, ?_⟩)
    rw [e]
    exact congrArg (slotOf .rd1) (setWidth_setWidth_thirtyTwo v (by decide))
  | rd2 =>
    refine readsBack_of_noOper h (readsBack_fits · fun v e => ⟨rfl, ?_⟩)
    rw [e]
    exact congrArg (slotOf .rd2) (setWidth_setWidth_thirtyTwo v (by decide))
  | rd3 =>
    refine readsBack_of_noOper h (readsBack_fits · fun v e => ⟨rfl, ?_⟩)
    rw [e]
    exact congrArg (slotOf .rd3) (rd3Word_of_fields v)
  | clk0 => exact readsBack_clk0 rfl h
  | wd1 =>
    refine readsBack_of_noOper h (readsBack_fits · fun v e => ⟨rfl, ?_⟩)
    rw [e]
    exact congrArg (slotOf .wd1) (setWidth_setWidth_thirtyTwo v (by decide))
  | wd2 =>
    refine readsBack_of_noOper h (readsBack_fits · fun v e => ⟨rfl, ?_⟩)
    rw [e]
    exact congrArg (slotOf .wd2) (setWidth_setWidth_thirtyTwo v (by decide))
  | wd3 => exact readsBack_of_noOper h readsBack_wd3
  | h32 => exact readsBack_h32 rfl h
  | phase4 => exact readsBack_of_noOper h readsBack_phase4
  | res1 | st1 | remove => exact readsBack_idxBit h (fun _ => ⟨rfl, rfl⟩) (fun _ => ⟨rfl, rfl⟩)
  | popst => exact readsBack_of_noOper h readsBack_popst
  | pin1 | visitFirst | setPin => exact readsBack_of_noOper h (readsBack_bit · ⟨rfl, rfl⟩ ⟨rfl, rfl⟩)
  | arm | complete | push => exact readsBack_idx h fun _ => ⟨rfl, rfl⟩
  | setFW | writeTX =>
    refine readsBack_of_noOper h fun read => ?_
    cases read
    exact ⟨rfl, slotOf_eq _ _⟩

/-! ### Bytes -/

theorem ofCode_formatCode (f : Format) : Format.ofCode (BitVec.ofNat 8 f.code).toNat = some f := by
  cases f <;> rfl

/-- The bytes of a slot are read back as the slot, and the bytes after them are left (log entry 7). -/
theorem ofBytes_toBytes (w : Slot) (rest : List Byte) : Slot.ofBytes (w.toBytes ++ rest) = .ok (w, rest) := by
  obtain ⟨word, oper, fmt⟩ := w
  have whole : word.extractLsb' 24 8 ++ word.extractLsb' 16 8 ++ word.extractLsb' 8 8 ++ word.extractLsb' 0 8 = word := by
    rw [BitVec.extractLsb'_append_extractLsb'_eq_extractLsb' (start₂ := 24) (start₁ := 16) rfl,
      BitVec.extractLsb'_append_extractLsb'_eq_extractLsb' (start₂ := 16) (start₁ := 8) rfl,
      BitVec.extractLsb'_append_extractLsb'_eq_extractLsb' (start₂ := 8) (start₁ := 0) rfl]
    exact BitVec.extractLsb'_eq_self
  simp only [Slot.toBytes, List.cons_append, List.nil_append, Slot.ofBytes, ofCode_formatCode, whole]

/-- Settles O3: the bytes are the slot, and the slot is read as its operation. -/
theorem decodeOfBytes : Obligations.DecodeOfBytes := by
  intro i rest wf
  unfold decodeBytes
  simp only [ofBytes_toBytes, decodeOfEncode i wf]

/-! ### Words of the tables -/

/-- Settles O4: thirteen closed words, each decoded by evaluation. -/
theorem tableWordsDecode : Obligations.TableWordsDecode := by
  unfold Obligations.TableWordsDecode
  decide

/-- Settles O6: sixteen closed bytes, assembled by evaluation. -/
theorem sixteenRequestBytes : Obligations.SixteenRequestBytes := by
  unfold Obligations.SixteenRequestBytes
  decide

/-! ### Unused encodings -/

/-- A RESET command word with index bits (rule R78). -/
theorem decodeCmd8_reserved : ∀ w : BitVec 8, w.extractLsb' 0 2 = 3#2 → w ≠ 3#8 →
    decodeCmd8 (w.setWidth 32) = .error .reservedCommand := by decide

/-- A phase code from 9 to 15 as key (rule R78). -/
theorem decodeKey5_reserved (d : Bool) {c : BitVec 4} (h : 9 ≤ c.toNat) :
    decodeKey5 ((BitVec.ofBool d ++ c).setWidth 32) = .error .reservedPhase := by
  obtain ⟨dir, code⟩ := keyWord_fields d c
  rw [decodeKey5, if_pos (fits_setWidth _), dir, code, Machine.ofKey_eq_none_iff.2 h]

theorem ofCode_reserved : ∀ {c : BitVec 4}, 9 ≤ c.toNat → Phase.ofCode c = none := by decide

/-- A phase code from 9 to 15 as stored code (rule R78). -/
theorem decodePhase_reserved {c : BitVec 4} (h : 9 ≤ c.toNat) : decodePhase (c.setWidth 32) = .error .reservedPhase := by
  rw [decodePhase, if_pos (fits_setWidth _), extractLsb'_setWidth_four, ofCode_reserved h]

theorem step_undecodable {s : Machine.State} {w : Slot} {rest : List Machine.Input} {e : DecodeError}
    (script : s.script = .op w :: rest) (h : decode w = .error e) : Machine.step s = .refused (.undecodable e) :=
  (Machine.step_placed script).trans (Machine.runSlot_undecodable h _)

/-- Settles O5: the step refuses under the reason that the part of the decoder gives, whatever the state. -/
theorem unusedEncodingsRefused : Obligations.UnusedEncodingsRefused := by
  refine ⟨fun s rest w low other script => ?_, fun s rest d c unnamed script => ?_, fun s rest c unnamed script => ?_,
    fun s rest script => step_undecodable script rfl⟩
  · exact step_undecodable script (decodeCmd8_reserved w low other)
  · exact step_undecodable script (decodeKey5_reserved d unnamed)
  · exact step_undecodable script (decodePhase_reserved unnamed)

end Sys2Proof
end

section
/-!
Codes assigned to their registers (rules R7, R11, R23, R24, R32, R77), and the accesses of Caller to buffer memory and its queries
(rules R20, R38, R44, R52, R97).
-/

namespace Sys2Proof.Machine

/-! ### Codes -/

/-- Settles O38: a phase row is the assignment of the code, by evaluation. -/
theorem phaseCodes : Obligations.PhaseCodes :=
  fun _ => ⟨rfl, rfl, rfl, rfl, rfl, rfl, rfl, rfl, rfl⟩

/-- Settles O39: the index decides; the code is written into the record of the one buffer. -/
theorem registerCodes : Obligations.RegisterCodes := by
  refine ⟨fun s i named => ?_, fun s i unnamed => ?_, fun s => ⟨rfl, rfl⟩⟩
  · have runs {k : Res State} : withBuffer i s k = k := withBuffer_named named k
    exact ⟨runs, runs, runs, runs⟩
  · have stops {k : Res State} : withBuffer i s k = .refused .noSuchBuffer := withBuffer_unnamed unnamed k
    exact ⟨stops, stops, stops, stops⟩

/-- The status NEXT_ARMED starts nothing (rule R136). -/
theorem afterPop_nextArmed (s : State) : afterPop .nextArmed s = .next s := if_neg (by simp)

theorem afterPop_noReset {p : PopStatus} {s : State} (noReset : s.prst = false) : afterPop p s = .next s :=
  if_neg (by simp [noReset])

theorem afterPop_reset {p : PopStatus} {s : State} (other : p ≠ .nextArmed) (ready : lineResetReady s = true) :
    afterPop p s = .next (lineResetStarted s) := by
  have pending := (lineResetReady_iff.1 ready).1
  rw [afterPop, if_pos ⟨other, pending⟩, startLineReset_ready ready]

theorem exec_popstEmpty (s : State) : exec .popstEmpty s = returning (.popStatus .empty) (afterPop .empty s) := rfl

theorem exec_popstNextArmed (s : State) :
    exec .popstNextArmed s = returning (.popStatus .nextArmed) (afterPop .nextArmed s) := rfl

theorem exec_popstNextWithheld (s : State) :
    exec .popstNextWithheld s = returning (.popStatus .nextWithheld) (afterPop .nextWithheld s) := rfl

/-- Settles O40: the status and the pending line reset decide what FINISH starts. -/
theorem popStatusDecides : Obligations.PopStatusDecides := by
  intro s
  rw [exec_popstEmpty, exec_popstNextArmed, exec_popstNextWithheld]
  refine ⟨?_, fun noReset => ?_, fun pending unarmed phase quiet => ?_⟩
  · rw [afterPop_nextArmed, returning_next]
  · rw [afterPop_noReset noReset, afterPop_noReset noReset, returning_next, returning_next]
    exact ⟨rfl, rfl⟩
  · have ready : lineResetReady s = true := lineResetReady_iff.2 ⟨pending, unarmed, phase, quiet⟩
    rw [afterPop_reset (by decide) ready, afterPop_reset (by decide) ready, returning_next, returning_next]
    exact ⟨rfl, rfl⟩

/-! ### Accesses of Caller -/

/-- Settles O41: the header write is one word store, whose bytes read as stored. -/
theorem headerWrite : Obligations.HeaderWrite := by
  intro s i h named
  refine ⟨fun ready => ⟨_, exec_h32_ready named ready h, fun canonical => ⟨writeWord_wf canonical _ h, ?_⟩⟩,
    fun busy => exec_h32_busy named busy h⟩
  change Memory.read (s.mem.writeWord (hdrAddr s.cfg i) h) (hdrAddr s.cfg i) = _ ∧
    Memory.read (s.mem.writeWord (hdrAddr s.cfg i) h) (hdrAddr s.cfg i + 1) = _ ∧
    Memory.read (s.mem.writeWord (hdrAddr s.cfg i) h) (hdrAddr s.cfg i + 2) = _ ∧
    Memory.read (s.mem.writeWord (hdrAddr s.cfg i) h) (hdrAddr s.cfg i + 3) = _ ∧ _
  refine ⟨?_, ?_, ?_, ?_, fun a outside => read_writeWord_outside canonical h outside⟩
  all_goals rw [read_writeWord canonical]; simp

/-- The bytes of buffer `i` lie inside buffer memory, and their owner is `i` (rules R41, R43). -/
theorem buffer_byte {c : Params} {i : BufIdx} {k : Nat} (named : i.val < c.nbuf) (inside : k < c.stride) :
    i.val * c.stride + k < c.memSize ∧ ownerIdx c (i.val * c.stride + k) = i := by
  have within : i.val * c.stride + k < c.memSize := (Nat.add_lt_add_left inside _).trans_le (buffer_inside named)
  refine ⟨within, Fin.ext ((ownerIdx_val within).trans ?_)⟩
  rw [ownerOf, Nat.mul_comm, Nat.mul_add_div (Nat.zero_lt_of_lt inside), Nat.div_eq_of_lt inside, Nat.add_zero]

theorem callerAccess_ready {a : Nat} {s : State} {k : Res State} (inside : a < s.cfg.memSize)
    (ready : s.st (ownerIdx s.cfg a) = .ready) : callerAccess a s k = k := by
  rw [callerAccess, if_pos inside, if_pos ready]

theorem callerAccess_busy {a : Nat} {s : State} {k : Res State} (inside : a < s.cfg.memSize)
    (busy : s.st (ownerIdx s.cfg a) = .busy) : callerAccess a s k = .refused .busyBuffer := by
  rw [callerAccess, if_pos inside, if_neg (by simp [busy])]

theorem callerAccess_outside {a : Nat} {s : State} {k : Res State} (outside : s.cfg.memSize ≤ a) :
    callerAccess a s k = .fault .badAddress :=
  if_neg (Nat.not_lt.2 outside)

/-- Settles O50: the address names the byte's buffer, whose lifecycle state decides; the queries ask for a buffer only. -/
theorem callerAccesses : Obligations.CallerAccesses := by
  rintro s rest i k a b named inside rfl
  obtain ⟨within, owner⟩ := buffer_byte named inside
  refine ⟨fun script ready => ?_, fun script ready => ⟨_, ?_, fun canonical => read_write canonical _ b⟩,
    fun script busy => ?_, fun script => ?_, fun script => ?_, fun script => ?_, fun x outside script => ?_⟩
  · rw [step_placed script]
    exact callerAccess_ready within (owner.symm ▸ ready)
  · rw [step_placed script]
    exact callerAccess_ready within (owner.symm ▸ ready)
  · obtain script | script := script <;> rw [step_placed script] <;>
      exact callerAccess_busy within (owner.symm ▸ busy)
  · rw [step_placed script]
    exact withBuffer_named named _
  · rw [step_placed script]
    exact withBuffer_named named _
  · rw [step_placed script]
    rfl
  · obtain script | script := script <;> rw [step_placed script] <;> exact callerAccess_outside outside

end Sys2Proof.Machine
end

section
/-!
The data of a transfer: what READ_DATA3 stores (rule R132), how the pieces of a read reassemble (rule R141), and how a write splits
its word (rule R142).
-/

namespace Sys2Proof.Machine

/-! ### Entries that have gone on -/

theorem irqAckR_eq_next {s t : State} (h : exec .irqAckR s = .next t) :
    t = exchangeStarted 0#16
      { s with
        irqp := false, ackr := s.rxr.extractLsb' 1 3, acc := 0#31 ++ s.rxr.extractLsb' 4 1, fw := .w12, phase := 5#4 } := by
  obtain ⟨-, -, -, -, body⟩ := (runEntry_eq_next (e := .ackR)).1 h
  obtain ⟨-, -, rfl⟩ := entryAckR_eq_next.1 body
  rfl

theorem irqReadData1_eq_next {s t : State} {d : Bool} (h : exec (.irqReadData1 d) s = .next t) :
    t = exchangeStarted 0#16
      { s with
        irqp := false
        acc := s.acc.extractLsb' 13 19 ++ s.rxr.extractLsb' 0 12 ++ s.acc.extractLsb' 0 1
        fw := .w13
        phase := 6#4 } := by
  obtain ⟨-, -, -, -, body⟩ := (runEntry_eq_next (e := .readData1)).1 h
  obtain ⟨-, -, rfl⟩ := entryReadData1_eq_next.1 body
  rfl

theorem irqReadData2_eq_next {s t : State} {d : Bool} (h : exec (.irqReadData2 d) s = .next t) :
    t = exchangeStarted 0#16
      { s with
        irqp := false
        acc := s.acc.extractLsb' 26 6 ++ s.rxr.extractLsb' 0 13 ++ s.acc.extractLsb' 0 13
        fw := .w8
        phase := 7#4 } := by
  obtain ⟨-, -, -, -, body⟩ := (runEntry_eq_next (e := .readData2)).1 h
  obtain ⟨-, -, rfl⟩ := entryReadData2_eq_next.1 body
  rfl

theorem irqReadData3_eq_next {s t : State} {d : Bool} {h : BufIdx} (head : s.q.head? = some h)
    (next : exec (.irqReadData3 d) s = .next t) :
    ∃ rest, t = nextStarted rest (headFinished h rest (readStored s.rxr h { s with irqp := false })) := by
  obtain ⟨-, -, -, -, body⟩ := (runEntry_eq_next (e := .readData3)).1 next
  change entryReadData3 _ _ = _ at body
  rw [entryReadData3_head (h := h) (by exact head)] at body
  split at body
  · obtain ⟨x, rest, queue, -, rfl, -⟩ := finishTransfer_cases body
    have queue : s.q = x :: rest := queue
    obtain rfl : x = h := by simpa [queue] using head
    exact ⟨rest, rfl⟩
  · cases body

theorem irqAckW_eq_next {s t : State} {h : BufIdx} (head : s.q.head? = some h) (next : exec .irqAckW s = .next t) :
    t = exchangeStarted (0#3 ++ (payload s h).extractLsb' 0 13)
      { s with
        irqp := false
        ackr := s.rxr.extractLsb' 1 3
        pin := .output
        fw := .w13
        acc := 0#12 ++ BitVec.ofBool (xorfold (payload s h)) ++ (payload s h).extractLsb' 13 19
        phase := 2#4 } := by
  obtain ⟨-, -, -, -, body⟩ := (runEntry_eq_next (e := .ackW)).1 next
  obtain ⟨x, head', -, -, -, rfl⟩ := entryAckW_eq_next.1 body
  have head' : s.q.head? = some x := head'
  obtain rfl : x = h := Option.some.inj (head'.symm.trans head)
  rfl

theorem irqWriteData1_eq_next {s t : State} {d : Bool} (width : s.fw = .w13)
    (next : exec (.irqWriteData1 d) s = .next t) :
    t = exchangeStarted (0#3 ++ s.acc.extractLsb' 0 13)
      { s with irqp := false, acc := 0#13 ++ s.acc.extractLsb' 13 19, phase := 3#4 } := by
  obtain ⟨-, -, -, -, body⟩ := (runEntry_eq_next (e := .writeData1)).1 next
  obtain ⟨-, -, rfl⟩ := entryWriteData1_eq_next.1 body
  rw [← lowBits_thirteen]
  simp only [width, FrameWidth.bits]

theorem irqWriteData2_eq_next {s t : State} {d : Bool} (next : exec (.irqWriteData2 d) s = .next t) :
    t = exchangeStarted (0#8 ++ s.acc.extractLsb' 0 8) { s with irqp := false, fw := .w8, phase := 4#4 } := by
  obtain ⟨-, -, -, -, body⟩ := (runEntry_eq_next (e := .writeData2)).1 next
  obtain ⟨-, -, rfl⟩ := entryWriteData2_eq_next.1 body
  rfl

/-! ### The store of a read -/

/-- The payload that READ_DATA3 has stored is the word it has assembled: finishing the head stores nothing (rule R136). -/
theorem payload_readStored {s : State} {rx : BitVec 16} {h : BufIdx} (canonical : s.mem.wf) (rest : List BufIdx) :
    payload (nextStarted rest (headFinished h rest (readStored rx h s))) h =
      rx.extractLsb' 0 6 ++ s.acc.extractLsb' 0 26 := by
  rw [payload, nextStarted_mem, nextStarted_cfg, headFinished_mem, headFinished_cfg]
  exact readWord_writeWord canonical _ _

/-- Settles O23: one word store, and FINISH stores nothing. -/
theorem readDataThreeStores : Obligations.ReadDataThreeStores := by
  intro s t d h canonical head next
  obtain ⟨rest, rfl⟩ := irqReadData3_eq_next head next
  have stored := payload_readStored (s := { s with irqp := false }) (rx := s.rxr) (h := h) canonical rest
  refine ⟨stored, ?_, fun a outside => ?_⟩
  · rw [stored, nextStarted_acc]
    rfl
  · rw [nextStarted_mem, headFinished_mem]
    exact read_writeWord_outside canonical _ outside

/-! ### The pieces of a read -/

/-- The low fields of three appended words. -/
theorem extractLsb'_append_append {a b c : Nat} (x : BitVec a) (y : BitVec b) (z : BitVec c) :
    (x ++ y ++ z).extractLsb' 0 (b + c) = y ++ z := by
  apply BitVec.eq_of_getLsbD_eq
  intro k hk
  rw [BitVec.getLsbD_extractLsb', BitVec.getLsbD_append, BitVec.getLsbD_append, BitVec.getLsbD_append]
  by_cases low : k < c
  · simp [hk, low]
  · simp [hk, low, show k - c < b by omega]

/-- The fields of the first word a read receives (rules R65, R128). -/
theorem ack_fields (x : BitVec 11) (b : BitVec 1) (a : BitVec 3) (t : BitVec 1) :
    (x ++ b ++ a ++ t).extractLsb' 1 3 = a ∧ (x ++ b ++ a ++ t).extractLsb' 4 1 = b := by
  constructor
  · rw [BitVec.extractLsb'_append_eq_of_le (by decide)]
    exact BitVec.extractLsb'_append_eq_right
  · rw [BitVec.extractLsb'_append_eq_of_le (by decide), BitVec.extractLsb'_append_eq_of_le (by decide)]
    exact BitVec.extractLsb'_append_eq_right

/-- Settles O30: each entry extends the part of ACC that is the data word's, to 1, 13, 26 and 32 bits. -/
theorem readReassemblesWord : Obligations.ReadReassemblesWord := by
  intro s s1 s2 s3 s4 h D a q t0 t1 canonical head next1 next2 next3 next4
  have join (lo n m : Nat) : D.extractLsb' (lo + m) n ++ D.extractLsb' lo m = D.extractLsb' lo (n + m) :=
    BitVec.extractLsb'_append_extractLsb'_eq_extractLsb' rfl
  obtain ⟨code, bit⟩ := ack_fields 0#11 (D.extractLsb' 0 1) a (BitVec.ofBool t0)
  have e1 := irqAckR_eq_next next1
  have e2 := irqReadData1_eq_next next2
  have e3 := irqReadData2_eq_next next3
  have ackr : s3.ackr = a := by
    rw [e3, e2, e1]
    exact code
  have acc1 : s1.acc = 0#31 ++ D.extractLsb' 0 1 := by
    rw [e1]
    exact congrArg (0#31 ++ ·) bit
  have acc2 : s2.acc.extractLsb' 0 13 = D.extractLsb' 0 13 := by
    rw [e2]
    refine (extractLsb'_append_append (b := 12) (c := 1) _ _ _).trans ?_
    rw [acc1, BitVec.extractLsb'_append_eq_right, BitVec.extractLsb'_append_eq_right]
    exact join 0 12 1
  have acc3 : s3.acc.extractLsb' 0 26 = D.extractLsb' 0 26 := by
    rw [e3]
    refine (extractLsb'_append_append (b := 13) (c := 13) _ _ _).trans ?_
    rw [acc2, BitVec.extractLsb'_append_eq_right]
    exact join 0 13 13
  have head3 : s3.q.head? = some h := by
    rw [e3, e2, e1]
    exact head
  have canonical3 : s3.mem.wf := by
    rw [e3, e2, e1]
    exact canonical
  have word : (0#8 ++ BitVec.ofBool t1 ++ BitVec.ofBool q ++ D.extractLsb' 26 6).extractLsb' 0 6 ++
      s3.acc.extractLsb' 0 26 = D := by
    rw [acc3, BitVec.extractLsb'_append_eq_right]
    exact (join 0 6 26).trans BitVec.extractLsb'_eq_self
  obtain ⟨rest, rfl⟩ := irqReadData3_eq_next (by exact head3) next4
  refine ⟨?_, (payload_readStored (by exact canonical3) rest).trans word, ?_, ?_, ?_⟩
  · rw [nextStarted_acc]
    exact word
  · rw [nextStarted_rpar]
    change (0#8 ++ BitVec.ofBool t1 ++ BitVec.ofBool q ++ D.extractLsb' 26 6).getLsbD 6 = q
    rw [BitVec.getLsbD_append, BitVec.getLsbD_append]
    simp
  · rw [nextStarted_ackr]
    exact ackr
  · rw [nextStarted_res, headFinished_res]
    change (if s3.ackr = 1#3 then Result.success else Result.parityError) = _
    rw [ackr]

/-! ### The pieces of a write -/

/-- What goes out of the stash in 8 bits and 13 bits, and the 13 bits before them, are the payload word below its parity and a 0
(rule R69). -/
theorem stash_pieces (P : Word32) (parity : BitVec 1) (stash : Word32) (e : stash = 0#12 ++ parity ++ P.extractLsb' 13 19) :
    (0#13 ++ stash.extractLsb' 13 19 : Word32).extractLsb' 0 8 ++ stash.extractLsb' 0 13 ++ P.extractLsb' 0 13 =
      0#1 ++ parity ++ P := by
  subst e
  apply BitVec.eq_of_getLsbD_eq
  intro k hk
  simp only [BitVec.getLsbD_append, BitVec.getLsbD_extractLsb']
  by_cases first : k < 13
  · simp [first, show k < 32 by omega]
  · by_cases second : k < 26
    · simp [first, show k - 13 < 13 by omega, show k - 13 < 19 by omega, show k < 32 by omega,
        show 13 + (k - 13) = k by omega]
    · by_cases third : k < 32
      · simp [first, show ¬k - 13 < 13 by omega, third, show k - 13 - 13 < 8 by omega, show k - 13 - 13 < 19 by omega,
          show 13 + (k - 13 - 13) < 19 by omega, show 13 + (13 + (k - 13 - 13)) = k by omega]
      · obtain rfl | rfl : k = 32 ∨ k = 33 := by omega
        · simp
        · simp

/-- Settles O31: the payload's low 13 bits go out at once, the others and the parity pass through the stash in ACC. -/
theorem writeSplitsWord : Obligations.WriteSplitsWord := by
  intro s s1 s2 s3 h head next1 next2 next3
  have e1 := irqAckW_eq_next head next1
  have width1 : s1.fw = .w13 := by rw [e1]; rfl
  have pin1 : s1.pin = .output := by rw [e1]; rfl
  have acc1 : s1.acc = 0#12 ++ BitVec.ofBool (xorfold (payload s h)) ++ (payload s h).extractLsb' 13 19 := by
    rw [e1]; rfl
  have tx1 : s1.txr.extractLsb' 0 13 = (payload s h).extractLsb' 0 13 := by
    rw [e1]
    exact BitVec.extractLsb'_append_eq_right
  have e2 := irqWriteData1_eq_next (by exact width1) next2
  have acc2 : s2.acc = 0#13 ++ s1.acc.extractLsb' 13 19 := by rw [e2]; rfl
  have tx2 : s2.txr.extractLsb' 0 13 = s1.acc.extractLsb' 0 13 := by
    rw [e2]
    exact BitVec.extractLsb'_append_eq_right
  have e3 := irqWriteData2_eq_next next3
  have tx3 : s3.txr.extractLsb' 0 8 = s2.acc.extractLsb' 0 8 := by
    rw [e3]
    exact BitVec.extractLsb'_append_eq_right
  refine ⟨?_, width1, ?_, ?_, pin1, ?_, ?_⟩
  · rw [tx1, tx2, tx3, acc2]
    exact stash_pieces _ _ _ acc1
  · rw [e2]; exact width1
  · rw [e3]; rfl
  · rw [e2]; exact pin1
  · rw [e3, e2]; exact pin1

end Sys2Proof.Machine
end

section
/-!
Whole exchanges (rules R170 to R173): a frame of the target is received as it is, a frame of the host goes out as it is, and a
clock-only frame receives what the target answers.
-/

namespace Sys2Proof.Machine

/-! ### Bits presented -/

/-- The bits that an exchange of `n` cycles presents are the low `n` bits of the transmit register (rule R171). -/
theorem bitsFrom_zero (v : BitVec 16) (n : Nat) : bitsFrom v 0 n = wireBits (v.setWidth n) := by
  refine List.map_congr_left fun j inside => ?_
  rw [Nat.zero_add, BitVec.getLsbD_setWidth, decide_eq_true (List.mem_range.1 inside), Bool.true_and]

/-- The transmit value 0 presents 0 in every cycle (rule R71). -/
theorem bitsFrom_zero_value (k n : Nat) : bitsFrom 0#16 k n = List.replicate n false := by
  refine List.eq_replicate_iff.2 ⟨bitsFrom_length _ _ _, fun b mem => ?_⟩
  obtain ⟨j, -, rfl⟩ := List.mem_map.1 mem
  exact BitVec.getLsbD_zero

/-! ### The exchange of a frame in its place -/

/-- All the bit cycles of an exchange in flight that has done none: the word received and the cycles on the wire are those of the
bits sampled (rules R171 to R173). -/
theorem bitCycles_due {p : Phase} {w : FrameWidth} {d : Pin} {s : State} (due : frameDue p w d s) :
    ∃ bs tgt dr, bs.length = w.bits ∧
      bitCycles w.bits s = exchangeDone (wordOfBits bs) (cyclesOf d (bitsFrom s.txr 0 w.bits) bs)
        { s with target := tgt, draws := dr } ∧
      (d = .output → tgt = s.target ∧ dr = s.draws + w.bits) ∧
      (d = .input → dr = s.draws ∧ tgt = s.target.drop w.bits ∧
        (∀ v rest, s.target = v ++ rest → v.length = w.bits → bs = v) ∧
        ∀ k, k < w.bits → bs[k]? = some (s.target[k]?.getD
          (Config.targetBit (s.wire ++ cyclesOf .input (bitsFrom s.txr 0 k) (bs.take k))))) := by
  obtain ⟨-, count, shift, -, rfl, rfl⟩ := due
  have whole : s.xcnt.toNat + s.fw.bits = s.fw.bits := by simp [count]
  obtain ⟨bs, tgt, dr, length, run, driven, sampled⟩ :=
    bitCycles_complete s.fw.bits s whole (Nat.lt_of_lt_of_le (by decide) (fw_bits_pos s.fw))
  rw [count] at run sampled
  refine ⟨bs, tgt, dr, length, ?_, fun output => (driven output).2, sampled⟩
  rw [run, shift]
  change _ = { s with
    rxr := wordOfBits bs
    rxsh := wordOfBits bs
    xcnt := BitVec.ofNat 5 s.fw.bits
    xbusy := false
    irqp := true
    wire := s.wire ++ cyclesOf s.pin (bitsFrom s.txr 0 s.fw.bits) bs
    target := tgt
    draws := dr }
  rw [← placeBits_zero]
  rfl

/-- A frame of the target in its place is received as it is (rules R65, R67). -/
theorem exec_target_frame {i : Instr} {f : FrameRow} {b : List Bool} {s : State} (row : frameRow i = some f)
    (bits : f.bits = .target b) (length : b.length = f.width.bits) (input : f.pin = .input)
    (due : frameDue f.phase f.width .input s) :
    exec i s = .next (exchangeDone (wordOfBits b) (cyclesOf .input (wireBits (s.txr.setWidth f.width.bits)) b) s) := by
  obtain ⟨bs, tgt, dr, -, run, -, sampled⟩ := bitCycles_due (s := { s with target := b ++ s.target }) (by exact due)
  obtain ⟨rfl, rfl, given, -⟩ := sampled rfl
  obtain rfl := given b s.target rfl length
  rw [exec_frameRow row, runFrame_target bits (input ▸ due.starts), run, bitsFrom_zero, ← length]
  simp

/-- A frame of the host in its place goes out as it is, and free values are sampled (rules R61, R69, R70, R172). -/
theorem exec_host_frame {i : Instr} {f : FrameRow} {v : BitVec 16} {s : State} (row : frameRow i = some f)
    (bits : f.bits = .host v) (output : f.pin = .output) (due : frameDue f.phase f.width .output s) (tx : s.txr = v) :
    ∃ b : List Bool, b.length = f.width.bits ∧ exec i s = .next (exchangeDone (wordOfBits b)
      (cyclesOf .output (wireBits (v.setWidth f.width.bits)) b) { s with draws := s.draws + f.width.bits }) := by
  obtain ⟨bs, tgt, dr, length, run, driven, -⟩ := bitCycles_due due
  obtain ⟨rfl, rfl⟩ := driven rfl
  refine ⟨bs, length, ?_⟩
  rw [exec_frameRow row, runFrame_host bits (output ▸ due.starts) tx, run, bitsFrom_zero, tx]

/-- A clock-only frame in its place presents zeros and receives what the target answers (rules R71, R172). -/
theorem exec_clock_frame {i : Instr} {f : FrameRow} {s : State} (row : frameRow i = some f) (bits : f.bits = .host 0#16)
    (input : f.pin = .input) (due : frameDue f.phase f.width .input s) (tx : s.txr = 0#16) :
    ∃ b : List Bool, b.length = f.width.bits ∧ answeredBy s b ∧ exec i s = .next (exchangeDone (wordOfBits b)
      (cyclesOf .input (List.replicate f.width.bits false) b) { s with target := s.target.drop f.width.bits }) := by
  obtain ⟨bs, tgt, dr, length, run, -, sampled⟩ := bitCycles_due due
  obtain ⟨rfl, rfl, given, each⟩ := sampled rfl
  refine ⟨bs, length, ⟨fun v rest e sameLength => given v rest e (sameLength.trans length), fun k inside => ?_⟩, ?_⟩
  · rw [← bitsFrom_zero_value 0 k, ← tx]
    exact each k (length ▸ inside)
  · rw [exec_frameRow row, runFrame_host bits (input ▸ due.starts) tx, run, tx, bitsFrom_zero_value]

/-! ### Frames of the target -/

/-- The word of an acknowledge frame (rule R65). -/
theorem wordOfBits_ack (t : Bool) (a : BitVec 3) (d : Bool) :
    wordOfBits [t, a.getLsbD 0, a.getLsbD 1, a.getLsbD 2, d] = 0#11 ++ BitVec.ofBool d ++ a ++ BitVec.ofBool t := by
  revert t a d; decide

/-- The word of a third read frame (rule R67). -/
theorem wordOfBits_rd3 (d : BitVec 6) (p t : Bool) :
    wordOfBits (wireBits d ++ [p, t]) = 0#8 ++ BitVec.ofBool t ++ BitVec.ofBool p ++ d := by
  rw [← wireBits_rd3Word, wordOfBits_wireBits, setWidth_eq_zero_append 8, rd3Word]
  simp only [BitVec.append_assoc, BitVec.cast_eq]

/-- An acknowledge frame in its place, with any code, is received as it is (rules R65, R66). -/
theorem exec_ack_frame {i : Instr} {t d : Bool} {a : BitVec 3} {s : State}
    (row : frameRow i = some ⟨.ack, .w5, .input, .target [t, a.getLsbD 0, a.getLsbD 1, a.getLsbD 2, d]⟩)
    (due : frameDue .ack .w5 .input s) :
    exec i s = .next (exchangeDone (0#11 ++ BitVec.ofBool d ++ a ++ BitVec.ofBool t)
      (cyclesOf .input (wireBits (s.txr.setWidth 5)) [t, a.getLsbD 0, a.getLsbD 1, a.getLsbD 2, d]) s) := by
  have received := exec_target_frame row rfl rfl rfl due
  rw [wordOfBits_ack] at received
  exact received

/-- Settles O33: the word received is the word of the frame's bits; the named acknowledge frames have their code written out. -/
theorem targetFramesReceived : Obligations.TargetFramesReceived := by
  refine ⟨fun s t d a due => exec_ack_frame rfl due, fun s t d due =>
    ⟨exec_ack_frame (a := 0b001#3) rfl due, exec_ack_frame (a := 0b010#3) rfl due, exec_ack_frame (a := 0b100#3) rfl due⟩,
    fun s d due => ?_, fun s d due => ?_, fun s d p t due => ?_⟩
  · have received := exec_target_frame (i := .rd1 d) rfl rfl (wireBits_length d) rfl due
    rw [wordOfBits_wireBits, setWidth_eq_zero_append 4] at received
    exact received
  · have received := exec_target_frame (i := .rd2 d) rfl rfl (wireBits_length d) rfl due
    rw [wordOfBits_wireBits, setWidth_eq_zero_append 3] at received
    exact received
  · have length : (wireBits d ++ [p, t]).length = 8 := by
      rw [List.length_append, wireBits_length, List.length_cons, List.length_singleton]
    have received := exec_target_frame (i := .rd3 d p t) rfl rfl length rfl due
    rw [wordOfBits_rd3] at received
    exact received

/-! ### Frames of the host -/

/-- The request byte in wire order (rule R61). -/
theorem wireBits_request (n r : Bool) (a : BitVec 2) (p : Bool) :
    wireBits ((0#8 ++ reqWord n r a p).setWidth 8) = [true, n, r, a.getLsbD 0, a.getLsbD 1, p, false, true] := by
  revert n r a p; decide

/-- The third write frame in wire order (rule R69). -/
theorem wireBits_wd3 (d : BitVec 6) (p : Bool) :
    wireBits ((0#9 ++ BitVec.ofBool p ++ d).setWidth 8) = wireBits d ++ [p, false] := by
  revert d p; decide

theorem wireBits_wd (d : BitVec 13) : wireBits ((0#3 ++ d).setWidth 13) = wireBits d := by
  rw [BitVec.setWidth_append_eq_right]

/-- The rows that a reader of the request byte selects run as the request byte (rules R62, R80). -/
theorem exec_namedReq (n r : Bool) (a : BitVec 2) (p : Bool) (s : State) :
    exec (namedReq n r a p) s = exec (.req8 n r a p) s := by
  cases n <;> cases r <;> rfl

/-- Settles O34: one shape for all rows; the bits driven are those of the transmit register at the row's width. -/
theorem hostFramesSent : Obligations.HostFramesSent := by
  refine ⟨fun s n r a p due tx => ?_, fun s d due tx => ?_, fun s d due tx => ?_, fun s d p due tx => ?_,
    fun s due tx => ?_⟩
  · obtain ⟨b, length, sent⟩ := exec_host_frame (i := .req8 n r a p) rfl rfl rfl due tx
    rw [← wireBits_request]
    exact ⟨b, length, sent, exec_namedReq n r a p s⟩
  · rw [← wireBits_wd]
    exact exec_host_frame (i := .wd1 d) rfl rfl rfl due tx
  · rw [← wireBits_wd]
    exact exec_host_frame (i := .wd2 d) rfl rfl rfl due tx
  · rw [← wireBits_wd3]
    exact exec_host_frame (i := .wd3 d p) rfl rfl rfl due tx
  · have ones : wireBits ((0xFFFF#16).setWidth 16) = List.replicate 16 true := by decide
    rw [← ones]
    exact exec_host_frame (i := .rst16) rfl rfl rfl due tx

/-! ### Clock-only frames -/

/-- Settles O35: one shape for the four rows. -/
theorem clockOnlyFrames : Obligations.ClockOnlyFrames := by
  intro s tx
  refine ⟨fun due => ?_, fun due => ?_, fun due => ?_, fun due => ?_⟩
  · exact exec_clock_frame (i := .ackTx5) rfl rfl rfl due tx
  · exact exec_clock_frame (i := .clk0w12) rfl rfl rfl due tx
  · exact exec_clock_frame (i := .clk0w13) rfl rfl rfl due tx
  · exact exec_clock_frame (i := .clk0w8) rfl rfl rfl due tx

end Sys2Proof.Machine
end

section
/-!
What no step undoes (rules R25 to R28, R172): the histories grow, the parameters, the mask and the canonical form of the memory stay,
and no free value is drawn twice; and which rows store to buffer memory (rule R44).
-/

namespace Sys2Proof.Machine

/-! ### Free values -/

theorem drawsFrom_length (d n : Nat) : (drawsFrom d n).length = n := by simp [drawsFrom]

theorem drawsFrom_getElem? {d n k : Nat} (inside : k < n) : (drawsFrom d n)[k]? = some (Config.drawBit (d + k)) := by
  simp [drawsFrom, inside]

/-- Free values drawn in two runs one after the other are those of one run. -/
theorem drawsFrom_add (d m n : Nat) : drawsFrom d (m + n) = drawsFrom d m ++ drawsFrom (d + m) n := by
  simp [drawsFrom, List.range_add, Nat.add_assoc]

theorem drivenSamples_append (c c' : List WireCycle) :
    drivenSamples (c ++ c') = drivenSamples c ++ drivenSamples c' := by
  rw [drivenSamples, List.filter_append, List.map_append, drivenSamples, drivenSamples]

/-- The wire goes on by cycles, of which the driven ones sample the next free values, one each (rule R172; log entry 4). -/
def drawsOnce (s t : State) : Prop :=
  ∃ c n, t.wire = s.wire ++ c ∧ t.draws = s.draws + n ∧ drivenSamples c = drawsFrom s.draws n

theorem drawsOnce_of_noCycle {s t : State} (wire : t.wire = s.wire) (draws : t.draws = s.draws) : drawsOnce s t :=
  ⟨[], 0, by rw [wire, List.append_nil], draws, rfl⟩

theorem drawsOnce.trans {s t u : State} (first : drawsOnce s t) (others : drawsOnce t u) : drawsOnce s u := by
  obtain ⟨c, m, wire, draws, driven⟩ := first
  obtain ⟨c', n, wire', draws', driven'⟩ := others
  refine ⟨c ++ c', m + n, ?_, ?_, ?_⟩
  · rw [wire', wire, List.append_assoc]
  · rw [draws', draws, Nat.add_assoc]
  · rw [drivenSamples_append, driven, driven', draws, drawsFrom_add]

/-! ### What every step keeps -/

/-- What no step undoes, from a state to the next. -/
structure Grows (s t : State) : Prop where
  events : s.evt <+: t.evt := by exact List.prefix_refl _
  cfg : t.cfg = s.cfg := by rfl
  imask : t.imask = s.imask := by rfl
  canonical : s.mem.wf → t.mem.wf := by exact id
  cycles : drawsOnce s t := by exact drawsOnce_of_noCycle rfl rfl

theorem Grows.trans {s t u : State} (first : Grows s t) (others : Grows t u) : Grows s u where
  events := first.events.trans others.events
  cfg := others.cfg.trans first.cfg
  imask := others.imask.trans first.imask
  canonical := others.canonical ∘ first.canonical
  cycles := first.cycles.trans others.cycles

/-- The cycle of a shifted bit is appended to the wire. -/
theorem shiftBit_wire (b : Bool) (s : State) : (shiftBit b s).wire =
    s.wire ++ [{ oe := s.pin.code, o := s.txr.getLsbD s.xcnt.toNat, s := b }] := by
  unfold shiftBit
  exact (apply_ite State.wire _ _ _).trans (ite_self _)

theorem bitCycle_drawsOnce (s : State) : drawsOnce s (bitCycle s) := by
  obtain ⟨b, tgt, d, sampled, driven, undriven⟩ := sample_spec s
  have runs : bitCycle s = shiftBit b { s with target := tgt, draws := d } := by rw [bitCycle, sampled]
  have wire := shiftBit_wire b { s with target := tgt, draws := d }
  obtain ⟨_, _, _, _, _, _, frame⟩ := shiftBit_frame b { s with target := tgt, draws := d }
  have draws : (bitCycle s).draws = d := by rw [runs, frame]
  rw [← runs] at wire
  cases pin : s.pin with
  | output =>
    obtain ⟨rfl, -, rfl⟩ := driven pin
    exact ⟨_, 1, wire, draws, by simp [drivenSamples, drawsFrom, pin, Pin.code]⟩
  | input =>
    obtain ⟨rfl, -, -⟩ := undriven pin
    exact ⟨_, 0, wire, draws, by simp [drivenSamples, drawsFrom, pin, Pin.code]⟩

theorem bitCycle_grows (s : State) : Grows s (bitCycle s) := by
  have cycles := bitCycle_drawsOnce s
  obtain ⟨_, _, _, _, _, _, _, _, e⟩ := bitCycle_frame s
  rw [e] at cycles ⊢
  exact { cycles := cycles }

theorem bitCycles_grows (n : Nat) : ∀ s : State, Grows s (bitCycles n s) := by
  induction n with
  | zero => exact fun s => {}
  | succ n ih => exact fun s => (bitCycle_grows s).trans (ih (bitCycle s))

theorem CallerMove.grows {s t : State} (move : CallerMove s t) : Grows s t := by
  cases move with
  | byteWritten a b => exact { canonical := fun wf => write_wf wf a b }
  | headerWritten i h => exact { canonical := fun wf => writeWord_wf wf _ h }
  | queued d i | started d i => exact { canonical := fun wf => writeWord_wf wf _ _ }
  | cancelled => exact { events := List.prefix_append _ _ }
  | answered | resetDeferred | resetStarted => exact {}

/-- What the end of a transfer starts is started without a cycle and without an event. -/
theorem nextStarted_grows {rest : List BufIdx} {s t : State} (h : Grows s t) : Grows s (nextStarted rest t) := by
  have started : Grows t (nextStarted rest t) :=
    { events := nextStarted_evt rest t ▸ List.prefix_refl _
      cfg := nextStarted_cfg rest t
      imask := nextStarted_imask rest t
      canonical := fun wf => nextStarted_mem rest t ▸ wf
      cycles := drawsOnce_of_noCycle (nextStarted_wire rest t) (nextStarted_draws rest t) }
  exact h.trans started

theorem EntryMove.grows {s t : State} (move : EntryMove s t) : Grows s t := by
  cases move with
  | finished p h rest acc rpar m _ _ _ _ stores =>
    refine nextStarted_grows { events := List.prefix_append _ _, canonical := fun wf => ?_ }
    obtain rfl | ⟨-, rfl⟩ := stores
    · exact wf
    · exact writeWord_wf wf _ _
  | onward | resetWord | resetEnded | resetEndedArmed => exact {}

theorem AgentMove.grows {s t : State} (move : AgentMove s t) : Grows s t := by
  cases move with
  | caller move => exact move.grows
  | entry e runs => exact (entryMove_of_runEntry runs).grows
  | bit => exact bitCycle_grows s
  | frame f tgt =>
    have before : Grows s { s with target := tgt } := {}
    exact before.trans (bitCycles_grows _ _)

/-! ### Parts of steps -/

/-- An operation that stores nothing. -/
def growsInPlace (s t : State) : Prop := Grows s t ∧ t.mem = s.mem

/-- The answer of an operation is in neither history. -/
theorem growsInPlace.withRet {s t : State} (h : growsInPlace s t) (r : Ret) : growsInPlace s { t with ret := r } := by
  obtain ⟨grows, mem⟩ := h
  have answer : Grows t { t with ret := r } := {}
  exact ⟨grows.trans answer, mem⟩

theorem growsInPlace_of_returning {r : Ret} {x : Res State} {s t : State} (h : returning r x = .next t)
    (inPlace : ∀ u, x = .next u → growsInPlace s u) : growsInPlace s t := by
  obtain ⟨u, next, rfl⟩ := returning_eq_next.1 h
  exact (inPlace u next).withRet r

theorem armBuffer_growsInPlace {i : BufIdx} {s t : State} (h : armBuffer i s = .next t) : growsInPlace s t := by
  obtain ⟨-, -, rfl⟩ := armBuffer_eq_next.1 h
  exact ⟨{}, rfl⟩

theorem completeBuffer_growsInPlace (i : BufIdx) (s : State) : growsInPlace s (completeBuffer i s) :=
  ⟨{ events := List.prefix_append _ _ }, rfl⟩

theorem startLineReset_growsInPlace {s t : State} (h : startLineReset s = .next t) : growsInPlace s t := by
  obtain ⟨-, rfl⟩ := startLineReset_eq_next.1 h
  exact ⟨{}, rfl⟩

theorem afterPop_growsInPlace {p : PopStatus} {s t : State} (h : afterPop p s = .next t) : growsInPlace s t := by
  unfold afterPop at h
  split at h
  · exact startLineReset_growsInPlace h
  · cases h
    exact ⟨{}, rfl⟩

theorem pushBuffer_growsInPlace {i : BufIdx} {s : State} {x : Bool × State} (h : pushBuffer i s = .next x) :
    growsInPlace s x.2 := by
  obtain ⟨-, rfl⟩ := pushBuffer_eq_next.1 h
  exact ⟨{}, rfl⟩

theorem removeBuffer_growsInPlace {i : BufIdx} {allow : Bool} {s : State} {x : Bool × State}
    (h : removeBuffer i allow s = .next x) : growsInPlace s x.2 := by
  obtain ⟨-, rfl⟩ | ⟨-, -, -, rfl⟩ | ⟨-, -, rfl⟩ := removeBuffer_eq_next.1 h
  · exact ⟨{}, rfl⟩
  · exact ⟨{}, rfl⟩
  · exact ⟨{}, rfl⟩

theorem popHead_growsInPlace {s : State} {x : PopStatus × State} (h : popHead s = .next x) : growsInPlace s x.2 := by
  obtain ⟨i, rest, -, -, h⟩ := popHead_eq_next.1 h
  have completed : growsInPlace s (completeBuffer i { s with q := rest, armed := false }) :=
    ⟨{ events := List.prefix_append _ _ }, rfl⟩
  obtain ⟨-, rfl⟩ | ⟨_, _, -, -, rfl⟩ | ⟨n, _, u, -, -, arm, rfl⟩ := h
  · exact completed
  · exact completed
  · obtain ⟨grows, mem⟩ := completed
    obtain ⟨grows', mem'⟩ := armBuffer_growsInPlace arm
    exact ⟨grows.trans grows', mem'.trans mem⟩

theorem visitHead_growsInPlace {f : VisitOp} {s t : State} (h : visitHead f s = .next t) : growsInPlace s t := by
  cases queue : s.q with
  | nil =>
    rw [visitHead_empty queue] at h
    cases h
    exact ⟨{}, rfl⟩
  | cons i rest =>
    rw [visitHead_head queue] at h
    cases f with
    | arm => exact armBuffer_growsInPlace h
    | complete =>
      cases h
      exact completeBuffer_growsInPlace i s

theorem finishTransfer_growsInPlace {s t : State} (h : finishTransfer s = .next t) : growsInPlace s t := by
  obtain ⟨i, rest, -, -, rfl, -⟩ := finishTransfer_cases h
  exact ⟨nextStarted_grows { events := List.prefix_append _ _ }, nextStarted_mem _ _⟩

theorem setWidthBits_growsInPlace {n : Nat} {s t : State} (h : setWidthBits n s = .next t) : growsInPlace s t := by
  unfold setWidthBits at h
  split at h
  · cases h
  · obtain ⟨-, rfl⟩ := setWidthTo_eq_next.1 h
    exact ⟨{}, rfl⟩

/-- The operations that are no step of an agent: parts of steps, which store nothing. -/
theorem part_growsInPlace {i : Instr} {s t : State} (part : isAgentStep i = false) (h : exec i s = .next t) :
    growsInPlace s t := by
  cases i with
  | phaseRequest | phaseAck | phaseWriteData1 | phaseWriteData2 | phaseWriteData3 | phaseReadData1 | phaseReadData2
  | phaseReadData3 | phaseReset | pinIn | pinOut | setPin =>
    cases h
    exact ⟨{}, rfl⟩
  | resSuccess | resParityError | stReady | stBusy =>
    obtain ⟨-, next⟩ := withBuffer_eq_next.1 h
    cases next
    exact ⟨{}, rfl⟩
  | popstEmpty =>
    rw [exec_popstEmpty] at h
    exact growsInPlace_of_returning h fun _ => afterPop_growsInPlace
  | popstNextArmed =>
    rw [exec_popstNextArmed] at h
    exact growsInPlace_of_returning h fun _ => afterPop_growsInPlace
  | popstNextWithheld =>
    rw [exec_popstNextWithheld] at h
    exact growsInPlace_of_returning h fun _ => afterPop_growsInPlace
  | arm =>
    obtain ⟨-, next⟩ := withBuffer_eq_next.1 h
    exact growsInPlace_of_returning next fun _ => armBuffer_growsInPlace
  | complete i =>
    obtain ⟨-, next⟩ := withBuffer_eq_next.1 h
    cases next
    exact (completeBuffer_growsInPlace i s).withRet _
  | push =>
    obtain ⟨-, next⟩ := withBuffer_eq_next.1 h
    obtain ⟨x, pushed, last⟩ := andThen_eq_next.1 next
    cases last
    exact (pushBuffer_growsInPlace pushed).withRet _
  | remove =>
    obtain ⟨-, next⟩ := withBuffer_eq_next.1 h
    obtain ⟨x, removed, last⟩ := andThen_eq_next.1 next
    cases last
    exact (removeBuffer_growsInPlace removed).withRet _
  | pop =>
    obtain ⟨x, popped, last⟩ := andThen_eq_next.1 h
    cases last
    exact (popHead_growsInPlace popped).withRet _
  | visitFirst => exact growsInPlace_of_returning h fun _ => visitHead_growsInPlace
  | finish => exact growsInPlace_of_returning h fun _ => finishTransfer_growsInPlace
  | startReset => exact growsInPlace_of_returning h fun _ => startLineReset_growsInPlace
  | setFW => exact growsInPlace_of_returning h fun _ => setWidthBits_growsInPlace
  | writeTX =>
    refine growsInPlace_of_returning h fun u next => ?_
    obtain ⟨-, -, rfl⟩ := transmit_eq_next.1 next
    exact ⟨{}, rfl⟩
  | readRX =>
    obtain ⟨x, received, last⟩ := andThen_eq_next.1 h
    obtain ⟨-, -, rfl⟩ := receive_eq_next.1 received
    cases last
    exact ⟨{}, rfl⟩
  | _ => cases part

/-! ### The histories -/

theorem exec_grows {i : Instr} {s t : State} (h : exec i s = .next t) : Grows s t := by
  cases agent : isAgentStep i with
  | true => exact (AgentMove.of_exec (agentRow_of_isAgentStep agent) h).grows
  | false => exact (part_growsInPlace agent h).1

theorem runInput_grows {x : Input} {s t : State} (h : runInput x s = .next t) : Grows s t := by
  cases x with
  | op w =>
    change runSlot w s = .next t at h
    cases decoded : decode w with
    | ok i =>
      rw [runSlot_decoded decoded] at h
      exact exec_grows h
    | error e =>
      rw [runSlot_undecodable decoded] at h
      cases h
  | callerWrite | callerRead | queryReady | queryResult | queryParity => exact (AgentMove.of_runInput rfl h).grows

theorem step_grows {s t : State} (h : step s = .next t) : Grows s t := by
  cases script : s.script with
  | nil =>
    rw [step_alone script] at h
    exact (AgentMove.of_hardwareStep h).grows
  | cons x rest =>
    rw [step_placed script] at h
    have taken : Grows s { s with script := rest } := {}
    exact taken.trans (runInput_grows h)

/-- Settles O56: `Grows` for every step; the free values of the driven cycles are those of one run. -/
theorem historiesOnlyGrow : Obligations.HistoriesOnlyGrow := by
  intro s t next
  obtain ⟨events, cfg, imask, canonical, c, n, wire, draws, driven⟩ := step_grows next
  refine ⟨events, cfg, imask, canonical, c, wire, ?_⟩
  rw [driven, drawsFrom_length]
  exact ⟨draws, fun k inside => drawsFrom_getElem? inside⟩

/-! ### Stores -/

/-- In phase READ_DATA3 the entry that goes on is READ_DATA3 (rule R74). -/
theorem runEntry_readData3 {e : Entry} {s t : State} (phase : s.phase = Phase.readData3.code)
    (h : runEntry e s = .next t) : e = .readData3 := by
  obtain ⟨key, -⟩ := runEntry_eq_next.1 h
  rw [pendingEntry, phase] at key
  cases key
  rfl

/-- Outside phase READ_DATA3 an entry stores nothing (rules R44, R132). -/
theorem EntryMove.mem {s t : State} (move : EntryMove s t) (other : s.phase ≠ Phase.readData3.code) : t.mem = s.mem := by
  cases move with
  | finished p h rest acc rpar m phase _ _ _ stores =>
    obtain rfl | ⟨rfl, -⟩ := stores
    · exact nextStarted_mem _ _
    · exact absurd phase other
  | onward | resetWord | resetEnded | resetEndedArmed => rfl

theorem runEntry_mem {e : Entry} {s t : State} (h : runEntry e s = .next t) (other : s.phase ≠ Phase.readData3.code) :
    t.mem = s.mem :=
  (entryMove_of_runEntry h).mem other

theorem cancel_mem {i : BufIdx} {s t : State} (h : exec (.cancel i) s = .next t) : t.mem = s.mem := by
  obtain ⟨r, u, body, rfl⟩ := command_eq_next.1 h
  obtain ⟨-, ⟨-, rfl⟩ | ⟨-, -, -, -, rfl⟩⟩ := cancelBody_cases body
  · rfl
  · rfl

theorem reset_mem {s t : State} (h : exec .reset s = .next t) : t.mem = s.mem := by
  obtain ⟨r, u, body, rfl⟩ := command_eq_next.1 h
  obtain ⟨-, ⟨-, rfl⟩ | ⟨-, -, rfl⟩ | ⟨-, -, -, rfl⟩⟩ := resetBody_cases body
  · rfl
  · rfl
  · rfl

/-- Settles O57: the agent rows one by one, with the entries told apart by the phase; parts of steps store nothing. -/
theorem onlyNamedRowsStore : Obligations.OnlyNamedRowsStore := by
  intro i s t next notStart notHeader notStore notStoringEntry
  cases agent : isAgentStep i with
  | false => exact (part_growsInPlace agent next).2
  | true =>
    cases agentRow_of_isAgentStep agent with
    | start d i =>
      obtain ⟨notRead, notWrite⟩ := notStart i
      cases d with
      | read => exact absurd rfl notRead
      | write => exact absurd rfl notWrite
    | cancel i => exact cancel_mem next
    | reset => exact reset_mem next
    | entry e d =>
      rw [exec_entryInstr] at next
      refine runEntry_mem next fun phase => ?_
      obtain rfl := runEntry_readData3 phase next
      exact notStore d rfl
    | irqEntry =>
      obtain ⟨e, runs⟩ := irqEntryStep_eq_next next
      exact runEntry_mem runs fun phase => notStoringEntry ⟨rfl, phase⟩
    | bit =>
      obtain ⟨-, rfl⟩ := exec_bit_eq_next.1 next
      obtain ⟨_, _, _, _, _, _, _, _, e⟩ := bitCycle_frame s
      rw [e]
    | header i h => exact absurd rfl (notHeader i h)
    | @frame i f row =>
      rw [exec_frameRow row] at next
      obtain ⟨-, tgt, runs⟩ | refused := runFrame_cases f s
      · rw [runs] at next
        cases next
        obtain ⟨_, _, _, _, _, _, _, _, e⟩ := bitCycles_frame f.width.bits { s with target := tgt }
        rw [e]
      · rw [refused] at next
        cases next

end Sys2Proof.Machine
end
